-- ==== Sys2Proof/Word.lean ====
section
/-! DEFINITION. The words of the block: bytes, the 15-bit frame word (30_encoding.md R80), the 30-bit event word
(opcode_table.json, format EVENT) and the 3-bit sub-phase code (30_encoding.md R83). -/

namespace Sys2Proof

/-- Eight bits: a captured byte, a descriptor byte, the eight data levels `D7..D0` of a frame. -/
abbrev Byte := BitVec 8

/-- One sampled frame, 15 bits: REQ, ACK, MSG, IO, CD, BSY, SEL in bits 14 to 8, `D7..D0` in bits 7 to 0; a bit is the
sampled level, 1 = high = negated (30_encoding.md R80, R81). The type holds no bit above bit 14 (U21). -/
abbrev Frame := BitVec 15

/-- The previous frame in bits 29 to 15 and the current frame in bits 14 to 0 (opcode_table.json, format EVENT). -/
abbrev EventWord := BitVec 30

/-- The sub-phase code: the levels MSG, CD, IO in bits 2, 1, 0 (30_encoding.md R83). -/
abbrev Code := BitVec 3

end Sys2Proof
end

