-- ==== Sys2Proof/Config.lean ====
section
/-! DEFINITION. What an implementation fixes: the parameters of 00_scope.md R8. The three OPEN ones are gathered in
`Params`; their default values stand in Machine/Params.lean. -/

namespace Sys2Proof

/-- The coarse class of an opcode (30_encoding.md R100), in the order of its codes 0 to 5; codes 6 and 7 are never
produced and have no constructor (U21). -/
inductive CmdClass where
  | status | directory | data | audio | subcode | unknown
  deriving DecidableEq, Repr

/-- The OPEN parameters of 00_scope.md R8. DESIGN CHOICE (log 3): they are carried by the state, which no step changes
in them, so that a statement about every state is a statement about every value of the parameters. -/
structure Params where
  /-- DEBOUNCE_WINDOW, W: the length in samples of the CD/IO/MSG window (D8). -/
  debounceWindow : Nat
  /-- CDB_MAX: the capacity in bytes of the descriptor store (D16). -/
  cdbMax : Nat
  /-- CMD_CLASS as a table of opcodes; an opcode the table does not list has class UNKNOWN (D18). -/
  cmdClass : List (Byte × CmdClass)
  deriving DecidableEq, Repr

/-- What 00_scope.md R8 asks of the OPEN parameters: W >= 1 and CDB_MAX >= 10. -/
abbrev Params.wf (p : Params) : Prop := 1 ≤ p.debounceWindow ∧ 10 ≤ p.cdbMax

/-- N_DATA of 00_scope.md R8. -/
def Config.nData : Nat := 8

/-- N_CTRL of 00_scope.md R8: SEL, BSY, CD, IO, MSG, ACK. -/
def Config.nCtrl : Nat := 6

/-- SAMPLE_W of 00_scope.md R8, the hardware width of a sample number (log 7). -/
def Config.sampleW : Nat := 64

/-- IDX_W of 00_scope.md R8, the hardware width of a byte index (log 7). -/
def Config.idxW : Nat := 32

/-- SR_W of 00_scope.md R8, the width of the sample-rate value. -/
def Config.srW : Nat := 64

end Sys2Proof
end

