-- ==== Sys2Proof/Syntax.lean ====
section
/-! DEFINITION. The instructions of the block: one constructor per row of spec/opcode_table.json, in the table's order, and
the names the rows refer to. -/

namespace Sys2Proof

/-- The four phases in the order of their strict cycle, codes 0 to 3 (30_encoding.md R82). -/
inductive Phase where
  | busFree | arbitration | selection | informationTransfer
  deriving DecidableEq, Repr

/-- The eight sub-phase names in code order 0 to 7 (30_encoding.md R84). -/
inductive SubPhase where
  | messageIn | messageOut | unused2 | unused3 | status | command | dataIn | dataOut
  deriving DecidableEq, Repr

/-- The direction of a byte (30_encoding.md R85). -/
inductive Direction where
  | toTarget | fromTarget
  deriving DecidableEq, Repr

/-- The mnemonics of 30_encoding.md R95 and R104; ids 10 to 14 do not exist (U21). -/
inductive Mnemonic where
  | testUnitReady | requestSense | modeSelect | modeSense | preventAllow | readExt | readToc | readHeader
  | pauseResume | audioTrackSearch | unknown
  deriving DecidableEq, Repr

/-- The rows of spec/opcode_table.json. A row's operands are the bits of its word that its meaning reads. -/
inductive Instr where
  /-- EV_BUS_FREE_END: SEL falls in BUS_FREE (R121). -/
  | evBusFreeEnd
  /-- EV_ARBITRATION_END: BSY falls in ARBITRATION; `pins` are the data levels of that frame (R122). -/
  | evArbitrationEnd (pins : Byte)
  /-- EV_SELECTION_END: SEL rises in SELECTION; `code` is the sub-phase code of that frame (R123, R124). -/
  | evSelectionEnd (code : Code)
  /-- EV_INFORMATION_TRANSFER_END: the second consecutive BSY-high sample (R126, R148). -/
  | evInformationTransferEnd
  /-- EV_ACK_FALL: ACK falls in INFORMATION_TRANSFER; `d` are the data levels of that frame (R161). -/
  | evAckFall (d : Byte)
  /-- EV_ACK_RISE: ACK rises in INFORMATION_TRANSFER with a latched value (R162 to R165). -/
  | evAckRise
  /-- SP_0 to SP_7: the run that ends is classified by its code (R151, R146). -/
  | sp0 | sp1 | sp2 | sp3 | sp4 | sp5 | sp6 | sp7
  /-- The descriptor of a COMMAND run is decoded by its opcode (R184 to R196). -/
  | testUnitReady | requestSense | modeSelect | modeSense | preventAllow | readExt | readToc | readHeader
  | pauseResume | audioTrackSearch
  /-- UNKNOWN: the default row, any of the 246 opcodes without a decoder (R197). -/
  | unknown (opcode : Byte)
  deriving DecidableEq, Repr

/-- The three formats of opcode_table.json. -/
inductive Format where
  /-- A 30-bit word, stored in four bytes, the least significant first. -/
  | event
  /-- A 3-bit code, stored in one byte. -/
  | subphaseCode
  /-- The bytes of a command descriptor, of which the first selects the row. -/
  | cdb
  deriving DecidableEq, Repr

/-- The format of an instruction's row in opcode_table.json. -/
def Instr.format : Instr → Format
  | .evBusFreeEnd => .event
  | .evArbitrationEnd _ => .event
  | .evSelectionEnd _ => .event
  | .evInformationTransferEnd => .event
  | .evAckFall _ => .event
  | .evAckRise => .event
  | .sp0 => .subphaseCode
  | .sp1 => .subphaseCode
  | .sp2 => .subphaseCode
  | .sp3 => .subphaseCode
  | .sp4 => .subphaseCode
  | .sp5 => .subphaseCode
  | .sp6 => .subphaseCode
  | .sp7 => .subphaseCode
  | .testUnitReady => .cdb
  | .requestSense => .cdb
  | .modeSelect => .cdb
  | .modeSense => .cdb
  | .preventAllow => .cdb
  | .readExt => .cdb
  | .readToc => .cdb
  | .readHeader => .cdb
  | .pauseResume => .cdb
  | .audioTrackSearch => .cdb
  | .unknown _ => .cdb

end Sys2Proof
end

