-- ==== Sys2Proof/WellFormed.lean ====
section
/-! DEFINITION. Which instructions are well formed. Every operand of an EVENT row may take every value of its width, so the
one check is that the default row is taken only when no other CDB row matches (opcode_table.json, row UNKNOWN). -/

namespace Sys2Proof

/-- The ten opcodes that have a decoder of their own (30_encoding.md R95). -/
def knownOpcodes : List Byte := [0x00, 0x03, 0x15, 0x1A, 0x1E, 0x28, 0x43, 0x44, 0x4B, 0xD8]

/-- An instruction is well formed unless it is the default row with an opcode that has a row of its own (R95, R96). -/
def Instr.wellFormed : Instr → Bool
  | .evBusFreeEnd => true
  | .evArbitrationEnd _ => true
  | .evSelectionEnd _ => true
  | .evInformationTransferEnd => true
  | .evAckFall _ => true
  | .evAckRise => true
  | .sp0 => true
  | .sp1 => true
  | .sp2 => true
  | .sp3 => true
  | .sp4 => true
  | .sp5 => true
  | .sp6 => true
  | .sp7 => true
  | .testUnitReady => true
  | .requestSense => true
  | .modeSelect => true
  | .modeSense => true
  | .preventAllow => true
  | .readExt => true
  | .readToc => true
  | .readHeader => true
  | .pauseResume => true
  | .audioTrackSearch => true
  | .unknown opcode => !knownOpcodes.contains opcode

end Sys2Proof
end

