-- ==== Sys2Proof/Decode.lean ====
section
/-! DEFINITION. The decoder: the frame word taken apart, the rows of opcode_table.json as masks and patterns, which rows fire
in a step, and the total decoder from bytes; then the encoder, written from the same table. -/

namespace Sys2Proof

/-- Level of SEL, bit 8 of the frame word (30_encoding.md R80). -/
def Frame.sel (f : Frame) : Bool := f.getLsbD 8
/-- Level of BSY, bit 9 of the frame word (R80). -/
def Frame.bsy (f : Frame) : Bool := f.getLsbD 9
/-- Level of CD, bit 10 of the frame word (R80). -/
def Frame.cd (f : Frame) : Bool := f.getLsbD 10
/-- Level of IO, bit 11 of the frame word (R80). -/
def Frame.io (f : Frame) : Bool := f.getLsbD 11
/-- Level of MSG, bit 12 of the frame word (R80). -/
def Frame.msg (f : Frame) : Bool := f.getLsbD 12
/-- Level of ACK, bit 13 of the frame word (R80). -/
def Frame.ack (f : Frame) : Bool := f.getLsbD 13
/-- Level of REQ, bit 14 of the frame word (R80); no rule reads it (R167). -/
def Frame.req (f : Frame) : Bool := f.getLsbD 14
/-- `f.D`, the levels of D7..D0 (R80). -/
def Frame.d (f : Frame) : Byte := f.setWidth 8

/-- A 3-bit sub-phase code from the levels of MSG, CD, IO: `(MSG << 2) | (CD << 1) | IO` (30_encoding.md R83). -/
def codeOf (msg cd io : Bool) : Code := BitVec.ofBool msg ++ BitVec.ofBool cd ++ BitVec.ofBool io

/-- The sub-phase code of a frame's levels (R83). -/
def Frame.code (f : Frame) : Code := codeOf f.msg f.cd f.io

/-- The previous frame of an event word, bits 29:15. -/
def EventWord.previous (w : EventWord) : Frame := w.extractLsb' 15 15

/-- The current frame of an event word, bits 14:0. -/
def EventWord.current (w : EventWord) : Frame := w.setWidth 15

/-- The mask and the match column of an EVENT row of opcode_table.json. -/
structure EventRow where
  mask : EventWord
  pattern : EventWord
  deriving DecidableEq, Repr

/-- The row's condition on the event word: the bits under the mask equal the pattern. -/
def EventRow.fires (r : EventRow) (w : EventWord) : Bool := w &&& r.mask == r.pattern

/-- EV_BUS_FREE_END: previous SEL (bit 23) 1, SEL (bit 8) 0. -/
def busFreeEndRow : EventRow := ⟨0x00800100, 0x00800000⟩
/-- EV_ARBITRATION_END: previous BSY (bit 24) 1, BSY (bit 9) 0. -/
def arbitrationEndRow : EventRow := ⟨0x01000200, 0x01000000⟩
/-- EV_SELECTION_END: previous SEL (bit 23) 0, SEL (bit 8) 1. -/
def selectionEndRow : EventRow := ⟨0x00800100, 0x00000100⟩
/-- EV_INFORMATION_TRANSFER_END: BSY (bit 9) 1; the state condition stands in `decodeExitEvent`. -/
def informationTransferEndRow : EventRow := ⟨0x00000200, 0x00000200⟩
/-- EV_ACK_FALL: previous ACK (bit 28) 1, ACK (bit 13) 0. -/
def ackFallRow : EventRow := ⟨0x10002000, 0x10000000⟩
/-- EV_ACK_RISE: previous ACK (bit 28) 0, ACK (bit 13) 1; the state condition stands in `decodeAckEvent`. -/
def ackRiseRow : EventRow := ⟨0x10002000, 0x00002000⟩

/-- BSY_DEBOUNCE of 00_scope.md R8: the consecutive BSY-high samples that end INFORMATION_TRANSFER (D9). -/
def bsyDebounce : BitVec 2 := 2

/-- The state an EVENT row's firing depends on beside its word (opcode_table.json, `phase` and `state_condition`). -/
structure Context where
  phase : Phase
  latchValid : Bool
  bsyHighCnt : BitVec 2
  deriving DecidableEq, Repr

/-- The rows of BUS_FREE, ARBITRATION and SELECTION: each phase awaits one edge (R121, R122, R123). -/
def decodePhaseEvent (p : Phase) (w : EventWord) : Option Instr :=
  match p with
  | .busFree => if busFreeEndRow.fires w then some .evBusFreeEnd else none
  | .arbitration => if arbitrationEndRow.fires w then some (.evArbitrationEnd w.current.d) else none
  | .selection => if selectionEndRow.fires w then some (.evSelectionEnd w.current.code) else none
  | .informationTransfer => none

/-- The ACK rows, awaited in INFORMATION_TRANSFER; the rising edge fires only with a latched value (R160 to R163). -/
def decodeAckEvent (latchValid : Bool) (w : EventWord) : Option Instr :=
  if ackFallRow.fires w then some (.evAckFall w.current.d)
  else if ackRiseRow.fires w && latchValid then some .evAckRise
  else none

/-- The exit row, awaited in INFORMATION_TRANSFER: BSY high for the BSY_DEBOUNCE-th consecutive time (R148). -/
def decodeExitEvent (bsyHighCnt : BitVec 2) (w : EventWord) : Option Instr :=
  if informationTransferEndRow.fires w && bsyHighCnt + 1 == bsyDebounce then some .evInformationTransferEnd else none

/-- All EVENT rows that fire in a step, in their order of service (60_exceptions.md R229). -/
def decodeEvents (c : Context) (w : EventWord) : List Instr :=
  match c.phase with
  | .informationTransfer => (decodeAckEvent c.latchValid w).toList ++ (decodeExitEvent c.bsyHighCnt w).toList
  | p => (decodePhaseEvent p w).toList

/-- The SUBPHASE_CODE rows: all eight codes have one (R84, R86). -/
def decodeSubphase (c : Code) : Instr :=
  if c = 0 then .sp0
  else if c = 1 then .sp1
  else if c = 2 then .sp2
  else if c = 3 then .sp3
  else if c = 4 then .sp4
  else if c = 5 then .sp5
  else if c = 6 then .sp6
  else .sp7

/-- The ten CDB rows with mask 0xFF (30_encoding.md R95). -/
def opcodeRows : List (Byte × Instr) :=
  [(0x00, .testUnitReady), (0x03, .requestSense), (0x15, .modeSelect), (0x1A, .modeSense), (0x1E, .preventAllow),
   (0x28, .readExt), (0x43, .readToc), (0x44, .readHeader), (0x4B, .pauseResume), (0xD8, .audioTrackSearch)]

/-- The CDB row of an opcode; the default row where no other matches, so that no opcode is illegal (R95, R96, R185). -/
def decodeOpcode (op : Byte) : Instr := (opcodeRows.lookup op).getD (.unknown op)

/-- Why bytes are no instruction. -/
inductive Reject where
  /-- An event word is four bytes, a sub-phase code one; fewer or more were given. -/
  | wrongLength
  /-- A bit above the frame word's or the code's highest bit is set; the block never produces one (U21). -/
  | reservedBits
  /-- No EVENT row fires on the word in the given context (R128: the pattern is ignored). -/
  | noEvent
  /-- A descriptor without a first byte has no opcode. -/
  | emptyDescriptor
  deriving DecidableEq, Repr

/-- The bytes of a word as one number, the least significant byte first. -/
def ofBytes : List Byte → Nat
  | [] => 0
  | b :: bs => b.toNat + 256 * ofBytes bs

/-- The first event that fires on four bytes; bits 31:30 hold no line. -/
def decodeEventBytes (c : Context) (bytes : List Byte) : Except Reject Instr :=
  if bytes.length ≠ 4 then .error .wrongLength
  else if 2 ^ 30 ≤ ofBytes bytes then .error .reservedBits
  else
    match decodeEvents c (BitVec.ofNat 30 (ofBytes bytes)) with
    | [] => .error .noEvent
    | i :: _ => .ok i

/-- The row of a sub-phase code held in one byte. -/
def decodeSubphaseBytes (bytes : List Byte) : Except Reject Instr :=
  if bytes.length ≠ 1 then .error .wrongLength
  else if 8 ≤ ofBytes bytes then .error .reservedBits
  else .ok (decodeSubphase (BitVec.ofNat 3 (ofBytes bytes)))

/-- The row of a descriptor, by its first byte alone (R185). -/
def decodeCdbBytes (bytes : List Byte) : Except Reject Instr :=
  match bytes with
  | [] => .error .emptyDescriptor
  | op :: _ => .ok (decodeOpcode op)

/-- The decoder, total on any bytes. -/
def decode (c : Context) (fmt : Format) (bytes : List Byte) : Except Reject Instr :=
  match fmt with
  | .event => decodeEventBytes c bytes
  | .subphaseCode => decodeSubphaseBytes bytes
  | .cdb => decodeCdbBytes bytes

/-- The `n` lowest bytes of a number, the least significant first. -/
def toBytes : Nat → Nat → List Byte
  | 0, _ => []
  | n + 1, w => BitVec.ofNat 8 w :: toBytes n (w / 256)

/-- The sub-phase code at its places in the current frame of an event word: MSG, IO, CD in bits 12, 11, 10. -/
def codeBits (c : Code) : EventWord :=
  (BitVec.ofBool (c.getLsbD 2) ++ BitVec.ofBool (c.getLsbD 0) ++ BitVec.ofBool (c.getLsbD 1) ++ (0 : BitVec 10)).setWidth 30

/-- The word of an instruction: its row's match column with the operands at their places, every other bit 0. -/
def wordOf : Instr → Nat
  | .evBusFreeEnd => busFreeEndRow.pattern.toNat
  | .evArbitrationEnd pins => (arbitrationEndRow.pattern ||| pins.setWidth 30).toNat
  | .evSelectionEnd code => (selectionEndRow.pattern ||| codeBits code).toNat
  | .evInformationTransferEnd => informationTransferEndRow.pattern.toNat
  | .evAckFall d => (ackFallRow.pattern ||| d.setWidth 30).toNat
  | .evAckRise => ackRiseRow.pattern.toNat
  | .sp0 => 0
  | .sp1 => 1
  | .sp2 => 2
  | .sp3 => 3
  | .sp4 => 4
  | .sp5 => 5
  | .sp6 => 6
  | .sp7 => 7
  | .testUnitReady => 0x00
  | .requestSense => 0x03
  | .modeSelect => 0x15
  | .modeSense => 0x1A
  | .preventAllow => 0x1E
  | .readExt => 0x28
  | .readToc => 0x43
  | .readHeader => 0x44
  | .pauseResume => 0x4B
  | .audioTrackSearch => 0xD8
  | .unknown opcode => opcode.toNat

/-- How many bytes a format's word takes. -/
def Format.size : Format → Nat
  | .event => 4
  | .subphaseCode => 1
  | .cdb => 1

/-- The encoder: the bytes of an instruction's word, the least significant first. -/
def encode (i : Instr) : List Byte := toBytes i.format.size (wordOf i)

/-- The context in which an EVENT row fires (opcode_table.json, `phase` and `state_condition`); for the rows of the
other formats, which fire on no context, that of INFORMATION_TRANSFER. -/
def contextOf : Instr → Context
  | .evBusFreeEnd => ⟨.busFree, false, 0⟩
  | .evArbitrationEnd _ => ⟨.arbitration, false, 0⟩
  | .evSelectionEnd _ => ⟨.selection, false, 0⟩
  | .evInformationTransferEnd => ⟨.informationTransfer, false, 1⟩
  | .evAckRise => ⟨.informationTransfer, true, 0⟩
  | _ => ⟨.informationTransfer, false, 0⟩

/-- The format of a word of opcode_table.json of which only the width and the value are known. DESIGN CHOICE (log 9): more
than 16 bits is an event word; a first byte that is one of the ten opcodes is a descriptor; up to 8 bits, a value below 8
is a sub-phase code; from 9 to 16 bits, a word with bit 9 (BSY) set, whose first byte is no nonzero opcode, is an event word. -/
def tableFormat (nbits w : Nat) : Format :=
  let op := BitVec.ofNat 8 w
  if 16 < nbits then .event
  else if nbits < 8 then .subphaseCode
  else if nbits = 8 then (if w < 8 ∧ op ∉ knownOpcodes then .subphaseCode else .cdb)
  else if w.testBit 9 ∧ (op = 0 ∨ op ∉ knownOpcodes) then .event
  else .cdb

/-- The contexts in which an event word of which no context is given is read, the first that has a firing row counting:
the three phases that await an edge, then INFORMATION_TRANSFER with a latched value and one BSY-high sample (log 10). -/
def tableContexts : List Context :=
  [⟨.busFree, false, 0⟩, ⟨.arbitration, false, 0⟩, ⟨.selection, false, 0⟩, ⟨.informationTransfer, true, 1⟩]

/-- The decoder on bytes of which no context is given. -/
def decodeAnyContext (fmt : Format) (bytes : List Byte) : List Context → Option Instr
  | [] => none
  | c :: cs =>
    match decode c fmt bytes with
    | .ok i => some i
    | .error _ => decodeAnyContext fmt bytes cs

/-- The bytes of a table word as the block holds them: four for an event word, one for a code, and for a descriptor the
ten bytes the longest decoder reads (those the table gives no bits are 0). -/
def tableBytes (fmt : Format) (w : Nat) : List Byte :=
  match fmt with
  | .event => toBytes 4 w
  | .subphaseCode => toBytes 1 w
  | .cdb => toBytes 10 w

/-- The instruction the decoder reads from a word of opcode_table.json. -/
def decodeTableWord (nbits w : Nat) : Option Instr :=
  decodeAnyContext (tableFormat nbits w) (tableBytes (tableFormat nbits w) w) tableContexts

end Sys2Proof
end

