-- ==== Sys2Proof/Machine/Params.lean ====
section
/-! DEFINITION. The values the spec gives the parameters of 00_scope.md R8: the defaults of the OPEN ones, and the
constant DATA_CAPTURE_INVERT. -/

namespace Sys2Proof.Machine

/-- The default of DEBOUNCE_WINDOW (00_scope.md R8, D8). -/
def defaultDebounceWindow : Nat := 2

/-- The default of CDB_MAX (00_scope.md R8, D16). -/
def defaultCdbMax : Nat := 16

/-- The default of CMD_CLASS (43_command_interpreter.md R181): no opcode is SUBCODE, every other value is UNKNOWN. -/
def defaultCmdClass : List (Byte × CmdClass) :=
  [(0x00, .status), (0x03, .status), (0x15, .status), (0x1A, .status), (0x1E, .status),
   (0x43, .directory), (0x44, .directory), (0x28, .data), (0x4B, .audio), (0xD8, .audio)]

/-- The OPEN parameters at the spec's defaults. -/
def defaultParams : Params :=
  { debounceWindow := defaultDebounceWindow, cdbMax := defaultCdbMax, cmdClass := defaultCmdClass }

/-- `CMD_CLASS(b)`: a total function of the opcode byte alone (R181). -/
def classOf (p : Params) (op : Byte) : CmdClass := (p.cmdClass.lookup op).getD .unknown

/-- DATA_CAPTURE_INVERT of 00_scope.md R8, fixed at 0 (conflict C1). -/
def dataCaptureInvert : Bool := false

end Sys2Proof.Machine
end

