-- ==== Sys2Proof/Machine/State.lean ====
section
/-! DEFINITION. The state of the block as plain data (10_state.md), the records it emits (30_encoding.md section 3), the
reasons a step can stop, and the state after reset. -/

namespace Sys2Proof.Machine

/-- `run_state`, codes 0 to 2 (10_state.md R21). -/
inductive RunState where
  | idle | running | halted
  deriving DecidableEq, Repr

/-- The six control levels kept of a frame (10_state.md R23). -/
structure Controls where
  sel : Bool
  bsy : Bool
  cd : Bool
  io : Bool
  msg : Bool
  ack : Bool
  deriving DecidableEq, Repr

/-- CFG, the control register, owned by the host (10_state.md R37). -/
structure Cfg where
  srValid : Bool
  samplerate : BitVec 64
  deriving DecidableEq, Repr

/-- CmdInfo, the payload of a CAT_CMD record (30_encoding.md R99): a field that a mnemonic or variant does not list is
absent. `op` is 0 for pause and 1 for play. -/
structure CmdInfo where
  mnem : Mnemonic
  short : Bool
  overflow : Bool
  variant : BitVec 3
  op : Option (BitVec 1) := none
  lba : Option (BitVec 32) := none
  count : Option (BitVec 16) := none
  listlen : Option Byte := none
  pc : Option (BitVec 2) := none
  page : Option Byte := none
  t0 : Option Byte := none
  t1 : Option Byte := none
  t2 : Option Byte := none
  track : Option Byte := none
  start : Option Byte := none
  ntracks : Option Int := none
  nbytes : Nat
  len : Nat
  raw : List Byte
  deriving DecidableEq, Repr

/-- The payloads of the output records, one constructor per kind of record of 30_encoding.md R89. -/
inductive Payload where
  | phase (p : Phase)
  | lun (pins : Byte)
  | subphase (code : Code) (nbytes : Nat)
  | cmd (info : CmdInfo)
  | toTarget (byte : Byte)
  | fromTarget (byte : Byte)
  | byteIndex (index : Nat)
  | cmdByte (cls : CmdClass) (byte : Byte)
  deriving DecidableEq, Repr

/-- An output record (30_encoding.md R88); its category id is `Record.cat`, a function of the payload. -/
structure Record where
  ss : Nat
  es : Nat
  payload : Payload
  deriving DecidableEq, Repr

/-- What the outside can present to the block in one step (log 1, log 14). -/
inductive Stimulus where
  /-- A sampled frame (00_scope.md R7). -/
  | frame (f : Frame)
  /-- The reset input is asserted: no frame is taken (70_reset_and_hazards.md R240). -/
  | rst
  /-- The host writes CFG (10_state.md R37). -/
  | writeCfg (c : Cfg)
  deriving DecidableEq, Repr

/-- Bytes by address, in one canonical form: addresses strictly rising, and no entry that holds `unlistedByte`. -/
abbrev Memory := List Host.Cell

/-- What an unlisted byte of the descriptor store reads as. DESIGN CHOICE (log 6): 0x00. -/
def unlistedByte : Byte := 0x00

/-- The canonical form of `Memory` holds. -/
def Memory.wf : Memory → Bool
  | [] => true
  | (a, b) :: m => b != unlistedByte && m.all (fun c => decide (a < c.1)) && Memory.wf m

/-- All state of the block (10_state.md R20 to R36), CFG (R37), and the model's own fields: the parameters (log 3), the
stimuli not yet taken (log 1) and the output ports of the last step (log 2). -/
structure State where
  runState : RunState
  errCfg : Bool
  samplenum : Nat
  prev : Controls
  prevValid : Bool
  phase : Phase
  phaseStart : Nat
  arbPins : Byte
  subphase : Code
  runStart : Nat
  byteCount : Nat
  byteRunStart : Nat
  dataLatch : Byte
  latchValid : Bool
  dbPending : Bool
  dbCnt : Nat
  bsyHighCnt : BitVec 2
  cdb : Memory
  cdbLen : Nat
  cdbOverflow : Bool
  cmdClass : CmdClass
  cfg : Cfg
  params : Params
  input : List Stimulus
  out : List Record
  cfgError : Bool
  deriving DecidableEq, Repr

/-- Why a step stops with a fault. No state that a run from reset reaches raises one. -/
inductive Fault where
  /-- Raised by the descriptor read for an index `>= cdb_len`: the spec says that no rule performs such a read and that
  a model should make it an error (U4, R34, R65). Safe: the model stops where the spec gives no value. -/
  | cdbBeyondLength
  /-- Raised by the descriptor read for an index `>= CDB_MAX`: no such byte exists (20_memory.md R60). Safe: the model
  stops where the spec names no byte. -/
  | cdbOutsideStore
  deriving DecidableEq, Repr

/-- Why a step is refused. -/
inductive Refusal where
  /-- An instruction without a meaning; no arm of `exec` answers it. Safe: the model stops. -/
  | notModelled (mnemonic : String)
  deriving DecidableEq, Repr

/-- The machine right after reset (10_state.md R44). The fields that R44 calls unspecified are 0 (DESIGN CHOICE, log 4), CFG is
not configured (DESIGN CHOICE, log 5), the parameters are the spec's defaults (log 3), and no stimulus waits (log 1). -/
def State.reset : State where
  runState := .idle
  errCfg := false
  samplenum := 0
  prev := ⟨false, false, false, false, false, false⟩
  prevValid := false
  phase := .busFree
  phaseStart := 0
  arbPins := 0
  subphase := 0
  runStart := 0
  byteCount := 0
  byteRunStart := 0
  dataLatch := 0
  latchValid := false
  dbPending := false
  dbCnt := 0
  bsyHighCnt := 0
  cdb := []
  cdbLen := 0
  cdbOverflow := false
  cmdClass := .unknown
  cfg := ⟨false, 0⟩
  params := defaultParams
  input := []
  out := []
  cfgError := false

end Sys2Proof.Machine
end

