-- ==== Sys2Proof/Machine/Operands.lean ====
section
/-! DEFINITION. Operand forms: the levels of a frame the block keeps, the classification of a code, the fields of a descriptor
(30_encoding.md R97, R98), and the codes of the enumerations. -/

namespace Sys2Proof.Machine

/-- `controls(f)`: the six levels that become `prev` (10_state.md R23); REQ and the data lines are not kept. -/
def controlsOf (f : Frame) : Controls :=
  { sel := f.sel, bsy := f.bsy, cd := f.cd, io := f.io, msg := f.msg, ack := f.ack }

/-- The sub-phase code of the levels of the previous frame (30_encoding.md R83). -/
def Controls.code (p : Controls) : Code := codeOf p.msg p.cd p.io

/-- The frame word of kept levels. REQ and the data lines are not kept (R23): they stand as 0, and no row's mask and no
rule looks at them (log 10). -/
def Controls.toFrame (p : Controls) : Frame :=
  BitVec.ofBool false ++ BitVec.ofBool p.ack ++ BitVec.ofBool p.msg ++ BitVec.ofBool p.io ++ BitVec.ofBool p.cd
    ++ BitVec.ofBool p.bsy ++ BitVec.ofBool p.sel ++ (0 : Byte)

/-- The event word of a step: the previous frame's levels above the current frame (opcode_table.json, format EVENT). -/
def eventWord (p : Controls) (f : Frame) : EventWord := p.toFrame ++ f

/-- The value captured from the data lines: bit i is the level of Di, complemented only under DATA_CAPTURE_INVERT
(20_memory.md R64, conflict C1). -/
def captureByte (d : Byte) : Byte := if dataCaptureInvert then ~~~d else d

/-- `SubPhaseName(code)` (41_subphase_tracker.md R151, 30_encoding.md R84). -/
def subPhaseName (c : Code) : SubPhase :=
  match c.toNat with
  | 0 => .messageIn
  | 1 => .messageOut
  | 2 => .unused2
  | 3 => .unused3
  | 4 => .status
  | 5 => .command
  | 6 => .dataIn
  | _ => .dataOut

/-- The direction of a code: to target iff bit 0, the IO level, is 1 (30_encoding.md R85). -/
def directionOf (c : Code) : Direction := if c.getLsbD 0 then .toTarget else .fromTarget

/-- The code of COMMAND (30_encoding.md R84). -/
def commandCode : Code := 5

/-- `be16(a, b)` (00_scope.md R10, 20_memory.md R63). -/
def be16 (a b : Byte) : BitVec 16 := a ++ b

/-- `be32(a, b, c, d)` (00_scope.md R10, 20_memory.md R63). -/
def be32 (a b c d : Byte) : BitVec 32 := a ++ b ++ c ++ d

/-- The variant of a two-way selector byte: 0 for 0x00, 1 for every other value (R189, R191, R193 to R195). -/
def zeroSelector (b : Byte) : BitVec 3 := if b = 0x00 then 0 else 1

/-- The addressing-mode selector: 0 = LBA, 1 = MSF, 2 = track, 3 = unknown addressing (30_encoding.md R97). -/
def addressingMode (b : Byte) : BitVec 3 :=
  if b = 0x00 then 0 else if b = 0x40 then 1 else if b = 0x80 then 2 else 3

/-- `PC = cdb[2][7:6]` (30_encoding.md R98). -/
def pageControl (b : Byte) : BitVec 2 := b.extractLsb' 6 2

/-- `PAGE = cdb[2] AND 0xBF`: bit 7 is kept (30_encoding.md R98, conflict C8). -/
def pageCode (b : Byte) : Byte := b &&& 0xBF

/-- `NTRACKS = floor((COUNT - 4) / 8)` on integers (30_encoding.md R98, 43_command_interpreter.md R193). -/
def trackCount (count : BitVec 16) : Int := Int.fdiv ((count.toNat : Int) - 4) 8

/-- The operation of 0xD8: 0 = pause for 0x00, 1 = play for every other value (43_command_interpreter.md R196). -/
def operationOf (b : Byte) : BitVec 1 := if b = 0x00 then 0 else 1

/-- The LUN set in its display order: the indices 7 to 1 whose line is asserted (30_encoding.md R91). -/
def lunSet (pins : Byte) : List Nat := [7, 6, 5, 4, 3, 2, 1].filter (fun i => !pins.getLsbD i)

/-- The code of a phase (30_encoding.md R82). -/
def phaseCode : Phase → BitVec 2
  | .busFree => 0
  | .arbitration => 1
  | .selection => 2
  | .informationTransfer => 3

/-- The code of a run state (10_state.md R21). -/
def runStateCode : RunState → BitVec 2
  | .idle => 0
  | .running => 1
  | .halted => 2

/-- The code of a class (30_encoding.md R100). -/
def classCode : CmdClass → Nat
  | .status => 0
  | .directory => 1
  | .data => 2
  | .audio => 3
  | .subcode => 4
  | .unknown => 5

/-- The `mnem` id (30_encoding.md R95). -/
def mnemonicId : Mnemonic → BitVec 4
  | .testUnitReady => 0
  | .requestSense => 1
  | .modeSelect => 2
  | .modeSense => 3
  | .preventAllow => 4
  | .readExt => 5
  | .readToc => 6
  | .readHeader => 7
  | .pauseResume => 8
  | .audioTrackSearch => 9
  | .unknown => 15

/-- `need`: the least `cdb_len` at which every byte the decoder reads exists (30_encoding.md R95). -/
def needOf : Mnemonic → Nat
  | .testUnitReady => 1
  | .requestSense => 5
  | .modeSelect => 5
  | .modeSense => 5
  | .preventAllow => 5
  | .readExt => 10
  | .readToc => 9
  | .readHeader => 9
  | .pauseResume => 9
  | .audioTrackSearch => 10
  | .unknown => 1

/-- The category id of a payload (30_encoding.md R89): a command byte has id 8 + class. -/
def Payload.cat : Payload → Nat
  | .phase _ => 0
  | .lun _ => 1
  | .subphase _ _ => 2
  | .cmd _ => 3
  | .toTarget _ => 4
  | .fromTarget _ => 5
  | .byteIndex _ => 6
  | .cmdByte cls _ => 8 + classCode cls

/-- The category id of a record (30_encoding.md R88, R89). -/
def Record.cat (r : Record) : Nat := r.payload.cat

end Sys2Proof.Machine
end

