-- ==== Sys2Proof/Machine/Flags.lean ====
section
/-! DEFINITION. Conditions and single-bit flags: the edge predicates of 00_scope.md R11 and what sets and clears each flag of
10_state.md R41. -/

namespace Sys2Proof.Machine

/-- `fall(X)`, for the levels of a line in the previous and in the current frame; false while no previous frame is held
(00_scope.md R11). -/
def fall (valid before now : Bool) : Bool := valid && before && !now

/-- `rise(X)` (R11). -/
def rise (valid before now : Bool) : Bool := valid && !before && now

/-- `either(X)` (R11). -/
def either (valid before now : Bool) : Bool := valid && (before != now)

/-- `cand`: an edge on CD, IO or MSG (41_subphase_tracker.md R141). -/
def candidate (s : State) (f : Frame) : Bool :=
  either s.prevValid s.prev.cd f.cd || either s.prevValid s.prev.io f.io || either s.prevValid s.prev.msg f.msg

/-- `latch_valid` set: a falling ACK edge latches `f.D` (42_handshake_sampler.md R161). -/
def State.latch (s : State) (d : Byte) : State := { s with dataLatch := captureByte d, latchValid := true }

/-- `latch_valid` cleared with the byte counted: the end of a finalisation (R162). -/
def State.countByte (s : State) : State :=
  { s with byteCount := s.byteCount + 1, byteRunStart := s.samplenum, latchValid := false }

/-- `db_pending` set: the window opens for W samples (41_subphase_tracker.md R142). -/
def State.openWindow (s : State) : State := { s with dbPending := true, dbCnt := s.params.debounceWindow }

/-- `db_pending` cleared: the window expires (R143). -/
def State.closeWindow (s : State) : State := { s with dbPending := false }

/-- The window counts down (R143). -/
def State.countWindow (s : State) : State := { s with dbCnt := s.dbCnt - 1 }

/-- The BSY filter's count without an exit: one more high sample, or back to 0 (41_subphase_tracker.md R148). -/
def State.countBsy (s : State) (high : Bool) : State := { s with bsyHighCnt := if high then s.bsyHighCnt + 1 else 0 }

end Sys2Proof.Machine
end

