-- ==== Sys2Proof/Machine/Ops.lean ====
section
/-! DEFINITION. The named operations the meanings share: sequencing, emission, the descriptor store and its accumulator, the
phase changes, the one exception (ConfigurationError) and the only way out of it (reset), and the STATUS view. -/

namespace Sys2Proof.Machine

/-- What a step, a meaning or an operation answers. -/
abbrev Result := Host.Outcome State Fault Refusal

/-- Run `k` on the next state; a fault or a refusal ends the sequence. -/
def andThen (r : Result) (k : State → Result) : Result :=
  match r with
  | .next s => k s
  | .fault e => .fault e
  | .refused e => .refused e

/-- `emit(cat, ss, n, payload)`: append one record that ends at the current sample `n = samplenum` (00_scope.md R12). -/
def State.emit (s : State) (ss : Nat) (p : Payload) : State := { s with out := s.out ++ [⟨ss, s.samplenum, p⟩] }

/-- The byte at an address; an unlisted one reads as `unlistedByte`. -/
def Memory.read : Memory → Nat → Byte
  | [], _ => unlistedByte
  | (a, b) :: m, i => if i = a then b else Memory.read m i

/-- Store a byte and keep the canonical form: a byte that an unlisted address reads as is not listed. -/
def Memory.write : Memory → Nat → Byte → Memory
  | [], i, v => if v = unlistedByte then [] else [(i, v)]
  | (a, b) :: m, i, v =>
    if i < a then (if v = unlistedByte then (a, b) :: m else (i, v) :: (a, b) :: m)
    else if i = a then (if v = unlistedByte then m else (i, v) :: m)
    else (a, b) :: Memory.write m i v

/-- The read primitive `cdb[i]` (00_scope.md R10). It faults on an index that names no byte of the store and on one at
or above `cdb_len` (U4). -/
def cdbRead (s : State) (i : Nat) : Except Fault Byte :=
  if s.params.cdbMax ≤ i then .error .cdbOutsideStore
  else if s.cdbLen ≤ i then .error .cdbBeyondLength
  else .ok (s.cdb.read i)

/-- `cdb[i .. i+k-1]`, in index order. -/
def cdbSlice (s : State) : Nat → Nat → Except Fault (List Byte)
  | _, 0 => .ok []
  | i, k + 1 =>
    match cdbRead s i with
    | .error e => .error e
    | .ok b =>
      match cdbSlice s (i + 1) k with
      | .error e => .error e
      | .ok bs => .ok (b :: bs)

/-- The first byte of a run clears the descriptor and classifies the opcode (43_command_interpreter.md R181). -/
def State.clearCdb (s : State) (b : Byte) : State :=
  { s with cdbLen := 0, cdbOverflow := false, cmdClass := classOf s.params b }

/-- Append a byte at index `cdb_len` (R182), or drop it and set `cdb_overflow` when the store is full (R183). -/
def State.appendCdb (s : State) (b : Byte) : State :=
  if s.cdbLen < s.params.cdbMax then { s with cdb := s.cdb.write s.cdbLen b, cdbLen := s.cdbLen + 1 }
  else { s with cdbOverflow := true }

/-- `CdbAccept(idx, b)`, the accumulator of the Command Interpreter (R181 to R183). -/
def cdbAccept (s : State) (idx : Nat) (b : Byte) : State :=
  (if idx = 0 then s.clearCdb b else s).appendCdb b

/-- `ByteCategory(s)` with the byte it carries (42_handshake_sampler.md R164): in COMMAND the class of the opcode,
else the direction of the committed code. -/
def bytePayload (s : State) (b : Byte) : Payload :=
  if s.subphase = commandCode then .cmdByte s.cmdClass b
  else
    match directionOf s.subphase with
    | .toTarget => .toTarget b
    | .fromTarget => .fromTarget b

/-- A phase transition: `phase` and `phase_start` are written together (10_state.md R24, R25). -/
def State.enterPhase (s : State) (p : Phase) : State := { s with phase := p, phaseStart := s.samplenum }

/-- The CAT_PHASE record of the phase that ends, over the interval since it began (40_phase_fsm.md R121 to R126). -/
def State.emitPhase (s : State) (p : Phase) : State := s.emit s.phaseStart (.phase p)

/-- The CAT_LUN record, over the interval of the phase record it follows (40_phase_fsm.md R122, R123, D7). -/
def State.emitLun (s : State) (pins : Byte) : State := s.emit s.phaseStart (.lun pins)

/-- The nested machinery at the entry to INFORMATION_TRANSFER (40_phase_fsm.md R124); `db_cnt` is cleared with `db_pending`
as 10_state.md R32 says, though the pseudocode of R124 does not write it (log 16). -/
def State.initTransfer (s : State) (code : Code) : State :=
  { s with
    subphase := code
    runStart := s.samplenum
    byteCount := 0
    byteRunStart := s.samplenum
    latchValid := false
    dbPending := false
    dbCnt := 0
    bsyHighCnt := 0 }

/-- The filters are cleared at the exit from INFORMATION_TRANSFER (40_phase_fsm.md R126); `db_cnt` with `db_pending`, as
10_state.md R32 says, though the pseudocode of R126 does not write it (log 16). -/
def State.clearFilters (s : State) : State := { s with dbPending := false, dbCnt := 0, bsyHighCnt := 0 }

/-- A new, empty run begins at the boundary sample (41_subphase_tracker.md R145). -/
def State.startRun (s : State) (code : Code) : State :=
  { s with subphase := code, byteCount := 0, runStart := s.samplenum }

/-- The conditions of the error taxonomy (60_exceptions.md R220). -/
inductive Condition where
  | configurationError | malformedSequence | glitch | unknownOpcode
  deriving DecidableEq, Repr

/-- The cause code of a condition; only ConfigurationError is ever raised (R220, R224 to R226). -/
def causeOf : Condition → Option Nat
  | .configurationError => some 1
  | .malformedSequence => none
  | .glitch => none
  | .unknownOpcode => none

/-- TAKING THE EXCEPTION ConfigurationError (60_exceptions.md R222): `err_cfg` set, HALTED, `cfg_error` pulsed in this
step; nothing is saved, there is no handler, and no record is emitted. `samplenum` advances at the end of the step. -/
def raiseConfigurationError (s : State) : State :=
  { s with errCfg := true, runState := .halted, cfgError := true }

/-- Reset, the only way out of HALTED (60_exceptions.md R223, 70_reset_and_hazards.md R240): every field takes its reset
value; CFG belongs to the host and is kept, and so are the parameters and the stimuli that still wait. -/
def resetBlock (s : State) : State :=
  { State.reset with cfg := s.cfg, params := s.params, input := s.input }

/-- The host writes CFG (10_state.md R37). -/
def State.writeCfg (s : State) (c : Cfg) : State := { s with cfg := c }

/-- The STATUS register (10_state.md R38): SUBPHASE, PHASE, RUN_STATE, ERR_CFG in bits 7:5, 4:3, 2:1, 0. Reading it is
this function and has no side effect. Outside INFORMATION_TRANSFER the SUBPHASE field has no meaning (log 15). -/
def statusRegister (s : State) : BitVec 8 :=
  s.subphase ++ phaseCode s.phase ++ runStateCode s.runState ++ BitVec.ofBool s.errCfg

/-- The output ports at the start of a step: no record, `cfg_error` 0 (00_scope.md R12, 60_exceptions.md R222). -/
def State.clearPorts (s : State) : State := { s with out := [], cfgError := false }

/-- The end of a step that took a frame in RUNNING: `prev`, `prev_valid`, `samplenum` (40_phase_fsm.md R120, R22, R23). -/
def State.endFrame (s : State) (f : Frame) : State :=
  { s with prev := controlsOf f, prevValid := true, samplenum := s.samplenum + 1 }

/-- The end of a step that took a frame and did not decode it: only `samplenum` advances (10_state.md R22). -/
def State.skipFrame (s : State) : State := { s with samplenum := s.samplenum + 1 }

end Sys2Proof.Machine
end

