-- ==== Sys2Proof/Machine/Handshake.lean ====
section
/-! DEFINITION. The EVENT rows of the Handshake Sampler (42_handshake_sampler.md). -/

namespace Sys2Proof.Machine

/-- EV_ACK_FALL (R161): latch the data lines; no record. -/
def execEvAckFall (d : Byte) (s : State) : Result :=
  .next (s.latch d)

/-- The finalisation of the latched byte (R162): in a COMMAND run it is stored first, so that the byte with index 0 is
emitted under its own class (R164); then the byte record and the byte-index record (R165). -/
def finaliseByte (s : State) : State :=
  let b := s.dataLatch
  let idx := s.byteCount
  let s := if s.subphase = commandCode then cdbAccept s idx b else s
  ((s.emit s.byteRunStart (bytePayload s b)).emit s.byteRunStart (.byteIndex idx)).countByte

/-- EV_ACK_RISE (R162); with no latched value nothing happens (R163). -/
def execEvAckRise (s : State) : Result :=
  .next (if s.latchValid then finaliseByte s else s)

end Sys2Proof.Machine
end

