-- ==== Sys2Proof/Machine/PhaseEvents.lean ====
section
/-! DEFINITION. The EVENT rows that end BUS_FREE, ARBITRATION and SELECTION (40_phase_fsm.md section 2). Each meaning is the
row's action; whether the row fires is the decoder's (Decode.lean). -/

namespace Sys2Proof.Machine

/-- EV_BUS_FREE_END (R121). -/
def execEvBusFreeEnd (s : State) : Result :=
  .next ((s.emitPhase .busFree).enterPhase .arbitration)

/-- EV_ARBITRATION_END (R122): the sampled data levels of the frame are kept and labelled. -/
def execEvArbitrationEnd (pins : Byte) (s : State) : Result :=
  let s := { s with arbPins := pins }
  .next (((s.emitPhase .arbitration).emitLun s.arbPins).enterPhase .selection)

/-- EV_SELECTION_END (R123, R124): the LUN record repeats `arb_pins`. -/
def execEvSelectionEnd (code : Code) (s : State) : Result :=
  .next ((((s.emitPhase .selection).emitLun s.arbPins).initTransfer code).enterPhase .informationTransfer)

end Sys2Proof.Machine
end

