-- ==== Sys2Proof/Machine/Commands.lean ====
section
/-! DEFINITION. The CDB rows: one decoder per opcode (43_command_interpreter.md R186 to R198). A decoder reads the stored
descriptor and emits the run's CAT_CMD record; it writes no field of the block's record `s` (R198). -/

namespace Sys2Proof.Machine

/-- The fields every CmdInfo has, with the first `k` stored bytes as `raw` (R185, 30_encoding.md R99). -/
def commandBase (s : State) (m : Mnemonic) (k : Nat) : Except Fault CmdInfo :=
  match cdbSlice s 0 k with
  | .error e => .error e
  | .ok raw =>
    .ok { mnem := m, short := false, overflow := s.cdbOverflow, variant := 0, nbytes := s.byteCount, len := k, raw := raw }

/-- The CAT_CMD record of the run, over `[run_start, n]` (R184). -/
def emitCommand (s : State) (r : Except Fault CmdInfo) : Result :=
  match r with
  | .error e => .fault e
  | .ok info => .next (s.emit s.runStart (.cmd info))

/-- A known opcode: a descriptor shorter than `need` is reported as short, without a parameter field (R186); else the
opcode's own fields are added to the common ones. -/
def decodeKnown (s : State) (m : Mnemonic) (fields : CmdInfo → Except Fault CmdInfo) : Result :=
  emitCommand s (do
    let base ← commandBase s m s.cdbLen
    if s.cdbLen < needOf m then .ok { base with short := true } else fields base)

/-- The fields of the addressing variants 1 and 2 of 0x28 and 0xD8, from bytes 2, 3, 4 (R192, R196). -/
def addressFields (info : CmdInfo) (mode : BitVec 3) (b2 b3 b4 : Byte) : CmdInfo :=
  if mode = 1 then { info with variant := mode, t0 := some b2, t1 := some b3, t2 := some b4 }
  else if mode = 2 then { info with variant := mode, track := some b2 }
  else { info with variant := mode }

/-- 0x00 TEST UNIT READY (R187): no parameter field. -/
def execTestUnitReady (s : State) : Result :=
  decodeKnown s .testUnitReady fun base => .ok base

/-- 0x03 REQUEST SENSE (R188): the variant is 0 (18-byte) iff byte 4 is 0x12. -/
def execRequestSense (s : State) : Result :=
  decodeKnown s .requestSense fun base => do
    let b4 ← cdbRead s 4
    .ok { base with variant := if b4 = 0x12 then 0 else 1 }

/-- 0x15 MODE SELECT (R189). -/
def execModeSelect (s : State) : Result :=
  decodeKnown s .modeSelect fun base => do
    let b1 ← cdbRead s 1
    let b4 ← cdbRead s 4
    .ok { base with variant := zeroSelector b1, listlen := some b4 }

/-- 0x1A MODE SENSE (R190): vendor-specific iff bytes 1 and 2 are both 0x00. -/
def execModeSense (s : State) : Result :=
  decodeKnown s .modeSense fun base => do
    let b1 ← cdbRead s 1
    let b2 ← cdbRead s 2
    let b4 ← cdbRead s 4
    if b1 = 0x00 ∧ b2 = 0x00 then .ok { base with variant := 0, listlen := some b4 }
    else .ok { base with variant := 1, pc := some (pageControl b2), page := some (pageCode b2), listlen := some b4 }

/-- 0x1E PREVENT/ALLOW MEDIUM REMOVAL (R191). -/
def execPreventAllow (s : State) : Result :=
  decodeKnown s .preventAllow fun base => do
    let b4 ← cdbRead s 4
    .ok { base with variant := zeroSelector b4 }

/-- 0x28 READ (extended) (R192): `lba` and `count` in all four variants. -/
def execReadExt (s : State) : Result :=
  decodeKnown s .readExt fun base => do
    let b2 ← cdbRead s 2
    let b3 ← cdbRead s 3
    let b4 ← cdbRead s 4
    let b5 ← cdbRead s 5
    let b7 ← cdbRead s 7
    let b8 ← cdbRead s 8
    let b9 ← cdbRead s 9
    .ok (addressFields { base with lba := some (be32 b2 b3 b4 b5), count := some (be16 b7 b8) } (addressingMode b9) b2 b3 b4)

/-- 0x43 READ TOC (R193). -/
def execReadToc (s : State) : Result :=
  decodeKnown s .readToc fun base => do
    let b1 ← cdbRead s 1
    let b6 ← cdbRead s 6
    let b7 ← cdbRead s 7
    let b8 ← cdbRead s 8
    .ok { base with
      variant := zeroSelector b1, start := some b6, count := some (be16 b7 b8), ntracks := some (trackCount (be16 b7 b8)) }

/-- 0x44 READ HEADER (R194). -/
def execReadHeader (s : State) : Result :=
  decodeKnown s .readHeader fun base => do
    let b1 ← cdbRead s 1
    let b2 ← cdbRead s 2
    let b3 ← cdbRead s 3
    let b4 ← cdbRead s 4
    let b5 ← cdbRead s 5
    let b7 ← cdbRead s 7
    let b8 ← cdbRead s 8
    .ok { base with variant := zeroSelector b1, lba := some (be32 b2 b3 b4 b5), count := some (be16 b7 b8) }

/-- 0x4B PAUSE/RESUME (R195). -/
def execPauseResume (s : State) : Result :=
  decodeKnown s .pauseResume fun base => do
    let b8 ← cdbRead s 8
    .ok { base with variant := zeroSelector b8 }

/-- 0xD8 AUDIO TRACK SEARCH (R196): no block count. -/
def execAudioTrackSearch (s : State) : Result :=
  decodeKnown s .audioTrackSearch fun base => do
    let b1 ← cdbRead s 1
    let b2 ← cdbRead s 2
    let b3 ← cdbRead s 3
    let b4 ← cdbRead s 4
    let b5 ← cdbRead s 5
    let b9 ← cdbRead s 9
    .ok (addressFields { base with op := some (operationOf b1), lba := some (be32 b2 b3 b4 b5) } (addressingMode b9) b2 b3 b4)

/-- Any other opcode (R197): the first six stored bytes, or as many as there are; never short. The opcode is the
descriptor's own first byte and is not looked at again. -/
def execUnknown (_opcode : Byte) (s : State) : Result :=
  emitCommand s (commandBase s .unknown (min 6 s.cdbLen))

end Sys2Proof.Machine
end

