-- ==== Sys2Proof/Machine/SubPhases.lean ====
section
/-! DEFINITION. The SUBPHASE_CODE rows (41_subphase_tracker.md R151): the run that ends is classified by its code, and its
CAT_SUBPHASE record carries the code and the byte count over `[run_start, n]` (R146). The classifier changes no field of the
block's record `s`; that a run without bytes emits nothing is `flushRun`'s test (R147). -/

namespace Sys2Proof.Machine

/-- The CAT_SUBPHASE record of a run with a given code (R146, 30_encoding.md R89). -/
def State.emitRun (s : State) (code : Code) : State := s.emit s.runStart (.subphase code s.byteCount)

/-- SP_0, MESSAGE_IN, from target. -/
def execSp0 (s : State) : Result := .next (s.emitRun 0)
/-- SP_1, MESSAGE_OUT, to target. -/
def execSp1 (s : State) : Result := .next (s.emitRun 1)
/-- SP_2, UNUSED(2), from target; reserved but legal (30_encoding.md R86). -/
def execSp2 (s : State) : Result := .next (s.emitRun 2)
/-- SP_3, UNUSED(3), to target; reserved but legal (R86). -/
def execSp3 (s : State) : Result := .next (s.emitRun 3)
/-- SP_4, STATUS, from target. -/
def execSp4 (s : State) : Result := .next (s.emitRun 4)
/-- SP_5, COMMAND, to target. -/
def execSp5 (s : State) : Result := .next (s.emitRun 5)
/-- SP_6, DATA_IN, from target. -/
def execSp6 (s : State) : Result := .next (s.emitRun 6)
/-- SP_7, DATA_OUT, to target. -/
def execSp7 (s : State) : Result := .next (s.emitRun 7)

end Sys2Proof.Machine
end

