-- ==== Sys2Proof/Machine/Flush.lean ====
section
/-! DEFINITION. FlushRun, the confirmed boundary and the CD/IO/MSG debouncer (41_subphase_tracker.md R141 to R147, R150). The
flush runs the SUBPHASE_CODE row of the run's code and the CDB row of its opcode: the meanings that `exec` calls. -/

namespace Sys2Proof.Machine

/-- The meaning of the SUBPHASE_CODE row a code decodes to (R151). -/
def execSubphaseRow (code : Code) (s : State) : Result :=
  match decodeSubphase code with
  | .sp0 => execSp0 s
  | .sp1 => execSp1 s
  | .sp2 => execSp2 s
  | .sp3 => execSp3 s
  | .sp4 => execSp4 s
  | .sp5 => execSp5 s
  | .sp6 => execSp6 s
  | _ => execSp7 s

/-- The meaning of the CDB row an opcode decodes to (43_command_interpreter.md R185). -/
def execCommandRow (op : Byte) (s : State) : Result :=
  match decodeOpcode op with
  | .testUnitReady => execTestUnitReady s
  | .requestSense => execRequestSense s
  | .modeSelect => execModeSelect s
  | .modeSense => execModeSense s
  | .preventAllow => execPreventAllow s
  | .readExt => execReadExt s
  | .readToc => execReadToc s
  | .readHeader => execReadHeader s
  | .pauseResume => execPauseResume s
  | .audioTrackSearch => execAudioTrackSearch s
  | _ => execUnknown op s

/-- `Decode(s)`: fetch the opcode `cdb[0]` and run its row (R184, R185). -/
def decodeDescriptor (s : State) : Result :=
  match cdbRead s 0 with
  | .error e => .fault e
  | .ok op => execCommandRow op s

/-- `FlushRun(n)`: nothing for a run without bytes (R147); else the SUBPHASE record and, in COMMAND, the CMD record (R146). -/
def flushRun (s : State) : Result :=
  if 1 ≤ s.byteCount then
    andThen (execSubphaseRow s.subphase s) fun t =>
      if s.subphase = commandCode then decodeDescriptor t else .next t
  else .next s

/-- `Boundary(n, new)`: flush the old run, commit the new code, start an empty run (R145). -/
def boundary (new : Code) (s : State) : Result :=
  andThen (flushRun s) fun t => .next (t.startRun new)

/-- `Debounce(s, f, n)`: countdown and expiry of an open window, or a candidate edge opens one (R141 to R144). -/
def debounce (f : Frame) (s : State) : Result :=
  if s.dbPending then
    if s.dbCnt - 1 = 0 then
      if f.code = s.subphase then .next s.closeWindow else boundary f.code s.closeWindow
    else .next s.countWindow
  else if candidate s f then .next s.openWindow
  else .next s

end Sys2Proof.Machine
end

