-- ==== Sys2Proof/Machine/TransferExit.lean ====
section
/-! DEFINITION. The EVENT row that ends INFORMATION_TRANSFER (40_phase_fsm.md R126). -/

namespace Sys2Proof.Machine

/-- EV_INFORMATION_TRANSFER_END (R126): flush the final run under the committed code, emit the phase record, return to
BUS_FREE; an open window is discarded and a latched byte stays unfinalised. -/
def execEvInformationTransferEnd (s : State) : Result :=
  andThen (flushRun s) fun t =>
    .next ((t.emitPhase .informationTransfer).enterPhase .busFree).clearFilters

end Sys2Proof.Machine
end

