-- ==== Sys2Proof/Machine/Dispatch.lean ====
section
/-! DEFINITION. One arm per constructor of Instr, each one direct call of its meaning. -/

namespace Sys2Proof.Machine

def exec (i : Instr) (s : State) : Host.Outcome State Fault Refusal :=
  match i with
  | .evBusFreeEnd => Sys2Proof.Machine.execEvBusFreeEnd s
  | .evArbitrationEnd pins => Sys2Proof.Machine.execEvArbitrationEnd pins s
  | .evSelectionEnd code => Sys2Proof.Machine.execEvSelectionEnd code s
  | .evInformationTransferEnd => Sys2Proof.Machine.execEvInformationTransferEnd s
  | .evAckFall d => Sys2Proof.Machine.execEvAckFall d s
  | .evAckRise => Sys2Proof.Machine.execEvAckRise s
  | .sp0 => Sys2Proof.Machine.execSp0 s
  | .sp1 => Sys2Proof.Machine.execSp1 s
  | .sp2 => Sys2Proof.Machine.execSp2 s
  | .sp3 => Sys2Proof.Machine.execSp3 s
  | .sp4 => Sys2Proof.Machine.execSp4 s
  | .sp5 => Sys2Proof.Machine.execSp5 s
  | .sp6 => Sys2Proof.Machine.execSp6 s
  | .sp7 => Sys2Proof.Machine.execSp7 s
  | .testUnitReady => Sys2Proof.Machine.execTestUnitReady s
  | .requestSense => Sys2Proof.Machine.execRequestSense s
  | .modeSelect => Sys2Proof.Machine.execModeSelect s
  | .modeSense => Sys2Proof.Machine.execModeSense s
  | .preventAllow => Sys2Proof.Machine.execPreventAllow s
  | .readExt => Sys2Proof.Machine.execReadExt s
  | .readToc => Sys2Proof.Machine.execReadToc s
  | .readHeader => Sys2Proof.Machine.execReadHeader s
  | .pauseResume => Sys2Proof.Machine.execPauseResume s
  | .audioTrackSearch => Sys2Proof.Machine.execAudioTrackSearch s
  | .unknown opcode => Sys2Proof.Machine.execUnknown opcode s

end Sys2Proof.Machine
end

