-- ==== Sys2Proof/Machine/FrameStep.lean ====
section
/-! DEFINITION. What one step does: the event word is fetched and decoded, the rows that fire are executed in their order of
service, and the parts of a step that have no row run between them (40_phase_fsm.md R120, R125; 60_exceptions.md R221, R229).
Then the placing of a table word, for `withFetchWord`. -/

namespace Sys2Proof.Machine

/-- Execute a row that fired, if one did. -/
def runEvent (e : Option Instr) (s : State) : Result :=
  match e with
  | none => .next s
  | some i => exec i s

/-- Sub-step 1 of INFORMATION_TRANSFER: the ACK edge (40_phase_fsm.md R125, 42_handshake_sampler.md R160). -/
def handshake (f : Frame) (s : State) : Result :=
  runEvent (decodeAckEvent s.latchValid (eventWord s.prev f)) s

/-- Sub-step 3 of INFORMATION_TRANSFER: the exit row if it fires, else the BSY filter counts (41_subphase_tracker.md R148). -/
def bsyFilter (f : Frame) (s : State) : Result :=
  match decodeExitEvent s.bsyHighCnt (eventWord s.prev f) with
  | some i => exec i s
  | none => .next (s.countBsy f.bsy)

/-- The three sub-steps in their fixed order, each seeing the writes of the one before (R125, R229). -/
def transferStep (f : Frame) (s : State) : Result :=
  andThen (handshake f s) fun t => andThen (debounce f t) fun u => bsyFilter f u

/-- Dispatch on the phase at the start of the step: at most one phase transition (R120). -/
def phaseStep (f : Frame) (s : State) : Result :=
  match s.phase with
  | .informationTransfer => transferStep f s
  | p => runEvent (decodePhaseEvent p (eventWord s.prev f)) s

/-- A step in RUNNING (R120): nothing is evaluated while no previous frame is held, then the bookkeeping. -/
def runningStep (f : Frame) (s : State) : Result :=
  andThen (if s.prevValid then phaseStep f s else .next s) fun t => .next (t.endFrame f)

/-- A frame is taken (60_exceptions.md R221 to R223): the configuration test in IDLE, decoding in RUNNING, nothing but the
sample count in HALTED. -/
def frameStep (f : Frame) (s : State) : Result :=
  match s.runState with
  | .idle =>
    if s.cfg.srValid then runningStep f { s with runState := .running }
    else .next (raiseConfigurationError s).skipFrame
  | .running => runningStep f s
  | .halted => .next s.skipFrame

/-- One stimulus is taken; the output ports are those of this step (log 1, log 2, log 14). -/
def takeStimulus (s : State) : Result :=
  match s.input with
  | [] => .next s.clearPorts
  | .rst :: rest => .next (resetBlock { s with input := rest })
  | .writeCfg c :: rest => .next ({ s with input := rest }.clearPorts.writeCfg c)
  | .frame f :: rest => frameStep f { s with input := rest }.clearPorts

/-- The state in which a frame that follows a frame with given levels is the next stimulus, in a given phase of RUNNING. -/
def placeFrame (s : State) (p : Phase) (before : Controls) (f : Frame) : State :=
  { s with
    runState := .running, errCfg := false, prev := before, prevValid := true, phase := p, input := .frame f :: s.input }

/-- An event word: both frames are placed, in the phase and with the state condition of the row (opcode_table.json). -/
def placeEvent (s : State) (c : Context) (w : EventWord) : State :=
  let t := placeFrame s c.phase (controlsOf w.previous) w.current
  { t with latchValid := t.latchValid || c.latchValid, bsyHighCnt := if c.bsyHighCnt = 0 then t.bsyHighCnt else c.bsyHighCnt }

/-- The levels of a code on the bus, with BSY low and every other line high. -/
def codeLevels (c : Code) : Controls :=
  { sel := true, bsy := false, cd := c.getLsbD 1, io := c.getLsbD 0, msg := c.getLsbD 2, ack := true }

/-- A run of `n` bytes with a given code ends in the next step: the window opened by a change of IO expires in it. -/
def placeRunEnd (s : State) (c : Code) (n : Nat) : State :=
  let levels := codeLevels (c ^^^ 1)
  { placeFrame s .informationTransfer levels levels.toFrame with
    subphase := c, byteCount := n, dbPending := true, dbCnt := 1 }

/-- The bytes of a descriptor from index `i` on, stored. -/
def storeBytes (m : Memory) (i : Nat) : List Byte → Memory
  | [] => m
  | b :: bs => storeBytes (m.write i b) (i + 1) bs

/-- A descriptor whose COMMAND run ends in the next step. -/
def placeCommand (s : State) (bytes : List Byte) : State :=
  { placeRunEnd s commandCode bytes.length with cdb := storeBytes s.cdb 0 bytes, cdbLen := bytes.length, cdbOverflow := false }

/-- A table word placed where the very next step runs it (log 8). A COMMAND run has a descriptor (10_state.md R43(e)), so
SP_5 is placed with the one byte 0x00. -/
def placeWord (s : State) (nbits w : Nat) : State :=
  match tableFormat nbits w with
  | .event =>
    match decodeTableWord nbits w with
    | some i => placeEvent s (contextOf i) (BitVec.ofNat 30 w)
    | none => placeEvent s ⟨s.phase, false, 0⟩ (BitVec.ofNat 30 w)
  | .subphaseCode =>
    if BitVec.ofNat 3 w = commandCode then placeCommand s [0x00] else placeRunEnd s (BitVec.ofNat 3 w) 1
  | .cdb => placeCommand s (tableBytes .cdb w)

end Sys2Proof.Machine
end

