-- ==== Sys2Proof/Machine/Step.lean ====
section
/-! DEFINITION. The step of the block, and the placing of a table word where the next step runs it. -/

namespace Sys2Proof.Machine

/-- One step takes the next stimulus (00_scope.md R7); with none waiting, the block holds its state (60_exceptions.md R233). -/
def step (s : State) : Host.Outcome State Fault Refusal := takeStimulus s

/-- `s` with a word of opcode_table.json placed so that the next step fetches and runs it (log 8). -/
def State.withFetchWord (s : State) (nbits w : Nat) : State := placeWord s nbits w

end Sys2Proof.Machine
end

