-- ==== Sys2Proof/Machine/Labels.lean ====
section
/-! DEFINITION. The canonical `long` label of a record (30_encoding.md R91, R102, R103; the TEXT of 43_command_interpreter.md
R186 to R197). The block emits payloads, not strings (R90); the label is a pure function of the record. -/

namespace Sys2Proof.Machine

/-- One upper-case hexadecimal digit. -/
def hexDigit (n : Nat) : Char := "0123456789ABCDEF".toList.getD n '0'

/-- The lowest `k` hexadecimal digits of a number, the most significant first. -/
def hexDigits : Nat → Nat → List Char
  | 0, _ => []
  | k + 1, n => hexDigits k (n / 16) ++ [hexDigit (n % 16)]

/-- `HEX2(b)` (R103). -/
def hex2 (b : Byte) : String := String.ofList (hexDigits 2 b.toNat)

/-- `HEX4(v)` (R103). -/
def hex4 (v : BitVec 16) : String := String.ofList (hexDigits 4 v.toNat)

/-- `HEX8(v)` (R103). -/
def hex8 (v : BitVec 32) : String := String.ofList (hexDigits 8 v.toNat)

/-- `HEXLIST(bytes)` (R103). -/
def hexList (bytes : List Byte) : String := String.intercalate " " (bytes.map hex2)

/-- `dec(v)` for an unsigned value (R103). -/
def dec (n : Nat) : String := toString n

/-- `dec(v)` for a signed value, with a leading minus sign when negative (R103). -/
def decInt (v : Int) : String := if v < 0 then "-" ++ dec v.natAbs else dec v.natAbs

/-- `LUNLIST(pins)` (R91). -/
def lunList (pins : Byte) : String := String.intercalate "," ((lunSet pins).map dec)

/-- The label of a CAT_PHASE record (R102). -/
def phaseLabel : Phase → String
  | .busFree => "Bus Free"
  | .arbitration => "Arbitration"
  | .selection => "Selection"
  | .informationTransfer => "Information Transfer"

/-- The label of a CAT_SUBPHASE record (R102). -/
def subPhaseLabel : SubPhase → String
  | .messageIn => "Message In"
  | .messageOut => "Message Out"
  | .unused2 => "Unused (2)"
  | .unused3 => "Unused (3)"
  | .status => "Status"
  | .command => "Command"
  | .dataIn => "Data In"
  | .dataOut => "Data Out"

/-- The mnemonic of a command, in the document's words (30_encoding.md R95; for 0x28 the words of R192 and R186). -/
def mnemonicLabel : Mnemonic → String
  | .testUnitReady => "TEST UNIT READY"
  | .requestSense => "REQUEST SENSE"
  | .modeSelect => "MODE SELECT"
  | .modeSense => "MODE SENSE"
  | .preventAllow => "PREVENT/ALLOW MEDIUM REMOVAL"
  | .readExt => "READ"
  | .readToc => "READ TOC"
  | .readHeader => "READ HEADER"
  | .pauseResume => "PAUSE/RESUME"
  | .audioTrackSearch => "AUDIO TRACK SEARCH"
  | .unknown => "Unknown command"

/-- The three time fields, `t0:t1:t2`, raw (D24). -/
def timeLabel (info : CmdInfo) : String :=
  hex2 (info.t0.getD 0) ++ ":" ++ hex2 (info.t1.getD 0) ++ ":" ++ hex2 (info.t2.getD 0)

/-- The addressing part of the labels of 0x28 and 0xD8 (R192, R196). -/
def addressLabel (info : CmdInfo) : String :=
  if info.variant = 0 then "(LBA) LBA 0x" ++ hex8 (info.lba.getD 0)
  else if info.variant = 1 then "(MSF) " ++ timeLabel info
  else if info.variant = 2 then "(track) track 0x" ++ hex2 (info.track.getD 0)
  else "(unknown addressing)"

/-- What follows the mnemonic in TEXT (R187 to R197). -/
def detailLabel (info : CmdInfo) : String :=
  let listlen := ", list length " ++ dec (info.listlen.getD 0).toNat
  let count := dec (info.count.getD 0).toNat
  let format := if info.variant = 0 then " (LBA)" else " (MSF)"
  match info.mnem with
  | .testUnitReady => ""
  | .requestSense => if info.variant = 0 then " (18-byte)" else " (4-byte)"
  | .modeSelect => (if info.variant = 0 then " (vendor-specific)" else " (SCSI-2-compliant)") ++ listlen
  | .modeSense =>
    if info.variant = 0 then " (vendor-specific)" ++ listlen
    else ", page control " ++ dec (info.pc.getD 0).toNat ++ ", page code 0x" ++ hex2 (info.page.getD 0) ++ listlen
  | .preventAllow => if info.variant = 0 then " (allow)" else " (prevent)"
  | .readExt => " " ++ addressLabel info ++ ", blocks " ++ count
  | .readToc =>
    format ++ ", start track " ++ dec (info.start.getD 0).toNat ++ ", numbytes " ++ count ++ ", tracks "
      ++ decInt (info.ntracks.getD 0)
  | .readHeader => format ++ ", LBA 0x" ++ hex8 (info.lba.getD 0) ++ ", numbytes " ++ count
  | .pauseResume => if info.variant = 0 then " (pause)" else " (resume)"
  | .audioTrackSearch => (if info.op = some 0 then " (pause) " else " (play) ") ++ addressLabel info
  | .unknown => ""

/-- `TEXT(info)`: a short descriptor is the mnemonic followed by " (short)" (R186). -/
def commandText (info : CmdInfo) : String :=
  mnemonicLabel info.mnem ++ (if info.short then " (short)" else detailLabel info)

/-- The canonical `long` label of a record (R102). -/
def longLabel (r : Record) : String :=
  match r.payload with
  | .phase p => phaseLabel p
  | .lun pins => "LUN: " ++ lunList pins
  | .subphase code _ => subPhaseLabel (subPhaseName code)
  | .cmd info => commandText info ++ " [" ++ hexList info.raw ++ "]"
  | .toTarget b => hex2 b
  | .fromTarget b => hex2 b
  | .byteIndex index => dec index
  | .cmdByte _ b => hex2 b

end Sys2Proof.Machine
end

