-- ==== Sys2Proof/Safety.lean ====
section
/-! DEFINITION. What counts as a safe state, record and run: the invariants of 10_state.md R43 (with R21, and what makes them
hold from one step to the next), the bounds outside of which the spec says nothing, and the shape of a record. -/

namespace Sys2Proof.Machine

/-- The store lists only bytes the block has: addresses below CDB_MAX, in canonical form (20_memory.md R60). -/
abbrev State.storeOk (s : State) : Prop := s.cdb.wf = true ∧ ∀ c ∈ s.cdb, c.1 < s.params.cdbMax

/-- R43(a): outside a window the committed code is that of the previous frame. -/
abbrev State.codeOk (s : State) : Prop :=
  s.phase = .informationTransfer → s.dbPending = false → s.subphase = s.prev.code

/-- R43(b), with R32: a window is open only in INFORMATION_TRANSFER, and has 1 to W samples left. -/
abbrev State.windowOk (s : State) : Prop :=
  s.dbPending = true → s.phase = .informationTransfer ∧ 1 ≤ s.dbCnt ∧ s.dbCnt ≤ s.params.debounceWindow

/-- R43(c): the BSY count is 0 or 1. -/
abbrev State.bsyOk (s : State) : Prop := s.bsyHighCnt = 0 ∨ s.bsyHighCnt = 1

/-- R43(d): every start sample lies between the start of the phase and the current sample. -/
abbrev State.startsOk (s : State) : Prop :=
  s.phaseStart ≤ s.samplenum ∧
  (s.phase = .informationTransfer →
    s.phaseStart ≤ s.runStart ∧ s.runStart ≤ s.samplenum ∧ s.phaseStart ≤ s.byteRunStart ∧ s.byteRunStart ≤ s.samplenum)

/-- R43(e): in a COMMAND run with bytes, the descriptor holds the first CDB_MAX of them, and the flag tells of the rest. -/
abbrev State.descriptorOk (s : State) : Prop :=
  s.cdbLen ≤ s.params.cdbMax ∧
  (s.phase = .informationTransfer → s.subphase = commandCode → 1 ≤ s.byteCount →
    s.cdbLen = min s.byteCount s.params.cdbMax ∧ (s.cdbOverflow = true ↔ s.params.cdbMax < s.byteCount))

/-- R43(f) while phase = INFORMATION_TRANSFER, outside of which R42 says that `latch_valid` means nothing (log 12): an unfinalised
byte means that ACK was low. -/
abbrev State.latchOk (s : State) : Prop :=
  s.phase = .informationTransfer → s.latchValid = true → s.prev.ack = false

/-- R21, with R23: `err_cfg` is 1 exactly in HALTED; a previous frame is held exactly in RUNNING, since the frame that enters
RUNNING is itself kept (70_reset_and_hazards.md R243); a phase other than BUS_FREE has been entered on an edge. -/
abbrev State.modeOk (s : State) : Prop :=
  (s.errCfg = true ↔ s.runState = .halted) ∧ (s.runState ≠ .running → s.prevValid = false) ∧
  (s.runState = .running → s.prevValid = true) ∧ (s.prevValid = false → s.phase = .busFree)

/-- The invariant of the block: 10_state.md R43, R21, and the parameters' own conditions (00_scope.md R8). -/
structure State.Inv (s : State) : Prop where
  paramsOk : s.params.wf
  modeOk : s.modeOk
  storeOk : s.storeOk
  codeOk : s.codeOk
  windowOk : s.windowOk
  bsyOk : s.bsyOk
  startsOk : s.startsOk
  descriptorOk : s.descriptorOk
  latchOk : s.latchOk

/-- The states the spec speaks of: the sample number, the sample fields and the byte count fit the widths of the hardware
(70_reset_and_hazards.md R250, U3: `n < 2^64`, `byte_count < 2^32`; log 7). Inside these bounds the natural numbers of the
model are the hardware's counters; outside them the spec says nothing, and a claim has them as a premise. -/
abbrev State.withinSpec (s : State) : Prop :=
  s.samplenum < 2 ^ Config.sampleW ∧ s.byteCount < 2 ^ Config.idxW ∧
  s.phaseStart < 2 ^ Config.sampleW ∧ s.runStart < 2 ^ Config.sampleW ∧ s.byteRunStart < 2 ^ Config.sampleW

/-- The bounds for EV_ACK_RISE: the byte it counts is not the 2^32nd of its run. -/
abbrev State.byteWithinSpec (s : State) : Prop := s.withinSpec ∧ s.byteCount + 1 < 2 ^ Config.idxW

/-- The next stimulus is a frame, which advances `samplenum` (10_state.md R22). -/
def State.takesFrame (s : State) : Bool :=
  match s.input with
  | [] => false
  | .rst :: _ => false
  | .writeCfg _ :: _ => false
  | .frame _ :: _ => true

/-- The next stimulus is a frame that finalises a byte, which advances `byte_count` (42_handshake_sampler.md R162). -/
def State.finalisesByte (s : State) : Bool :=
  match s.input with
  | [] => false
  | .rst :: _ => false
  | .writeCfg _ :: _ => false
  | .frame f :: _ =>
    s.runState != .halted && s.phase == .informationTransfer && rise s.prevValid s.prev.ack f.ack && s.latchValid

/-- The bounds for a step: within them before it, and no counter that the step advances reaches its width. A state with
`byte_count` = 2^32 - 1 is inside for every step that finalises no byte. -/
abbrev State.stepWithinSpec (s : State) : Prop :=
  s.withinSpec ∧ (s.takesFrame = true → s.samplenum + 1 < 2 ^ Config.sampleW) ∧
  (s.finalisesByte = true → s.byteCount + 1 < 2 ^ Config.idxW)

/-- The bounds for `k` steps: every step of the run is within them. -/
def State.runWithinSpec : Nat → State → Bool
  | 0, s => decide s.withinSpec
  | k + 1, s =>
    decide s.stepWithinSpec &&
      match step s with
      | .next t => State.runWithinSpec k t
      | .fault _ => true
      | .refused _ => true

/-- A record that a step at sample `n` may emit: it ends at `n` and does not begin later (30_encoding.md R88, property Q1). -/
abbrev Record.endsAt (r : Record) (n : Nat) : Prop := r.es = n ∧ r.ss ≤ r.es

/-- The phase that follows a phase in the strict cycle (40_phase_fsm.md R127). -/
def nextPhase : Phase → Phase
  | .busFree => .arbitration
  | .arbitration => .selection
  | .selection => .informationTransfer
  | .informationTransfer => .busFree

/-- A safe run: `k` steps from `s` neither fault nor are refused, whatever stimuli wait. -/
def safeFor : Nat → State → Prop
  | 0, _ => True
  | k + 1, s =>
    match step s with
    | .next t => safeFor k t
    | .fault _ => False
    | .refused _ => False

end Sys2Proof.Machine
end

