-- ==== Sys2Proof/Certificates/Slice0/Obligations.lean ====
section
/-! DEFINITION. The statements for the provers. `n` in a docstring is the current sample, `samplenum`. A statement whose rule
carries a decision mark of the spec (92_eei_decisions.md) has basis 'derived'. The counters are natural numbers, and every
statement about a state or a run has the bounds of 70_reset_and_hazards.md R250 and U3 as its first premise:
`State.withinSpec` for an instruction, `State.byteWithinSpec` for the one that counts a byte, `State.stepWithinSpec` for a
step, `State.runWithinSpec` for a run (log 7). -/

namespace Sys2Proof.Machine

/-- A record that ends at the current sample. -/
def recordNow (s : State) (ss : Nat) (p : Payload) : Record := ⟨ss, s.samplenum, p⟩

/-- The state after a frame that only the bookkeeping of a RUNNING step looked at (40_phase_fsm.md R120). -/
def afterFrame (s : State) (f : Frame) (rest : List Stimulus) : State :=
  { s with
    input := rest, out := [], cfgError := false, prev := controlsOf f, prevValid := true, samplenum := s.samplenum + 1 }

/-- The state in which a step serves its frame: the stimulus taken, the ports clear. -/
def beginStep (s : State) (rest : List Stimulus) : State := { s with input := rest, out := [], cfgError := false }

/-- The first `k` bytes of the descriptor store. -/
def storedBytes (s : State) (k : Nat) : List Byte := (List.range k).map s.cdb.read

/-- The fields every CmdInfo of a known opcode has (30_encoding.md R99). -/
def commonInfo (s : State) (m : Mnemonic) : CmdInfo :=
  { mnem := m, short := false, overflow := s.cdbOverflow, variant := 0, nbytes := s.byteCount, len := s.cdbLen,
    raw := storedBytes s s.cdbLen }

/-- The instruction completes, emits one CAT_CMD record with this payload over the run, and changes nothing else. -/
def emitsCommand (i : Instr) (s : State) (info : CmdInfo) : Prop :=
  exec i s = .next { s with out := s.out ++ [recordNow s s.runStart (.cmd info)] }

/-- The instruction completes, emits the CAT_SUBPHASE record of a code over the run, and changes nothing else. -/
def emitsRun (i : Instr) (s : State) (code : Code) : Prop :=
  exec i s = .next { s with out := s.out ++ [recordNow s s.runStart (.subphase code s.byteCount)] }

/-- `be32` as arithmetic (00_scope.md R10). -/
def number32 (a b c d : Byte) : BitVec 32 :=
  BitVec.ofNat 32 (((a.toNat * 256 + b.toNat) * 256 + c.toNat) * 256 + d.toNat)

/-- `be16` as arithmetic (00_scope.md R10). -/
def number16 (a b : Byte) : BitVec 16 := BitVec.ofNat 16 (a.toNat * 256 + b.toNat)

/-- A stimulus that is a frame: the only kind that advances `samplenum` (10_state.md R22). -/
def Stimulus.isFrame : Stimulus → Bool
  | .frame _ => true
  | .writeCfg _ => false
  | .rst => false

/-- How many of the next `k` stimuli are frames. -/
def framesAmong (k : Nat) (input : List Stimulus) : Nat := ((input.take k).filter Stimulus.isFrame).length

/-- Where the record that a category emits next will begin: at the start of the open phase, of the open run or of the open
byte (10_state.md R25, R28, R30). Outside INFORMATION_TRANSFER only phase and LUN records can come next. -/
def State.openStart (s : State) (cat : Nat) : Nat :=
  if s.phase = .informationTransfer then
    if cat ≤ 1 then s.phaseStart else if cat ≤ 3 then s.runStart else s.byteRunStart
  else s.phaseStart

/-- Once a frame is held, every open interval began at an earlier sample than the current one. -/
def State.openIntervals (s : State) : Prop :=
  s.phaseStart ≤ s.samplenum ∧ (s.prevValid = true → s.phaseStart < s.samplenum) ∧
  (s.phase = .informationTransfer →
    s.phaseStart ≤ s.runStart ∧ s.runStart < s.samplenum ∧ s.phaseStart ≤ s.byteRunStart ∧ s.byteRunStart < s.samplenum)

/-- A state without what the spec says means nothing in it: outside INFORMATION_TRANSFER the nine sub-phase fields (10_state.md
R42); inside it the latch while `latch_valid` is 0 and the window's count while `db_pending` is 0 (R31, R32). -/
def State.meaning (s : State) : State :=
  if s.phase = .informationTransfer then
    { s with
      dataLatch := if s.latchValid then s.dataLatch else 0
      dbCnt := if s.dbPending then s.dbCnt else 0 }
  else
    { s with
      subphase := 0, runStart := 0, byteCount := 0, byteRunStart := 0, dataLatch := 0, latchValid := false
      dbPending := false, dbCnt := 0, bsyHighCnt := 0 }

/-- What a step answers, without what means nothing in it. -/
def meaningOf (r : Result) : Result := andThen r fun t => .next t.meaning

/-- The counters a record carries: its two sample numbers, and a byte index or a run's byte count. -/
def Record.fitsWidths (r : Record) : Prop :=
  r.ss < 2 ^ Config.sampleW ∧ r.es < 2 ^ Config.sampleW ∧
  match r.payload with
  | .byteIndex k => k < 2 ^ Config.idxW
  | .subphase _ n => n < 2 ^ Config.idxW
  | .cmd info => info.nbytes < 2 ^ Config.idxW
  | _ => True

/-- The record is a CAT_SUBPHASE or a CAT_CMD record. -/
def Record.ofRun (r : Record) : Prop := (∃ c n, r.payload = .subphase c n) ∨ ∃ info, r.payload = .cmd info

/-- `k` steps, stopping at the first fault or refusal. -/
def stepTimes : Nat → State → Result
  | 0, s => .next s
  | k + 1, s => andThen (step s) (stepTimes k)

/-- The records of the next `k` steps, in order. -/
def recordsOf : Nat → State → List Record
  | 0, _ => []
  | k + 1, s =>
    match step s with
    | .next t => t.out ++ recordsOf k t
    | .fault _ => []
    | .refused _ => []

/-- The phase records of a list: phase, `ss`, `es`. -/
def phaseRecords (l : List Record) : List (Phase × Nat × Nat) :=
  l.filterMap fun r =>
    match r.payload with
    | .phase p => some (p, r.ss, r.es)
    | _ => none

/-- Phase records that carry the phases of the strict cycle from `p` on, the first beginning at `a` and each next one at
the end of the one before. -/
def chainedFrom : Phase → Nat → List (Phase × Nat × Nat) → Prop
  | _, _, [] => True
  | p, a, (q, ss, es) :: l => q = p ∧ ss = a ∧ chainedFrom (nextPhase p) es l

end Sys2Proof.Machine

open Sys2Proof Sys2Proof.Machine

/-! ### EVENT rows: the phases -/

/-- 40_phase_fsm.md R121. -/
def Obligations.BusFreeEndsOnSelFall : Prop :=
  (∀ s : State, s.withinSpec → exec .evBusFreeEnd s = .next
    { s with
      out := s.out ++ [recordNow s s.phaseStart (.phase .busFree)], phase := .arbitration, phaseStart := s.samplenum }) ∧
  ∀ (s : State) (f : Frame) (rest : List Stimulus),
    s.stepWithinSpec → s.runState = .running → s.phase = .busFree → s.input = .frame f :: rest →
    step s = .next
      (if s.prevValid = true ∧ s.prev.sel = true ∧ f.sel = false then
        { afterFrame s f rest with
          out := [recordNow s s.phaseStart (.phase .busFree)], phase := .arbitration, phaseStart := s.samplenum }
      else afterFrame s f rest)

/-- 40_phase_fsm.md section 2, EV_ARBITRATION_END; the interval of the LUN record is the spec's decision D7. -/
def Obligations.ArbitrationEndsOnBsyFall : Prop :=
  (∀ (s : State) (pins : Byte), s.withinSpec → exec (.evArbitrationEnd pins) s = .next
    { s with
      out := s.out ++ [recordNow s s.phaseStart (.phase .arbitration), recordNow s s.phaseStart (.lun pins)]
      arbPins := pins, phase := .selection, phaseStart := s.samplenum }) ∧
  ∀ (s : State) (f : Frame) (rest : List Stimulus),
    s.stepWithinSpec → s.runState = .running → s.phase = .arbitration → s.input = .frame f :: rest →
    step s = .next
      (if s.prevValid = true ∧ s.prev.bsy = true ∧ f.bsy = false then
        { afterFrame s f rest with
          out := [recordNow s s.phaseStart (.phase .arbitration), recordNow s s.phaseStart (.lun (f.setWidth 8))]
          arbPins := f.setWidth 8, phase := .selection, phaseStart := s.samplenum }
      else afterFrame s f rest)

/-- 40_phase_fsm.md section 2, EV_SELECTION_END with the entry to INFORMATION_TRANSFER; D7, D9, D12, D13 are the spec's
decisions; `db_cnt` is cleared with `db_pending` by 10_state.md section 1 (D8), and not by the pseudocode (log 16). -/
def Obligations.SelectionEndsOnSelRise : Prop :=
  (∀ (s : State) (code : Code), s.withinSpec → exec (.evSelectionEnd code) s = .next
    { s with
      out := s.out ++ [recordNow s s.phaseStart (.phase .selection), recordNow s s.phaseStart (.lun s.arbPins)]
      phase := .informationTransfer, phaseStart := s.samplenum, subphase := code, runStart := s.samplenum, byteCount := 0
      byteRunStart := s.samplenum, latchValid := false, dbPending := false, dbCnt := 0, bsyHighCnt := 0 }) ∧
  ∀ (s : State) (f : Frame) (rest : List Stimulus),
    s.stepWithinSpec → s.runState = .running → s.phase = .selection → s.input = .frame f :: rest →
    step s = .next
      (if s.prevValid = true ∧ s.prev.sel = false ∧ f.sel = true then
        { afterFrame s f rest with
          out := [recordNow s s.phaseStart (.phase .selection), recordNow s s.phaseStart (.lun s.arbPins)]
          phase := .informationTransfer, phaseStart := s.samplenum
          subphase := BitVec.ofNat 3 (4 * f.msg.toNat + 2 * f.cd.toNat + f.io.toNat)
          runStart := s.samplenum, byteCount := 0, byteRunStart := s.samplenum, latchValid := false, dbPending := false
          dbCnt := 0, bsyHighCnt := 0 }
      else afterFrame s f rest)

/-- 40_phase_fsm.md section 2, EV_INFORMATION_TRANSFER_END: what the exit emits and writes, for an empty run, a run with bytes
outside COMMAND, and a COMMAND run. D9 and D15 are the spec's decisions; `db_cnt` is cleared with `db_pending` by
10_state.md section 1 (D8), and not by the pseudocode (log 16). -/
def Obligations.TransferExitFlushesAndReturnsToBusFree : Prop :=
  ∀ s : State, s.withinSpec →
    (s.byteCount = 0 → exec .evInformationTransferEnd s = .next
      { s with
        out := s.out ++ [recordNow s s.phaseStart (.phase .informationTransfer)]
        phase := .busFree, phaseStart := s.samplenum, dbPending := false, dbCnt := 0, bsyHighCnt := 0 }) ∧
    (1 ≤ s.byteCount → s.subphase ≠ 5 → exec .evInformationTransferEnd s = .next
      { s with
        out := s.out ++ [recordNow s s.runStart (.subphase s.subphase s.byteCount),
          recordNow s s.phaseStart (.phase .informationTransfer)]
        phase := .busFree, phaseStart := s.samplenum, dbPending := false, dbCnt := 0, bsyHighCnt := 0 }) ∧
    (1 ≤ s.byteCount → s.subphase = 5 → 1 ≤ s.cdbLen → s.cdbLen ≤ s.params.cdbMax →
      ∃ info, emitsCommand (decodeOpcode (s.cdb.read 0)) s info ∧ exec .evInformationTransferEnd s = .next
        { s with
          out := s.out ++ [recordNow s s.runStart (.subphase 5 s.byteCount), recordNow s s.runStart (.cmd info),
            recordNow s s.phaseStart (.phase .informationTransfer)]
          phase := .busFree, phaseStart := s.samplenum, dbPending := false, dbCnt := 0, bsyHighCnt := 0 })

/-! ### EVENT rows: the handshake -/

/-- 42_handshake_sampler.md section 2, EV_ACK_FALL; the capture polarity is the spec's decision D6. -/
def Obligations.AckFallLatchesDataLevels : Prop :=
  (∀ (s : State) (d : Byte), s.withinSpec →
    exec (.evAckFall d) s = .next { s with dataLatch := d, latchValid := true }) ∧
  ∀ (s : State) (f : Frame) (rest : List Stimulus),
    s.stepWithinSpec → s.runState = .running → s.prevValid = true → s.phase = .informationTransfer → s.dbPending = false →
    s.input = .frame f :: rest → s.prev.ack = true → f.ack = false → f.bsy = false → f.code = s.prev.code →
    step s = .next
      { afterFrame s f rest with dataLatch := f.setWidth 8, latchValid := true, bsyHighCnt := 0 }

/-- 42_handshake_sampler.md R162 and R165 in a run that is not COMMAND; the direction by bit 0 of the committed code is
30_encoding.md R85. -/
def Obligations.AckRiseFinalisesByte : Prop :=
  ∀ s : State, s.byteWithinSpec → s.latchValid = true → s.subphase ≠ 5 →
    exec .evAckRise s = .next
      { s with
        out := s.out ++ [recordNow s s.byteRunStart
            (if s.subphase.getLsbD 0 then .toTarget s.dataLatch else .fromTarget s.dataLatch),
          recordNow s s.byteRunStart (.byteIndex s.byteCount)]
        byteCount := s.byteCount + 1, byteRunStart := s.samplenum, latchValid := false }

/-- 42_handshake_sampler.md section 2 and 43_command_interpreter.md section 1 in a COMMAND run: the finalisation with the
accumulator. The clearing by the first byte, the overflow and the class that the byte is emitted under are the spec's
decisions D16, D18 and D19. The second part is the consequence that section 1 there draws: the byte with run index
`i < CDB_MAX` is stored at `cdb[i]`. -/
def Obligations.AckRiseInCommandStoresByte : Prop :=
  (∀ s : State, s.byteWithinSpec → s.latchValid = true → s.subphase = 5 →
    ∃ (len : Nat) (ovf : Bool) (cls : CmdClass),
      (s.byteCount = 0 → len = 0 ∧ ovf = false ∧ cls = (s.params.cmdClass.lookup s.dataLatch).getD .unknown) ∧
      (1 ≤ s.byteCount → len = s.cdbLen ∧ ovf = s.cdbOverflow ∧ cls = s.cmdClass) ∧
      exec .evAckRise s = .next
        { s with
          cmdClass := cls
          cdb := if len < s.params.cdbMax then s.cdb.write len s.dataLatch else s.cdb
          cdbLen := if len < s.params.cdbMax then len + 1 else len
          cdbOverflow := if len < s.params.cdbMax then ovf else true
          out := s.out ++ [recordNow s s.byteRunStart (.cmdByte cls s.dataLatch),
            recordNow s s.byteRunStart (.byteIndex s.byteCount)]
          byteCount := s.byteCount + 1, byteRunStart := s.samplenum, latchValid := false }) ∧
  ∀ s t : State, s.byteWithinSpec → s.Inv → s.phase = .informationTransfer → s.latchValid = true → s.subphase = 5 →
    exec .evAckRise s = .next t → s.byteCount < s.params.cdbMax →
    t.cdb.read s.byteCount = s.dataLatch ∧ ∀ i, i ≠ s.byteCount → t.cdb.read i = s.cdb.read i

/-- 42_handshake_sampler.md section 2, a rising edge with no latched value (the spec's decision D13): nothing happens,
and the row does not fire. -/
def Obligations.AckRiseWithoutLatchDoesNothing : Prop :=
  ∀ s : State, s.withinSpec → s.latchValid = false →
    exec .evAckRise s = .next s ∧ ∀ w : EventWord, decodeAckEvent s.latchValid w ≠ some .evAckRise

/-! ### SUBPHASE_CODE rows -/

/-- 41_subphase_tracker.md sections 1 and 2: the eight rows, their names (30_encoding.md section 2) and the record each
emits for the run that ends; the classifier changes no field of the block. That the ROW emits the record, also for a run
without bytes, is the model's division of the work (log 11, DEDUCED): in the spec the classifier is a pure function, and
FlushRun tests for bytes and emits. -/
def Obligations.SubphaseRowsEmitTheRunRecord : Prop :=
  (∀ s : State, s.withinSpec →
    emitsRun .sp0 s 0 ∧ emitsRun .sp1 s 1 ∧ emitsRun .sp2 s 2 ∧ emitsRun .sp3 s 3 ∧
    emitsRun .sp4 s 4 ∧ emitsRun .sp5 s 5 ∧ emitsRun .sp6 s 6 ∧ emitsRun .sp7 s 7) ∧
  (∀ (s : State) (c : Code), s.withinSpec → emitsRun (decodeSubphase c) s c) ∧
  [(0 : Code), 1, 2, 3, 4, 5, 6, 7].map subPhaseName =
    [.messageIn, .messageOut, .unused2, .unused3, .status, .command, .dataIn, .dataOut]

/-! ### CDB rows -/

/-- 43_command_interpreter.md R187. -/
def Obligations.TestUnitReadyDecodes : Prop :=
  ∀ s : State, s.withinSpec → 1 ≤ s.cdbLen → s.cdbLen ≤ s.params.cdbMax →
    emitsCommand .testUnitReady s (commonInfo s .testUnitReady) ∧
    commandText (commonInfo s .testUnitReady) = "TEST UNIT READY"

/-- 43_command_interpreter.md R188. -/
def Obligations.RequestSenseDecodes : Prop :=
  ∀ s : State, s.withinSpec → 5 ≤ s.cdbLen → s.cdbLen ≤ s.params.cdbMax →
    ∃ info, emitsCommand .requestSense s info ∧
      info = { commonInfo s .requestSense with variant := if s.cdb.read 4 = 0x12 then 0 else 1 } ∧
      commandText info = if s.cdb.read 4 = 0x12 then "REQUEST SENSE (18-byte)" else "REQUEST SENSE (4-byte)"

/-- 43_command_interpreter.md R189. -/
def Obligations.ModeSelectDecodes : Prop :=
  ∀ s : State, s.withinSpec → 5 ≤ s.cdbLen → s.cdbLen ≤ s.params.cdbMax →
    ∃ info, emitsCommand .modeSelect s info ∧
      info = { commonInfo s .modeSelect with
        variant := if s.cdb.read 1 = 0x00 then 0 else 1, listlen := some (s.cdb.read 4) } ∧
      commandText info =
        (if s.cdb.read 1 = 0x00 then "MODE SELECT (vendor-specific), list length "
          else "MODE SELECT (SCSI-2-compliant), list length ") ++ dec (s.cdb.read 4).toNat

/-- 43_command_interpreter.md R190. -/
def Obligations.ModeSenseDecodes : Prop :=
  ∀ s : State, s.withinSpec → 5 ≤ s.cdbLen → s.cdbLen ≤ s.params.cdbMax →
    ∃ info, emitsCommand .modeSense s info ∧
      (s.cdb.read 1 = 0x00 ∧ s.cdb.read 2 = 0x00 →
        info = { commonInfo s .modeSense with variant := 0, listlen := some (s.cdb.read 4) } ∧
        commandText info = "MODE SENSE (vendor-specific), list length " ++ dec (s.cdb.read 4).toNat) ∧
      (¬ (s.cdb.read 1 = 0x00 ∧ s.cdb.read 2 = 0x00) →
        info = { commonInfo s .modeSense with
          variant := 1, pc := some (BitVec.ofNat 2 ((s.cdb.read 2).toNat / 64)), page := some (s.cdb.read 2 &&& 0xBF)
          listlen := some (s.cdb.read 4) } ∧
        commandText info = "MODE SENSE, page control " ++ dec ((s.cdb.read 2).toNat / 64) ++ ", page code 0x" ++
          hex2 (s.cdb.read 2 &&& 0xBF) ++ ", list length " ++ dec (s.cdb.read 4).toNat)

/-- 43_command_interpreter.md R191. -/
def Obligations.PreventAllowDecodes : Prop :=
  ∀ s : State, s.withinSpec → 5 ≤ s.cdbLen → s.cdbLen ≤ s.params.cdbMax →
    ∃ info, emitsCommand .preventAllow s info ∧
      info = { commonInfo s .preventAllow with variant := if s.cdb.read 4 = 0x00 then 0 else 1 } ∧
      commandText info =
        if s.cdb.read 4 = 0x00 then "PREVENT/ALLOW MEDIUM REMOVAL (allow)" else "PREVENT/ALLOW MEDIUM REMOVAL (prevent)"

/-- 43_command_interpreter.md R192: all four addressing variants, `lba` and `count` in each. -/
def Obligations.ReadExtDecodes : Prop :=
  ∀ s : State, s.withinSpec → 10 ≤ s.cdbLen → s.cdbLen ≤ s.params.cdbMax →
    let b := fun i => s.cdb.read i
    let lba := number32 (b 2) (b 3) (b 4) (b 5)
    let count := number16 (b 7) (b 8)
    let base := { commonInfo s .readExt with lba := some lba, count := some count }
    let blocks := ", blocks " ++ dec count.toNat
    ∃ info, emitsCommand .readExt s info ∧
      (b 9 = 0x00 → info = { base with variant := 0 } ∧ commandText info = "READ (LBA) LBA 0x" ++ hex8 lba ++ blocks) ∧
      (b 9 = 0x40 → info = { base with variant := 1, t0 := some (b 2), t1 := some (b 3), t2 := some (b 4) } ∧
        commandText info = "READ (MSF) " ++ hex2 (b 2) ++ ":" ++ hex2 (b 3) ++ ":" ++ hex2 (b 4) ++ blocks) ∧
      (b 9 = 0x80 → info = { base with variant := 2, track := some (b 2) } ∧
        commandText info = "READ (track) track 0x" ++ hex2 (b 2) ++ blocks) ∧
      (b 9 ≠ 0x00 → b 9 ≠ 0x40 → b 9 ≠ 0x80 → info = { base with variant := 3 } ∧
        commandText info = "READ (unknown addressing)" ++ blocks)

/-- 43_command_interpreter.md section 3, opcode 0x43; the rounding of the track count is the spec's decision D22. -/
def Obligations.ReadTocDecodes : Prop :=
  ∀ s : State, s.withinSpec → 9 ≤ s.cdbLen → s.cdbLen ≤ s.params.cdbMax →
    let b := fun i => s.cdb.read i
    let count := number16 (b 7) (b 8)
    ∃ (info : CmdInfo) (tracks : Int), emitsCommand .readToc s info ∧
      info = { commonInfo s .readToc with
        variant := if b 1 = 0x00 then 0 else 1, start := some (b 6), count := some count, ntracks := some tracks } ∧
      8 * tracks ≤ count.toNat - 4 ∧ count.toNat - 4 < 8 * tracks + 8 ∧ -1 ≤ tracks ∧ tracks ≤ 8191 ∧
      commandText info = (if b 1 = 0x00 then "READ TOC (LBA)" else "READ TOC (MSF)") ++ ", start track " ++
        dec (b 6).toNat ++ ", numbytes " ++ dec count.toNat ++ ", tracks " ++ decInt tracks

/-- 43_command_interpreter.md R194. -/
def Obligations.ReadHeaderDecodes : Prop :=
  ∀ s : State, s.withinSpec → 9 ≤ s.cdbLen → s.cdbLen ≤ s.params.cdbMax →
    let b := fun i => s.cdb.read i
    let lba := number32 (b 2) (b 3) (b 4) (b 5)
    let count := number16 (b 7) (b 8)
    ∃ info, emitsCommand .readHeader s info ∧
      info = { commonInfo s .readHeader with
        variant := if b 1 = 0x00 then 0 else 1, lba := some lba, count := some count } ∧
      commandText info = (if b 1 = 0x00 then "READ HEADER (LBA), LBA 0x" else "READ HEADER (MSF), LBA 0x") ++ hex8 lba ++
        ", numbytes " ++ dec count.toNat

/-- 43_command_interpreter.md R195. -/
def Obligations.PauseResumeDecodes : Prop :=
  ∀ s : State, s.withinSpec → 9 ≤ s.cdbLen → s.cdbLen ≤ s.params.cdbMax →
    ∃ info, emitsCommand .pauseResume s info ∧
      info = { commonInfo s .pauseResume with variant := if s.cdb.read 8 = 0x00 then 0 else 1 } ∧
      commandText info = if s.cdb.read 8 = 0x00 then "PAUSE/RESUME (pause)" else "PAUSE/RESUME (resume)"

/-- 43_command_interpreter.md section 3, opcode 0xD8; the fourth variant is the spec's decision D23. -/
def Obligations.AudioTrackSearchDecodes : Prop :=
  ∀ s : State, s.withinSpec → 10 ≤ s.cdbLen → s.cdbLen ≤ s.params.cdbMax →
    let b := fun i => s.cdb.read i
    let lba := number32 (b 2) (b 3) (b 4) (b 5)
    let base := { commonInfo s .audioTrackSearch with op := some (if b 1 = 0x00 then 0 else 1), lba := some lba }
    let head := if b 1 = 0x00 then "AUDIO TRACK SEARCH (pause) " else "AUDIO TRACK SEARCH (play) "
    ∃ info, emitsCommand .audioTrackSearch s info ∧
      (b 9 = 0x00 → info = { base with variant := 0 } ∧ commandText info = head ++ "(LBA) LBA 0x" ++ hex8 lba) ∧
      (b 9 = 0x40 → info = { base with variant := 1, t0 := some (b 2), t1 := some (b 3), t2 := some (b 4) } ∧
        commandText info = head ++ "(MSF) " ++ hex2 (b 2) ++ ":" ++ hex2 (b 3) ++ ":" ++ hex2 (b 4)) ∧
      (b 9 = 0x80 → info = { base with variant := 2, track := some (b 2) } ∧
        commandText info = head ++ "(track) track 0x" ++ hex2 (b 2)) ∧
      (b 9 ≠ 0x00 → b 9 ≠ 0x40 → b 9 ≠ 0x80 → info = { base with variant := 3 } ∧
        commandText info = head ++ "(unknown addressing)")

/-- 43_command_interpreter.md section 3, any other opcode; how many bytes are echoed is the spec's decision D35. That the
row's meaning emits the record and does not look at its operand, so that this holds for EVERY operand, also for one that
has a decoder or is not the first stored byte, is the model's choice (log 11, DEDUCED). -/
def Obligations.UnknownOpcodeEchoesSixBytes : Prop :=
  ∀ (s : State) (opcode : Byte), s.withinSpec → s.cdbLen ≤ s.params.cdbMax →
    ∃ info, emitsCommand (.unknown opcode) s info ∧
      info = { commonInfo s .unknown with len := min 6 s.cdbLen, raw := storedBytes s (min 6 s.cdbLen) } ∧
      commandText info = "Unknown command"

/-- 43_command_interpreter.md section 2, short descriptors: the spec's decision D17. -/
def Obligations.ShortDescriptorsAreReported : Prop :=
  ∀ (s : State) (i : Instr) (m : Mnemonic) (need : Nat) (text : String),
    (i, m, need, text) ∈
      [(Instr.testUnitReady, Mnemonic.testUnitReady, 1, "TEST UNIT READY"), (.requestSense, .requestSense, 5, "REQUEST SENSE"),
       (.modeSelect, .modeSelect, 5, "MODE SELECT"), (.modeSense, .modeSense, 5, "MODE SENSE"),
       (.preventAllow, .preventAllow, 5, "PREVENT/ALLOW MEDIUM REMOVAL"), (.readExt, .readExt, 10, "READ"),
       (.readToc, .readToc, 9, "READ TOC"), (.readHeader, .readHeader, 9, "READ HEADER"),
       (.pauseResume, .pauseResume, 9, "PAUSE/RESUME"), (.audioTrackSearch, .audioTrackSearch, 10, "AUDIO TRACK SEARCH")] →
    s.withinSpec → s.cdbLen < need → s.cdbLen ≤ s.params.cdbMax →
    emitsCommand i s { commonInfo s m with short := true } ∧
    commandText { commonInfo s m with short := true } = text ++ " (short)"

/-- 43_command_interpreter.md section 3, last rule: a decoder writes no field of the block; no row depends on the class of
the opcode (section 1 there). In the spec a decoder emits nothing by itself and FlushRun emits its CAT_CMD record; that
the ROW emits that record, one over the run, is the model's choice (log 11, DEDUCED). -/
def Obligations.CommandRowsWriteOnlyTheirRecord : Prop :=
  ∀ (i : Instr) (s t : State), s.withinSpec → i.format = .cdb → exec i s = .next t →
    (∃ info, t = { s with out := s.out ++ [recordNow s s.runStart (.cmd info)] }) ∧
    ∀ (cls : CmdClass) (table : List (Byte × CmdClass)),
      exec i { s with cmdClass := cls, params := { s.params with cmdClass := table } } =
        .next { t with cmdClass := cls, params := { t.params with cmdClass := table } }

/-- 30_encoding.md section 4: there is no illegal opcode, and the row of every one of the 256 completes on every stored
descriptor, under its own mnemonic id. -/
def Obligations.EveryOpcodeCompletes : Prop :=
  ∀ (s : State) (op : Byte), s.withinSpec → s.cdbLen ≤ s.params.cdbMax →
    ∃ info, emitsCommand (decodeOpcode op) s info ∧ info.nbytes = s.byteCount ∧ info.overflow = s.cdbOverflow ∧
      info.len = info.raw.length ∧ (info.mnem = .unknown ↔ op ∉ knownOpcodes) ∧
      mnemonicId info.mnem =
        ([((0x00 : Byte), (0 : BitVec 4)), (0x03, 1), (0x15, 2), (0x1A, 3), (0x1E, 4), (0x28, 5), (0x43, 6), (0x44, 7),
          (0x4B, 8), (0xD8, 9)].lookup op).getD 15

/-! ### The flush, the debouncer and the BSY filter -/

/-- 41_subphase_tracker.md section 2, the flush: it executes the SUBPHASE_CODE row of the committed code and, in COMMAND,
the CDB row of the opcode. The split, with the byte test in the flush and the emission in the rows, is the model's choice
(log 11, DEDUCED): in the spec FlushRun emits both records itself. -/
def Obligations.FlushRunExecutesDecodedRows : Prop :=
  (∀ s : State, s.withinSpec → s.byteCount = 0 → flushRun s = .next s) ∧
  (∀ s : State, s.withinSpec → 1 ≤ s.byteCount → s.subphase ≠ 5 →
    flushRun s = exec (decodeSubphase s.subphase) s) ∧
  ∀ (s : State) (op : Byte), s.withinSpec → 1 ≤ s.byteCount → s.subphase = 5 → cdbRead s 0 = .ok op →
    flushRun s = andThen (exec .sp5 s) fun t => exec (decodeOpcode op) t

/-- 41_subphase_tracker.md R147: at a boundary and at the exit an empty run emits neither record, and its start is
overwritten by the next run's; and a stream without an ACK transition, from any state whose open run is empty, yields no
CAT_SUBPHASE and no CAT_CMD record, but still phase records in the order of the strict cycle. -/
def Obligations.ZeroByteRunsAreSilent : Prop :=
  (∀ (s : State) (c : Code), s.withinSpec → s.byteCount = 0 →
    boundary c s = .next { s with subphase := c, byteCount := 0, runStart := s.samplenum }) ∧
  (∀ s : State, s.withinSpec → s.byteCount = 0 → ∃ d, exec .evInformationTransferEnd s = .next
    { s with
      out := s.out ++ [recordNow s s.phaseStart (.phase .informationTransfer)]
      phase := .busFree, phaseStart := s.samplenum, dbPending := false, dbCnt := d, bsyHighCnt := 0 }) ∧
  ∀ (k : Nat) (s : State) (level : Bool),
    s.runWithinSpec k = true → (s.phase = .informationTransfer → s.byteCount = 0) →
    (s.prevValid = true → s.prev.ack = level) →
    (∀ f, Stimulus.frame f ∈ s.input → f.ack = level) →
    (∀ r ∈ recordsOf k s, ¬ r.ofRun) ∧
    (Stimulus.rst ∉ s.input → chainedFrom s.phase s.phaseStart (phaseRecords (recordsOf k s)))

/-- 41_subphase_tracker.md section 2: after a first edge, `W` more frames decide. If the last of them shows the committed
code again, the window was a glitch: no record, and the state is as if the edges had not occurred. Otherwise the boundary
is confirmed in that frame: the old run is flushed if it has bytes, and a new, empty run begins. The fixed window, its
length W and the boundary sample are the spec's decision D8. The frames hold ACK and keep BSY low, so that neither the
sampler nor the BSY filter acts. -/
def Obligations.DebounceWindowDecides : Prop :=
  ∀ (s : State) (first : Frame) (middle : List Frame) (last : Frame) (rest : List Stimulus),
    s.withinSpec → s.samplenum + s.params.debounceWindow + 1 < 2 ^ Config.sampleW →
    s.Inv → s.runState = .running → s.prevValid = true → s.phase = .informationTransfer → s.dbPending = false →
    s.input = .frame first :: (middle.map .frame ++ .frame last :: rest) →
    middle.length + 1 = s.params.debounceWindow → first.code ≠ s.subphase →
    (∀ f ∈ first :: (middle ++ [last]), f.ack = s.prev.ack ∧ f.bsy = false) →
    let W := s.params.debounceWindow
    let n := s.samplenum + W
    (last.code = s.subphase →
      recordsOf (W + 1) s = [] ∧
      ∃ d, stepTimes (W + 1) s = .next
        { s with
          input := rest, out := [], cfgError := false, prev := controlsOf last, samplenum := n + 1, bsyHighCnt := 0
          dbCnt := d }) ∧
    (last.code ≠ s.subphase →
      ∃ records,
        recordsOf (W + 1) s = records ∧
        (s.byteCount = 0 → records = []) ∧
        (1 ≤ s.byteCount → s.subphase ≠ 5 → records = [⟨s.runStart, n, .subphase s.subphase s.byteCount⟩]) ∧
        (1 ≤ s.byteCount → s.subphase = 5 →
          ∃ info, emitsCommand (decodeOpcode (s.cdb.read 0)) s info ∧
            records = [⟨s.runStart, n, .subphase 5 s.byteCount⟩, ⟨s.runStart, n, .cmd info⟩]) ∧
        ∃ d, stepTimes (W + 1) s = .next
          { s with
            input := rest, out := records, cfgError := false, prev := controlsOf last, samplenum := n + 1, bsyHighCnt := 0
            dbCnt := d, subphase := last.code, byteCount := 0, runStart := n })

/-- 41_subphase_tracker.md section 3: in INFORMATION_TRANSFER a BSY-low frame clears the count, a first BSY-high frame
is counted and does not end the phase, and the second consecutive one ends it in that frame (the spec's decision D9). -/
def Obligations.SecondBsyHighSampleEndsTransfer : Prop :=
  ∀ (s : State) (f : Frame) (rest : List Stimulus),
    s.stepWithinSpec → s.Inv → s.runState = .running → s.prevValid = true → s.phase = .informationTransfer →
    s.input = .frame f :: rest →
    ∃ t, step s = .next t ∧
      (f.bsy = false → t.phase = .informationTransfer ∧ t.phaseStart = s.phaseStart ∧ t.bsyHighCnt = 0) ∧
      (f.bsy = true → s.bsyHighCnt = 0 →
        t.phase = .informationTransfer ∧ t.phaseStart = s.phaseStart ∧ t.bsyHighCnt = 1) ∧
      (f.bsy = true → s.bsyHighCnt = 1 →
        t.phase = .busFree ∧ t.phaseStart = s.samplenum ∧ t.bsyHighCnt = 0 ∧ t.dbPending = false ∧
        t.out.getLast? = some (recordNow s s.phaseStart (.phase .informationTransfer)))

/-- 10_state.md section 1: the committed code is written at the entry to INFORMATION_TRANSFER, at a confirmed boundary,
where it becomes the code of the current frame, and by reset; at no other step. -/
def Obligations.SubphaseChangesOnlyAtEntryOrBoundary : Prop :=
  ∀ s t : State, s.stepWithinSpec → step s = .next t → t.subphase ≠ s.subphase →
    (∃ rest, s.input = .rst :: rest) ∨
    ∃ f rest, s.input = .frame f :: rest ∧ t.subphase = f.code ∧ t.runStart = s.samplenum ∧ t.byteCount = 0 ∧
      ((s.phase = .selection ∧ t.phase = .informationTransfer) ∨
       (s.phase = .informationTransfer ∧ s.dbPending = true ∧ s.dbCnt ≤ 1 ∧ t.dbPending = false))

/-! ### The step -/

/-- 40_phase_fsm.md sections 1 and 2, 60_exceptions.md section 3: a step outside INFORMATION_TRANSFER executes the one row
that its event word decodes to, or none, between the taking of the stimulus and the bookkeeping. -/
def Obligations.StepExecutesDecodedPhaseEvent : Prop :=
  ∀ (s : State) (f : Frame) (rest : List Stimulus),
    s.stepWithinSpec → s.runState = .running → s.prevValid = true → s.phase ≠ .informationTransfer →
    s.input = .frame f :: rest →
    let decoded := decodeEvents ⟨s.phase, s.latchValid, s.bsyHighCnt⟩ (eventWord s.prev f)
    (decoded = [] → step s = .next (afterFrame s f rest)) ∧
    ∀ i, decoded = [i] →
      step s = andThen (exec i (beginStep s rest)) fun t => .next (t.endFrame f)

/-- 40_phase_fsm.md section 2, 60_exceptions.md section 3 (the order is the spec's decision D10): a step in
INFORMATION_TRANSFER executes the ACK row its event word decodes to, if any, then the debouncer runs, then the exit row
if it fires, else the BSY filter counts. -/
def Obligations.StepExecutesDecodedTransferRows : Prop :=
  ∀ (s : State) (f : Frame) (rest : List Stimulus),
    s.stepWithinSpec → s.runState = .running → s.prevValid = true → s.phase = .informationTransfer →
    s.input = .frame f :: rest →
    let w := eventWord s.prev f
    let ack := decodeAckEvent s.latchValid w
    let exit := decodeExitEvent s.bsyHighCnt w
    decodeEvents ⟨s.phase, s.latchValid, s.bsyHighCnt⟩ w = ack.toList ++ exit.toList ∧
    step s =
      andThen (match ack with | some i => exec i (beginStep s rest) | none => .next (beginStep s rest)) fun t =>
      andThen (debounce f t) fun u =>
      andThen (match exit with
        | some i => exec i u
        | none => .next { u with bsyHighCnt := if f.bsy then u.bsyHighCnt + 1 else 0 }) fun v =>
      .next (v.endFrame f)

/-- 10_state.md section 4 (with (f) restricted to INFORMATION_TRANSFER, log 12) and 20_memory.md section 1: every state
that meets the invariant steps, without a fault or a refusal, to a state that meets it. -/
def Obligations.StepCompletesAndKeepsInvariant : Prop :=
  ∀ s : State, s.stepWithinSpec → s.Inv → ∃ t, step s = .next t ∧ t.Inv

/-- The state after reset meets the invariant, with every admissible choice of the parameters. -/
def Obligations.ResetMeetsInvariant : Prop :=
  ∀ p : Params, p.wf → State.Inv { State.reset with params := p }

/-- From reset, with any parameters, any configuration and any stimuli, no step ever faults or is refused. -/
def Obligations.RunsFromResetNeverStop : Prop :=
  ∀ (k : Nat) (p : Params) (c : Cfg) (input : List Stimulus), p.wf →
    State.runWithinSpec k { State.reset with params := p, cfg := c, input := input } = true →
    safeFor k { State.reset with params := p, cfg := c, input := input }

/-- 40_phase_fsm.md R127: a step changes the phase only along the strict cycle and then emits the record of the phase
that ends; over any number of steps without a reset, the phase records carry the phases of the cycle in order, each
beginning where the one before ended, and the first after reset begins at 0. -/
def Obligations.PhaseRecordsFormStrictCycle : Prop :=
  (∀ s t : State, s.stepWithinSpec → step s = .next t → (∀ rest, s.input ≠ .rst :: rest) →
    (t.phase = s.phase ∧ t.phaseStart = s.phaseStart ∧ phaseRecords t.out = []) ∨
    (t.phase = nextPhase s.phase ∧ t.phaseStart = s.samplenum ∧
      phaseRecords t.out = [(s.phase, s.phaseStart, s.samplenum)])) ∧
  (∀ (k : Nat) (s : State), s.runWithinSpec k = true → Stimulus.rst ∉ s.input →
    chainedFrom s.phase s.phaseStart (phaseRecords (recordsOf k s))) ∧
  ∀ (k : Nat) (p : Params) (c : Cfg) (input : List Stimulus), Stimulus.rst ∉ input →
    State.runWithinSpec k { State.reset with params := p, cfg := c, input := input } = true →
    chainedFrom .busFree 0 (phaseRecords (recordsOf k { State.reset with params := p, cfg := c, input := input }))

/-- 30_encoding.md section 3 and property Q1 of 95_test_vectors.md: every record of a step ends at the current sample and
begins no later. -/
def Obligations.RecordsEndAtTheCurrentSample : Prop :=
  ∀ s t : State, s.stepWithinSpec → s.Inv → step s = .next t → ∀ r ∈ t.out, r.endsAt s.samplenum

/-- 60_exceptions.md section 3 and property Q6: a step emits at most five records; the order and so the bound rest on
the spec's decision D10. -/
def Obligations.AtMostFiveRecordsPerStep : Prop :=
  ∀ s t : State, s.stepWithinSpec → step s = .next t → t.out.length ≤ 5

/-- 95_test_vectors.md T1 (the source's own first property) and Q2, with "no overlap" read as there: over any number of
steps from reset, with any parameters and stimuli but no further reset, every record has `ss <= es`, and of two records of
one category the earlier begins before the later begins and ends no later than that. -/
def Obligations.RecordsOfOneCategoryNeverOverlap : Prop :=
  ∀ (k : Nat) (p : Params) (c : Cfg) (input : List Stimulus), p.wf → Stimulus.rst ∉ input →
    State.runWithinSpec k { State.reset with params := p, cfg := c, input := input } = true →
    let records := recordsOf k { State.reset with params := p, cfg := c, input := input }
    (∀ r ∈ records, r.ss ≤ r.es) ∧
    records.Pairwise fun r q => r.cat = q.cat → r.ss < q.ss ∧ r.es ≤ q.ss

/-- Property Q5 of 95_test_vectors.md: a CAT_CMD record stands immediately after the CAT_SUBPHASE record of the same COMMAND
run, with the same interval; a CAT_SUBPHASE record counts at least one byte. -/
def Obligations.CommandRecordFollowsItsRunRecord : Prop :=
  ∀ s t : State, s.stepWithinSpec → step s = .next t →
    (∀ (before after : List Record) (ss es : Nat) (info : CmdInfo), t.out = before ++ ⟨ss, es, .cmd info⟩ :: after →
      ∃ (start : List Record) (n : Nat), before = start ++ [⟨ss, es, .subphase 5 n⟩]) ∧
    ∀ (ss es : Nat) (c : Code) (n : Nat), (⟨ss, es, .subphase c n⟩ : Record) ∈ t.out → 1 ≤ n

/-- 42_handshake_sampler.md section 2, index discipline (marked as an inference there): in INFORMATION_TRANSFER the byte
index record of a step carries the byte count, which grows by one with it unless a boundary of the same step clears it;
without a byte the count stays or a boundary clears it. A boundary is a confirmed one: an open window expires in the step
on another code than the committed one, and a run of the new code begins at the current sample. Outside
INFORMATION_TRANSFER no byte index is emitted, and the entry to it leaves the count at 0. -/
def Obligations.ByteIndicesCountUpFromZero : Prop :=
  (∀ (s t : State) (f : Frame) (rest : List Stimulus), s.stepWithinSpec → step s = .next t → s.input = .frame f :: rest →
    s.phase = .informationTransfer →
    (∀ (ss es k : Nat), (⟨ss, es, .byteIndex k⟩ : Record) ∈ t.out → k = s.byteCount ∧ ss = s.byteRunStart) ∧
    ((s.dbPending = true ∧ s.dbCnt ≤ 1 ∧ f.code ≠ s.subphase ∧ t.subphase = f.code ∧ t.runStart = s.samplenum ∧
        t.byteCount = 0) ∨
      (t.byteCount = s.byteCount + 1 ∧ ∃ ss es, (⟨ss, es, .byteIndex s.byteCount⟩ : Record) ∈ t.out) ∨
      (t.byteCount = s.byteCount ∧ ∀ ss es k, (⟨ss, es, .byteIndex k⟩ : Record) ∉ t.out))) ∧
  ∀ s t : State, s.stepWithinSpec → step s = .next t → s.phase ≠ .informationTransfer →
    (∀ ss es k, (⟨ss, es, .byteIndex k⟩ : Record) ∉ t.out) ∧ (t.phase = .informationTransfer → t.byteCount = 0)

/-! ### The exception, reset, and the host's registers -/

/-- 60_exceptions.md section 1: ConfigurationError, taken in the first frame without a sample rate, and the normal start
with one, whatever the rate's value; the mechanism is the spec's decision D25. -/
def Obligations.FirstFrameTestsConfiguration : Prop :=
  ∀ (s : State) (f : Frame) (rest : List Stimulus), s.stepWithinSpec → s.runState = .idle → s.input = .frame f :: rest →
    (s.cfg.srValid = false → step s = .next
      { s with
        input := rest, out := [], errCfg := true, runState := .halted, cfgError := true, samplenum := s.samplenum + 1 }) ∧
    (s.cfg.srValid = true → s.prevValid = false → step s = .next { afterFrame s f rest with runState := .running })

/-- 60_exceptions.md section 1: in HALTED every frame is ignored but counted, one sample each, over any number of steps
without reset, and no record and no `cfg_error` pulse appears; reset alone leaves HALTED (the spec's decision D25). -/
def Obligations.HaltedUntilReset : Prop :=
  (∀ (k : Nat) (s : State), s.withinSpec → s.samplenum + framesAmong k s.input < 2 ^ Config.sampleW →
    s.runState = .halted → Stimulus.rst ∉ s.input →
    ∃ t, stepTimes k s = .next t ∧ recordsOf k s = [] ∧
      t = { s with input := t.input, cfg := t.cfg, samplenum := t.samplenum, out := t.out, cfgError := t.cfgError } ∧
      t.samplenum = s.samplenum + framesAmong k s.input ∧ t.input = s.input.drop k ∧
      (1 ≤ k → t.out = [] ∧ t.cfgError = false)) ∧
  ∀ (s : State) (rest : List Stimulus), s.stepWithinSpec → s.input = .rst :: rest →
    ∃ t, step s = .next t ∧ t.runState = .idle ∧ t.errCfg = false

/-- 70_reset_and_hazards.md section 1 and 10_state.md section 5: the reset values the spec gives; CFG is not changed, no
record is emitted (the spec's decisions D26 and D27). The fields for which it gives no value are left open here. -/
def Obligations.ResetRestoresGivenValues : Prop :=
  ∀ (s : State) (rest : List Stimulus), s.stepWithinSpec → s.input = .rst :: rest →
    ∃ t, step s = .next t ∧ t.runState = .idle ∧ t.errCfg = false ∧ t.samplenum = 0 ∧ t.prevValid = false ∧
      t.phase = .busFree ∧ t.phaseStart = 0 ∧ t.byteCount = 0 ∧ t.latchValid = false ∧ t.dbPending = false ∧
      t.bsyHighCnt = 0 ∧ t.cdbLen = 0 ∧ t.cdbOverflow = false ∧ t.cmdClass = .unknown ∧ t.cfg = s.cfg ∧ t.out = [] ∧
      t.cfgError = false ∧ t.params = s.params ∧ t.input = rest

/-- 10_state.md section 2: a CFG write changes CFG and nothing else of the block, and STATUS shows four fields at their bits
(the registers are the spec's decision D25); SUBPHASE means something only in INFORMATION_TRANSFER (log 15). -/
def Obligations.HostRegisters : Prop :=
  (∀ (s : State) (c : Cfg) (rest : List Stimulus), s.stepWithinSpec → s.input = .writeCfg c :: rest →
    step s = .next { s with input := rest, out := [], cfgError := false, cfg := c }) ∧
  ∀ s : State,
    (statusRegister s).getLsbD 0 = s.errCfg ∧
    (statusRegister s).extractLsb' 1 2 = (match s.runState with | .idle => 0 | .running => 1 | .halted => 2) ∧
    (statusRegister s).extractLsb' 3 2 =
      (match s.phase with | .busFree => 0 | .arbitration => 1 | .selection => 2 | .informationTransfer => 3) ∧
    (s.phase = .informationTransfer → (statusRegister s).extractLsb' 5 3 = s.subphase)

/-- 60_exceptions.md section 4 and 40_phase_fsm.md section 3: with no stimulus the block holds its state and nothing is
flushed; that the output ports then show nothing is the model's choice (log 2). -/
def Obligations.HoldsStateWithoutStimulus : Prop :=
  ∀ s : State, s.stepWithinSpec → s.input = [] → step s = .next { s with out := [], cfgError := false }

/-- 70_reset_and_hazards.md section 2: the first frame, which a run takes in IDLE with a sample rate configured, only loads
`prev` beside the start, in whatever phase (the spec's decision D3); the same in RUNNING, where no run is without a
previous frame (`State.modeOk`). -/
def Obligations.FirstFrameOnlyLoadsPrev : Prop :=
  ∀ (s : State) (f : Frame) (rest : List Stimulus),
    s.stepWithinSpec → s.runState = .running ∨ (s.runState = .idle ∧ s.cfg.srValid = true) → s.prevValid = false →
    s.input = .frame f :: rest → step s = .next { afterFrame s f rest with runState := .running }

/-- 10_state.md sections 1, 2 and 6: a frame advances the sample number by exactly 1 in every run state, nothing but reset
changes it otherwise, no step changes the parameters, and only a host write changes CFG. That a CFG write is a step of
its own, which advances no sample number, is the model's choice (log 14, DESIGN CHOICE), and so is that the parameters
stand in State, where no step writes them (log 3, DESIGN CHOICE). -/
def Obligations.SampleNumberCountsFramesAndHostOwnsCfg : Prop :=
  ∀ s t : State, s.stepWithinSpec → step s = .next t →
    t.params = s.params ∧
    (match s.input with
      | [] => t.samplenum = s.samplenum ∧ t.cfg = s.cfg ∧ t.input = []
      | .frame _ :: rest => t.samplenum = s.samplenum + 1 ∧ t.cfg = s.cfg ∧ t.input = rest
      | .writeCfg c :: rest => t.samplenum = s.samplenum ∧ t.cfg = c ∧ t.input = rest
      | .rst :: rest => t.samplenum = 0 ∧ t.cfg = s.cfg ∧ t.input = rest)

/-! ### Lines that are not looked at -/

/-- 30_encoding.md section 1: REQ is never read; two frames that differ at most in REQ lead to the same state. -/
def Obligations.ReqIsNeverRead : Prop :=
  ∀ (s : State) (f g : Frame) (rest : List Stimulus), f.setWidth 14 = g.setWidth 14 →
    State.stepWithinSpec { s with input := .frame f :: rest } →
    step { s with input := .frame f :: rest } = step { s with input := .frame g :: rest }

/-- 40_phase_fsm.md section 3, what each phase ignores: the data lines are looked at only in the frame that ends
ARBITRATION and in a frame with a falling ACK edge in INFORMATION_TRANSFER. -/
def Obligations.DataLinesIgnoredWithoutTheirEdge : Prop :=
  ∀ (s : State) (f g : Frame) (rest : List Stimulus), f.extractLsb' 8 7 = g.extractLsb' 8 7 →
    State.stepWithinSpec { s with input := .frame f :: rest } →
    ¬ (s.phase = .arbitration ∧ s.prev.bsy = true ∧ f.bsy = false) →
    ¬ (s.phase = .informationTransfer ∧ s.prev.ack = true ∧ f.ack = false) →
    step { s with input := .frame f :: rest } = step { s with input := .frame g :: rest }

/-! ### Encodings -/

/-- Every well-formed instruction, with every operand its encoding admits, is what the decoder reads from its own
encoding, in the context in which its row fires (opcode_table.json; 30_encoding.md sections 1, 2 and 4). -/
def Obligations.DecodeInvertsEncode : Prop :=
  ∀ i : Instr, i.wellFormed = true → decode (contextOf i) i.format (encode i) = .ok i

/-- The other direction: every sub-phase code and every opcode has exactly one row, whose encoding is that word; what the
decoder reads is well formed. Of the EVENT rows, those for opposite edges or levels of one line exclude each other: the
two ACK rows, the two SEL rows, the two BSY rows. (An event word may fire no row, or an ACK row with the exit row.) -/
def Obligations.EveryCodeAndOpcodeHasOneRow : Prop :=
  (∀ c : Code, encode (decodeSubphase c) = [c.setWidth 8] ∧
    ∀ i : Instr, i.format = .subphaseCode → encode i = [c.setWidth 8] → i = decodeSubphase c) ∧
  (∀ op : Byte, encode (decodeOpcode op) = [op] ∧
    ∀ i : Instr, i.format = .cdb → i.wellFormed = true → encode i = [op] → i = decodeOpcode op) ∧
  (∀ (c : Context) (fmt : Format) (bytes : List Byte) (i : Instr), decode c fmt bytes = .ok i → i.wellFormed = true ∧ i.format = fmt) ∧
  ∀ w : EventWord, ¬ (ackFallRow.fires w = true ∧ ackRiseRow.fires w = true) ∧
    ¬ (busFreeEndRow.fires w = true ∧ selectionEndRow.fires w = true) ∧
    ¬ (arbitrationEndRow.fires w = true ∧ informationTransferEndRow.fires w = true)

/-- The masks and patterns of opcode_table.json fire exactly on the edges and the level of 00_scope.md section 4, for
every kept frame and every current frame. -/
def Obligations.EventRowsFireOnTheirEdges : Prop :=
  ∀ (p : Controls) (f : Frame),
    busFreeEndRow.fires (eventWord p f) = fall true p.sel f.sel ∧
    arbitrationEndRow.fires (eventWord p f) = fall true p.bsy f.bsy ∧
    selectionEndRow.fires (eventWord p f) = rise true p.sel f.sel ∧
    informationTransferEndRow.fires (eventWord p f) = f.bsy ∧
    ackFallRow.fires (eventWord p f) = fall true p.ack f.ack ∧
    ackRiseRow.fires (eventWord p f) = rise true p.ack f.ack

/-- Words of opcode_table.json, written out: one of each format and the operand-bearing events. -/
def Obligations.SampleWordsDecode : Prop :=
  decode ⟨.busFree, false, 0⟩ .event [0xFF, 0xFE, 0xFF, 0x3F] = .ok .evBusFreeEnd ∧
  decode ⟨.arbitration, false, 0⟩ .event [0xF7, 0xFC, 0x7F, 0x3F] = .ok (.evArbitrationEnd 0xF7) ∧
  decode ⟨.selection, false, 0⟩ .event [0xFF, 0xF9, 0x7B, 0x3E] = .ok (.evSelectionEnd 5) ∧
  decode ⟨.informationTransfer, false, 0⟩ .event [0x28, 0xD9, 0xFF, 0x3C] = .ok (.evAckFall 0x28) ∧
  decode ⟨.busFree, false, 0⟩ .subphaseCode [5] = .ok .sp5 ∧
  decode ⟨.busFree, false, 0⟩ .cdb [0x28, 0, 0, 0, 0x10, 0, 0, 0, 2, 0] = .ok .readExt

/-- 30_encoding.md R91: the LUN set, its descending order, its list, and that the payload of the record at the end of
ARBITRATION is `arb_pins`. -/
def Obligations.LunListIsDescending : Prop :=
  (∀ (pins : Byte) (i : Nat), i ∈ lunSet pins ↔ 1 ≤ i ∧ i ≤ 7 ∧ pins.getLsbD i = false) ∧
  (∀ pins : Byte, (lunSet pins).Pairwise (· > ·)) ∧
  (∀ pins : Byte, lunList pins = String.intercalate "," ((lunSet pins).map dec)) ∧
  (lunList 0xF7 = "3" ∧ lunList 0x75 = "7,3,1" ∧ lunList 0xFF = "") ∧
  (∀ (s t : State) (pins : Byte), s.withinSpec → exec (.evArbitrationEnd pins) s = .next t →
    t.arbPins = pins ∧ recordNow s s.phaseStart (.lun t.arbPins) ∈ t.out) ∧
  ∀ (s t : State) (code : Code), s.withinSpec → exec (.evSelectionEnd code) s = .next t →
    recordNow s s.phaseStart (.lun s.arbPins) ∈ t.out

/-! ### A sentence of the spec that its own rules contradict -/

/-- 10_state.md section 4, (f), read for every reachable state in RUNNING as it is written: it FAILS. A byte latched and
never finalised stays valid over the exit (40_phase_fsm.md section 2, EV_INFORMATION_TRANSFER_END), and ACK may then rise
outside INFORMATION_TRANSFER (log 12). -/
def Obligations.LatchedByteMeansAckLowInEveryPhase : Prop :=
  ∀ (k : Nat) (c : Cfg) (input : List Stimulus) (t : State),
    State.runWithinSpec k { State.reset with cfg := c, input := input } = true →
    stepTimes k { State.reset with cfg := c, input := input } = .next t →
    t.runState = .running → t.latchValid = true → t.prev.ack = false

/-! ### Widths and intervals -/

/-- 70_reset_and_hazards.md section 3, with 10_state.md section 1: a step within the bounds leaves the sample number, the
sample fields and the byte count within them, and emits only records whose fields fit their widths, so that the natural
numbers of the model are there the counters of the hardware (log 7); and every run from reset of fewer than 2^32 steps is
within them. The widths are the spec's decisions D2 and D29. -/
def Obligations.CountersStayWithinTheirWidths : Prop :=
  (∀ s t : State, s.stepWithinSpec → step s = .next t → t.withinSpec ∧ ∀ r ∈ t.out, r.fitsWidths) ∧
  ∀ (k : Nat) (p : Params) (c : Cfg) (input : List Stimulus), k < 2 ^ Config.idxW →
    State.runWithinSpec k { State.reset with params := p, cfg := c, input := input } = true

/-- 95_test_vectors.md T1 and Q2 as a property of one step: the intervals that are open before a step without a reset are
those its records close. Each record begins where the open interval of its category began, ends later, and not after the
beginning of the next one; no category has two records in a step; an open interval never begins earlier than the one
before it. The invariant this rests on holds after reset and is kept by every step. -/
def Obligations.RecordsCloseTheOpenInterval : Prop :=
  (∀ (p : Params) (c : Cfg) (input : List Stimulus),
    State.openIntervals { State.reset with params := p, cfg := c, input := input }) ∧
  ∀ s t : State, s.stepWithinSpec → s.openIntervals → step s = .next t →
    t.openIntervals ∧
    ((∀ rest, s.input ≠ .rst :: rest) →
      (∀ r ∈ t.out, r.ss = s.openStart r.cat ∧ r.ss < r.es ∧ r.es ≤ t.openStart r.cat) ∧
      t.out.Pairwise (fun r q => r.cat ≠ q.cat) ∧ ∀ cat, s.openStart cat ≤ t.openStart cat)

/-! ### The state's own invariants, and what has no meaning -/

/-- 10_state.md section 4, sentence by sentence, for every reachable state in RUNNING: (a) to (e) as they are written, and (f)
while the phase is INFORMATION_TRANSFER, outside of which section 3 there says that the field means nothing (log 12). -/
def Obligations.ReachableStatesMeetTheInvariants : Prop :=
  ∀ (k : Nat) (p : Params) (c : Cfg) (input : List Stimulus) (s : State), p.wf →
    State.runWithinSpec k { State.reset with params := p, cfg := c, input := input } = true →
    stepTimes k { State.reset with params := p, cfg := c, input := input } = .next s → s.runState = .running →
    (s.phase = .informationTransfer → s.dbPending = false →
      s.subphase = BitVec.ofNat 3 (4 * s.prev.msg.toNat + 2 * s.prev.cd.toNat + s.prev.io.toNat)) ∧
    (s.dbPending = true → 1 ≤ s.dbCnt ∧ s.dbCnt ≤ s.params.debounceWindow) ∧
    (s.bsyHighCnt = 0 ∨ s.bsyHighCnt = 1) ∧
    (s.phase = .informationTransfer →
      s.phaseStart ≤ s.runStart ∧ s.runStart ≤ s.samplenum ∧ s.phaseStart ≤ s.byteRunStart ∧
      s.byteRunStart ≤ s.samplenum) ∧
    s.phaseStart ≤ s.samplenum ∧
    (s.phase = .informationTransfer → s.subphase = 5 → 1 ≤ s.byteCount →
      s.cdbLen = min s.byteCount s.params.cdbMax ∧ s.cdbOverflow = decide (s.byteCount > s.params.cdbMax)) ∧
    (s.phase = .informationTransfer → s.latchValid = true → s.prev.ack = false)

/-- 10_state.md sections 1 and 3, what means nothing: outside INFORMATION_TRANSFER no step but an entry or a reset writes a
sub-phase field, and no step reads one; two states that agree in all that means something answer the same records and
again states that agree in it, over any number of steps. A stale `latch_valid` (log 12) is therefore without effect. That
`data_latch` means nothing while `latch_valid` is 0, and `db_cnt` while `db_pending` is 0, are the spec's D13 and D8. -/
def Obligations.SubphaseFieldsMeanNothingOutsideTransfer : Prop :=
  (∀ s t : State, s.stepWithinSpec → step s = .next t → s.phase ≠ .informationTransfer → t.phase ≠ .informationTransfer →
    (∀ rest, s.input ≠ .rst :: rest) →
    t.subphase = s.subphase ∧ t.runStart = s.runStart ∧ t.byteCount = s.byteCount ∧ t.byteRunStart = s.byteRunStart ∧
    t.dataLatch = s.dataLatch ∧ t.latchValid = s.latchValid ∧ t.dbPending = s.dbPending ∧ t.dbCnt = s.dbCnt ∧
    t.bsyHighCnt = s.bsyHighCnt) ∧
  (∀ s t : State, s.stepWithinSpec → t.stepWithinSpec → s.meaning = t.meaning →
    meaningOf (step s) = meaningOf (step t)) ∧
  ∀ (k : Nat) (s t : State), s.runWithinSpec k = true → t.runWithinSpec k = true → s.meaning = t.meaning →
    recordsOf k s = recordsOf k t
end

