-- ==== Sys2Proof/Laws/State.lean ====
section
/-! SUPPORT. For every named update of the state, one lemma per field: the value it writes, or that it leaves the field. -/

namespace Sys2Proof.Machine

/-! ### `State.emit` -/
@[simp] theorem State.emit_runState (s : State) (ss : Nat) (p : Payload) : (s.emit ss p).runState = s.runState := rfl
@[simp] theorem State.emit_errCfg (s : State) (ss : Nat) (p : Payload) : (s.emit ss p).errCfg = s.errCfg := rfl
@[simp] theorem State.emit_samplenum (s : State) (ss : Nat) (p : Payload) : (s.emit ss p).samplenum = s.samplenum := rfl
@[simp] theorem State.emit_prev (s : State) (ss : Nat) (p : Payload) : (s.emit ss p).prev = s.prev := rfl
@[simp] theorem State.emit_prevValid (s : State) (ss : Nat) (p : Payload) : (s.emit ss p).prevValid = s.prevValid := rfl
@[simp] theorem State.emit_phase (s : State) (ss : Nat) (p : Payload) : (s.emit ss p).phase = s.phase := rfl
@[simp] theorem State.emit_phaseStart (s : State) (ss : Nat) (p : Payload) : (s.emit ss p).phaseStart = s.phaseStart := rfl
@[simp] theorem State.emit_arbPins (s : State) (ss : Nat) (p : Payload) : (s.emit ss p).arbPins = s.arbPins := rfl
@[simp] theorem State.emit_subphase (s : State) (ss : Nat) (p : Payload) : (s.emit ss p).subphase = s.subphase := rfl
@[simp] theorem State.emit_runStart (s : State) (ss : Nat) (p : Payload) : (s.emit ss p).runStart = s.runStart := rfl
@[simp] theorem State.emit_byteCount (s : State) (ss : Nat) (p : Payload) : (s.emit ss p).byteCount = s.byteCount := rfl
@[simp] theorem State.emit_byteRunStart (s : State) (ss : Nat) (p : Payload) : (s.emit ss p).byteRunStart = s.byteRunStart := rfl
@[simp] theorem State.emit_dataLatch (s : State) (ss : Nat) (p : Payload) : (s.emit ss p).dataLatch = s.dataLatch := rfl
@[simp] theorem State.emit_latchValid (s : State) (ss : Nat) (p : Payload) : (s.emit ss p).latchValid = s.latchValid := rfl
@[simp] theorem State.emit_dbPending (s : State) (ss : Nat) (p : Payload) : (s.emit ss p).dbPending = s.dbPending := rfl
@[simp] theorem State.emit_dbCnt (s : State) (ss : Nat) (p : Payload) : (s.emit ss p).dbCnt = s.dbCnt := rfl
@[simp] theorem State.emit_bsyHighCnt (s : State) (ss : Nat) (p : Payload) : (s.emit ss p).bsyHighCnt = s.bsyHighCnt := rfl
@[simp] theorem State.emit_cdb (s : State) (ss : Nat) (p : Payload) : (s.emit ss p).cdb = s.cdb := rfl
@[simp] theorem State.emit_cdbLen (s : State) (ss : Nat) (p : Payload) : (s.emit ss p).cdbLen = s.cdbLen := rfl
@[simp] theorem State.emit_cdbOverflow (s : State) (ss : Nat) (p : Payload) : (s.emit ss p).cdbOverflow = s.cdbOverflow := rfl
@[simp] theorem State.emit_cmdClass (s : State) (ss : Nat) (p : Payload) : (s.emit ss p).cmdClass = s.cmdClass := rfl
@[simp] theorem State.emit_cfg (s : State) (ss : Nat) (p : Payload) : (s.emit ss p).cfg = s.cfg := rfl
@[simp] theorem State.emit_params (s : State) (ss : Nat) (p : Payload) : (s.emit ss p).params = s.params := rfl
@[simp] theorem State.emit_input (s : State) (ss : Nat) (p : Payload) : (s.emit ss p).input = s.input := rfl
@[simp] theorem State.emit_out (s : State) (ss : Nat) (p : Payload) : (s.emit ss p).out = s.out ++ [⟨ss, s.samplenum, p⟩] := rfl
@[simp] theorem State.emit_cfgError (s : State) (ss : Nat) (p : Payload) : (s.emit ss p).cfgError = s.cfgError := rfl

/-! ### `State.emitPhase` -/
@[simp] theorem State.emitPhase_runState (s : State) (p : Phase) : (s.emitPhase p).runState = s.runState := rfl
@[simp] theorem State.emitPhase_errCfg (s : State) (p : Phase) : (s.emitPhase p).errCfg = s.errCfg := rfl
@[simp] theorem State.emitPhase_samplenum (s : State) (p : Phase) : (s.emitPhase p).samplenum = s.samplenum := rfl
@[simp] theorem State.emitPhase_prev (s : State) (p : Phase) : (s.emitPhase p).prev = s.prev := rfl
@[simp] theorem State.emitPhase_prevValid (s : State) (p : Phase) : (s.emitPhase p).prevValid = s.prevValid := rfl
@[simp] theorem State.emitPhase_phase (s : State) (p : Phase) : (s.emitPhase p).phase = s.phase := rfl
@[simp] theorem State.emitPhase_phaseStart (s : State) (p : Phase) : (s.emitPhase p).phaseStart = s.phaseStart := rfl
@[simp] theorem State.emitPhase_arbPins (s : State) (p : Phase) : (s.emitPhase p).arbPins = s.arbPins := rfl
@[simp] theorem State.emitPhase_subphase (s : State) (p : Phase) : (s.emitPhase p).subphase = s.subphase := rfl
@[simp] theorem State.emitPhase_runStart (s : State) (p : Phase) : (s.emitPhase p).runStart = s.runStart := rfl
@[simp] theorem State.emitPhase_byteCount (s : State) (p : Phase) : (s.emitPhase p).byteCount = s.byteCount := rfl
@[simp] theorem State.emitPhase_byteRunStart (s : State) (p : Phase) : (s.emitPhase p).byteRunStart = s.byteRunStart := rfl
@[simp] theorem State.emitPhase_dataLatch (s : State) (p : Phase) : (s.emitPhase p).dataLatch = s.dataLatch := rfl
@[simp] theorem State.emitPhase_latchValid (s : State) (p : Phase) : (s.emitPhase p).latchValid = s.latchValid := rfl
@[simp] theorem State.emitPhase_dbPending (s : State) (p : Phase) : (s.emitPhase p).dbPending = s.dbPending := rfl
@[simp] theorem State.emitPhase_dbCnt (s : State) (p : Phase) : (s.emitPhase p).dbCnt = s.dbCnt := rfl
@[simp] theorem State.emitPhase_bsyHighCnt (s : State) (p : Phase) : (s.emitPhase p).bsyHighCnt = s.bsyHighCnt := rfl
@[simp] theorem State.emitPhase_cdb (s : State) (p : Phase) : (s.emitPhase p).cdb = s.cdb := rfl
@[simp] theorem State.emitPhase_cdbLen (s : State) (p : Phase) : (s.emitPhase p).cdbLen = s.cdbLen := rfl
@[simp] theorem State.emitPhase_cdbOverflow (s : State) (p : Phase) : (s.emitPhase p).cdbOverflow = s.cdbOverflow := rfl
@[simp] theorem State.emitPhase_cmdClass (s : State) (p : Phase) : (s.emitPhase p).cmdClass = s.cmdClass := rfl
@[simp] theorem State.emitPhase_cfg (s : State) (p : Phase) : (s.emitPhase p).cfg = s.cfg := rfl
@[simp] theorem State.emitPhase_params (s : State) (p : Phase) : (s.emitPhase p).params = s.params := rfl
@[simp] theorem State.emitPhase_input (s : State) (p : Phase) : (s.emitPhase p).input = s.input := rfl
@[simp] theorem State.emitPhase_out (s : State) (p : Phase) : (s.emitPhase p).out = s.out ++ [⟨s.phaseStart, s.samplenum, .phase p⟩] := rfl
@[simp] theorem State.emitPhase_cfgError (s : State) (p : Phase) : (s.emitPhase p).cfgError = s.cfgError := rfl

/-! ### `State.emitLun` -/
@[simp] theorem State.emitLun_runState (s : State) (pins : Byte) : (s.emitLun pins).runState = s.runState := rfl
@[simp] theorem State.emitLun_errCfg (s : State) (pins : Byte) : (s.emitLun pins).errCfg = s.errCfg := rfl
@[simp] theorem State.emitLun_samplenum (s : State) (pins : Byte) : (s.emitLun pins).samplenum = s.samplenum := rfl
@[simp] theorem State.emitLun_prev (s : State) (pins : Byte) : (s.emitLun pins).prev = s.prev := rfl
@[simp] theorem State.emitLun_prevValid (s : State) (pins : Byte) : (s.emitLun pins).prevValid = s.prevValid := rfl
@[simp] theorem State.emitLun_phase (s : State) (pins : Byte) : (s.emitLun pins).phase = s.phase := rfl
@[simp] theorem State.emitLun_phaseStart (s : State) (pins : Byte) : (s.emitLun pins).phaseStart = s.phaseStart := rfl
@[simp] theorem State.emitLun_arbPins (s : State) (pins : Byte) : (s.emitLun pins).arbPins = s.arbPins := rfl
@[simp] theorem State.emitLun_subphase (s : State) (pins : Byte) : (s.emitLun pins).subphase = s.subphase := rfl
@[simp] theorem State.emitLun_runStart (s : State) (pins : Byte) : (s.emitLun pins).runStart = s.runStart := rfl
@[simp] theorem State.emitLun_byteCount (s : State) (pins : Byte) : (s.emitLun pins).byteCount = s.byteCount := rfl
@[simp] theorem State.emitLun_byteRunStart (s : State) (pins : Byte) : (s.emitLun pins).byteRunStart = s.byteRunStart := rfl
@[simp] theorem State.emitLun_dataLatch (s : State) (pins : Byte) : (s.emitLun pins).dataLatch = s.dataLatch := rfl
@[simp] theorem State.emitLun_latchValid (s : State) (pins : Byte) : (s.emitLun pins).latchValid = s.latchValid := rfl
@[simp] theorem State.emitLun_dbPending (s : State) (pins : Byte) : (s.emitLun pins).dbPending = s.dbPending := rfl
@[simp] theorem State.emitLun_dbCnt (s : State) (pins : Byte) : (s.emitLun pins).dbCnt = s.dbCnt := rfl
@[simp] theorem State.emitLun_bsyHighCnt (s : State) (pins : Byte) : (s.emitLun pins).bsyHighCnt = s.bsyHighCnt := rfl
@[simp] theorem State.emitLun_cdb (s : State) (pins : Byte) : (s.emitLun pins).cdb = s.cdb := rfl
@[simp] theorem State.emitLun_cdbLen (s : State) (pins : Byte) : (s.emitLun pins).cdbLen = s.cdbLen := rfl
@[simp] theorem State.emitLun_cdbOverflow (s : State) (pins : Byte) : (s.emitLun pins).cdbOverflow = s.cdbOverflow := rfl
@[simp] theorem State.emitLun_cmdClass (s : State) (pins : Byte) : (s.emitLun pins).cmdClass = s.cmdClass := rfl
@[simp] theorem State.emitLun_cfg (s : State) (pins : Byte) : (s.emitLun pins).cfg = s.cfg := rfl
@[simp] theorem State.emitLun_params (s : State) (pins : Byte) : (s.emitLun pins).params = s.params := rfl
@[simp] theorem State.emitLun_input (s : State) (pins : Byte) : (s.emitLun pins).input = s.input := rfl
@[simp] theorem State.emitLun_out (s : State) (pins : Byte) : (s.emitLun pins).out = s.out ++ [⟨s.phaseStart, s.samplenum, .lun pins⟩] := rfl
@[simp] theorem State.emitLun_cfgError (s : State) (pins : Byte) : (s.emitLun pins).cfgError = s.cfgError := rfl

/-! ### `State.emitRun` -/
@[simp] theorem State.emitRun_runState (s : State) (c : Code) : (s.emitRun c).runState = s.runState := rfl
@[simp] theorem State.emitRun_errCfg (s : State) (c : Code) : (s.emitRun c).errCfg = s.errCfg := rfl
@[simp] theorem State.emitRun_samplenum (s : State) (c : Code) : (s.emitRun c).samplenum = s.samplenum := rfl
@[simp] theorem State.emitRun_prev (s : State) (c : Code) : (s.emitRun c).prev = s.prev := rfl
@[simp] theorem State.emitRun_prevValid (s : State) (c : Code) : (s.emitRun c).prevValid = s.prevValid := rfl
@[simp] theorem State.emitRun_phase (s : State) (c : Code) : (s.emitRun c).phase = s.phase := rfl
@[simp] theorem State.emitRun_phaseStart (s : State) (c : Code) : (s.emitRun c).phaseStart = s.phaseStart := rfl
@[simp] theorem State.emitRun_arbPins (s : State) (c : Code) : (s.emitRun c).arbPins = s.arbPins := rfl
@[simp] theorem State.emitRun_subphase (s : State) (c : Code) : (s.emitRun c).subphase = s.subphase := rfl
@[simp] theorem State.emitRun_runStart (s : State) (c : Code) : (s.emitRun c).runStart = s.runStart := rfl
@[simp] theorem State.emitRun_byteCount (s : State) (c : Code) : (s.emitRun c).byteCount = s.byteCount := rfl
@[simp] theorem State.emitRun_byteRunStart (s : State) (c : Code) : (s.emitRun c).byteRunStart = s.byteRunStart := rfl
@[simp] theorem State.emitRun_dataLatch (s : State) (c : Code) : (s.emitRun c).dataLatch = s.dataLatch := rfl
@[simp] theorem State.emitRun_latchValid (s : State) (c : Code) : (s.emitRun c).latchValid = s.latchValid := rfl
@[simp] theorem State.emitRun_dbPending (s : State) (c : Code) : (s.emitRun c).dbPending = s.dbPending := rfl
@[simp] theorem State.emitRun_dbCnt (s : State) (c : Code) : (s.emitRun c).dbCnt = s.dbCnt := rfl
@[simp] theorem State.emitRun_bsyHighCnt (s : State) (c : Code) : (s.emitRun c).bsyHighCnt = s.bsyHighCnt := rfl
@[simp] theorem State.emitRun_cdb (s : State) (c : Code) : (s.emitRun c).cdb = s.cdb := rfl
@[simp] theorem State.emitRun_cdbLen (s : State) (c : Code) : (s.emitRun c).cdbLen = s.cdbLen := rfl
@[simp] theorem State.emitRun_cdbOverflow (s : State) (c : Code) : (s.emitRun c).cdbOverflow = s.cdbOverflow := rfl
@[simp] theorem State.emitRun_cmdClass (s : State) (c : Code) : (s.emitRun c).cmdClass = s.cmdClass := rfl
@[simp] theorem State.emitRun_cfg (s : State) (c : Code) : (s.emitRun c).cfg = s.cfg := rfl
@[simp] theorem State.emitRun_params (s : State) (c : Code) : (s.emitRun c).params = s.params := rfl
@[simp] theorem State.emitRun_input (s : State) (c : Code) : (s.emitRun c).input = s.input := rfl
@[simp] theorem State.emitRun_out (s : State) (c : Code) : (s.emitRun c).out = s.out ++ [⟨s.runStart, s.samplenum, .subphase c s.byteCount⟩] := rfl
@[simp] theorem State.emitRun_cfgError (s : State) (c : Code) : (s.emitRun c).cfgError = s.cfgError := rfl

/-! ### `State.latch` -/
@[simp] theorem State.latch_runState (s : State) (d : Byte) : (s.latch d).runState = s.runState := rfl
@[simp] theorem State.latch_errCfg (s : State) (d : Byte) : (s.latch d).errCfg = s.errCfg := rfl
@[simp] theorem State.latch_samplenum (s : State) (d : Byte) : (s.latch d).samplenum = s.samplenum := rfl
@[simp] theorem State.latch_prev (s : State) (d : Byte) : (s.latch d).prev = s.prev := rfl
@[simp] theorem State.latch_prevValid (s : State) (d : Byte) : (s.latch d).prevValid = s.prevValid := rfl
@[simp] theorem State.latch_phase (s : State) (d : Byte) : (s.latch d).phase = s.phase := rfl
@[simp] theorem State.latch_phaseStart (s : State) (d : Byte) : (s.latch d).phaseStart = s.phaseStart := rfl
@[simp] theorem State.latch_arbPins (s : State) (d : Byte) : (s.latch d).arbPins = s.arbPins := rfl
@[simp] theorem State.latch_subphase (s : State) (d : Byte) : (s.latch d).subphase = s.subphase := rfl
@[simp] theorem State.latch_runStart (s : State) (d : Byte) : (s.latch d).runStart = s.runStart := rfl
@[simp] theorem State.latch_byteCount (s : State) (d : Byte) : (s.latch d).byteCount = s.byteCount := rfl
@[simp] theorem State.latch_byteRunStart (s : State) (d : Byte) : (s.latch d).byteRunStart = s.byteRunStart := rfl
@[simp] theorem State.latch_dataLatch (s : State) (d : Byte) : (s.latch d).dataLatch = captureByte d := rfl
@[simp] theorem State.latch_latchValid (s : State) (d : Byte) : (s.latch d).latchValid = true := rfl
@[simp] theorem State.latch_dbPending (s : State) (d : Byte) : (s.latch d).dbPending = s.dbPending := rfl
@[simp] theorem State.latch_dbCnt (s : State) (d : Byte) : (s.latch d).dbCnt = s.dbCnt := rfl
@[simp] theorem State.latch_bsyHighCnt (s : State) (d : Byte) : (s.latch d).bsyHighCnt = s.bsyHighCnt := rfl
@[simp] theorem State.latch_cdb (s : State) (d : Byte) : (s.latch d).cdb = s.cdb := rfl
@[simp] theorem State.latch_cdbLen (s : State) (d : Byte) : (s.latch d).cdbLen = s.cdbLen := rfl
@[simp] theorem State.latch_cdbOverflow (s : State) (d : Byte) : (s.latch d).cdbOverflow = s.cdbOverflow := rfl
@[simp] theorem State.latch_cmdClass (s : State) (d : Byte) : (s.latch d).cmdClass = s.cmdClass := rfl
@[simp] theorem State.latch_cfg (s : State) (d : Byte) : (s.latch d).cfg = s.cfg := rfl
@[simp] theorem State.latch_params (s : State) (d : Byte) : (s.latch d).params = s.params := rfl
@[simp] theorem State.latch_input (s : State) (d : Byte) : (s.latch d).input = s.input := rfl
@[simp] theorem State.latch_out (s : State) (d : Byte) : (s.latch d).out = s.out := rfl
@[simp] theorem State.latch_cfgError (s : State) (d : Byte) : (s.latch d).cfgError = s.cfgError := rfl

/-! ### `State.countByte` -/
@[simp] theorem State.countByte_runState (s : State) : (s.countByte).runState = s.runState := rfl
@[simp] theorem State.countByte_errCfg (s : State) : (s.countByte).errCfg = s.errCfg := rfl
@[simp] theorem State.countByte_samplenum (s : State) : (s.countByte).samplenum = s.samplenum := rfl
@[simp] theorem State.countByte_prev (s : State) : (s.countByte).prev = s.prev := rfl
@[simp] theorem State.countByte_prevValid (s : State) : (s.countByte).prevValid = s.prevValid := rfl
@[simp] theorem State.countByte_phase (s : State) : (s.countByte).phase = s.phase := rfl
@[simp] theorem State.countByte_phaseStart (s : State) : (s.countByte).phaseStart = s.phaseStart := rfl
@[simp] theorem State.countByte_arbPins (s : State) : (s.countByte).arbPins = s.arbPins := rfl
@[simp] theorem State.countByte_subphase (s : State) : (s.countByte).subphase = s.subphase := rfl
@[simp] theorem State.countByte_runStart (s : State) : (s.countByte).runStart = s.runStart := rfl
@[simp] theorem State.countByte_byteCount (s : State) : (s.countByte).byteCount = s.byteCount + 1 := rfl
@[simp] theorem State.countByte_byteRunStart (s : State) : (s.countByte).byteRunStart = s.samplenum := rfl
@[simp] theorem State.countByte_dataLatch (s : State) : (s.countByte).dataLatch = s.dataLatch := rfl
@[simp] theorem State.countByte_latchValid (s : State) : (s.countByte).latchValid = false := rfl
@[simp] theorem State.countByte_dbPending (s : State) : (s.countByte).dbPending = s.dbPending := rfl
@[simp] theorem State.countByte_dbCnt (s : State) : (s.countByte).dbCnt = s.dbCnt := rfl
@[simp] theorem State.countByte_bsyHighCnt (s : State) : (s.countByte).bsyHighCnt = s.bsyHighCnt := rfl
@[simp] theorem State.countByte_cdb (s : State) : (s.countByte).cdb = s.cdb := rfl
@[simp] theorem State.countByte_cdbLen (s : State) : (s.countByte).cdbLen = s.cdbLen := rfl
@[simp] theorem State.countByte_cdbOverflow (s : State) : (s.countByte).cdbOverflow = s.cdbOverflow := rfl
@[simp] theorem State.countByte_cmdClass (s : State) : (s.countByte).cmdClass = s.cmdClass := rfl
@[simp] theorem State.countByte_cfg (s : State) : (s.countByte).cfg = s.cfg := rfl
@[simp] theorem State.countByte_params (s : State) : (s.countByte).params = s.params := rfl
@[simp] theorem State.countByte_input (s : State) : (s.countByte).input = s.input := rfl
@[simp] theorem State.countByte_out (s : State) : (s.countByte).out = s.out := rfl
@[simp] theorem State.countByte_cfgError (s : State) : (s.countByte).cfgError = s.cfgError := rfl

/-! ### `State.openWindow` -/
@[simp] theorem State.openWindow_runState (s : State) : (s.openWindow).runState = s.runState := rfl
@[simp] theorem State.openWindow_errCfg (s : State) : (s.openWindow).errCfg = s.errCfg := rfl
@[simp] theorem State.openWindow_samplenum (s : State) : (s.openWindow).samplenum = s.samplenum := rfl
@[simp] theorem State.openWindow_prev (s : State) : (s.openWindow).prev = s.prev := rfl
@[simp] theorem State.openWindow_prevValid (s : State) : (s.openWindow).prevValid = s.prevValid := rfl
@[simp] theorem State.openWindow_phase (s : State) : (s.openWindow).phase = s.phase := rfl
@[simp] theorem State.openWindow_phaseStart (s : State) : (s.openWindow).phaseStart = s.phaseStart := rfl
@[simp] theorem State.openWindow_arbPins (s : State) : (s.openWindow).arbPins = s.arbPins := rfl
@[simp] theorem State.openWindow_subphase (s : State) : (s.openWindow).subphase = s.subphase := rfl
@[simp] theorem State.openWindow_runStart (s : State) : (s.openWindow).runStart = s.runStart := rfl
@[simp] theorem State.openWindow_byteCount (s : State) : (s.openWindow).byteCount = s.byteCount := rfl
@[simp] theorem State.openWindow_byteRunStart (s : State) : (s.openWindow).byteRunStart = s.byteRunStart := rfl
@[simp] theorem State.openWindow_dataLatch (s : State) : (s.openWindow).dataLatch = s.dataLatch := rfl
@[simp] theorem State.openWindow_latchValid (s : State) : (s.openWindow).latchValid = s.latchValid := rfl
@[simp] theorem State.openWindow_dbPending (s : State) : (s.openWindow).dbPending = true := rfl
@[simp] theorem State.openWindow_dbCnt (s : State) : (s.openWindow).dbCnt = s.params.debounceWindow := rfl
@[simp] theorem State.openWindow_bsyHighCnt (s : State) : (s.openWindow).bsyHighCnt = s.bsyHighCnt := rfl
@[simp] theorem State.openWindow_cdb (s : State) : (s.openWindow).cdb = s.cdb := rfl
@[simp] theorem State.openWindow_cdbLen (s : State) : (s.openWindow).cdbLen = s.cdbLen := rfl
@[simp] theorem State.openWindow_cdbOverflow (s : State) : (s.openWindow).cdbOverflow = s.cdbOverflow := rfl
@[simp] theorem State.openWindow_cmdClass (s : State) : (s.openWindow).cmdClass = s.cmdClass := rfl
@[simp] theorem State.openWindow_cfg (s : State) : (s.openWindow).cfg = s.cfg := rfl
@[simp] theorem State.openWindow_params (s : State) : (s.openWindow).params = s.params := rfl
@[simp] theorem State.openWindow_input (s : State) : (s.openWindow).input = s.input := rfl
@[simp] theorem State.openWindow_out (s : State) : (s.openWindow).out = s.out := rfl
@[simp] theorem State.openWindow_cfgError (s : State) : (s.openWindow).cfgError = s.cfgError := rfl

/-! ### `State.closeWindow` -/
@[simp] theorem State.closeWindow_runState (s : State) : (s.closeWindow).runState = s.runState := rfl
@[simp] theorem State.closeWindow_errCfg (s : State) : (s.closeWindow).errCfg = s.errCfg := rfl
@[simp] theorem State.closeWindow_samplenum (s : State) : (s.closeWindow).samplenum = s.samplenum := rfl
@[simp] theorem State.closeWindow_prev (s : State) : (s.closeWindow).prev = s.prev := rfl
@[simp] theorem State.closeWindow_prevValid (s : State) : (s.closeWindow).prevValid = s.prevValid := rfl
@[simp] theorem State.closeWindow_phase (s : State) : (s.closeWindow).phase = s.phase := rfl
@[simp] theorem State.closeWindow_phaseStart (s : State) : (s.closeWindow).phaseStart = s.phaseStart := rfl
@[simp] theorem State.closeWindow_arbPins (s : State) : (s.closeWindow).arbPins = s.arbPins := rfl
@[simp] theorem State.closeWindow_subphase (s : State) : (s.closeWindow).subphase = s.subphase := rfl
@[simp] theorem State.closeWindow_runStart (s : State) : (s.closeWindow).runStart = s.runStart := rfl
@[simp] theorem State.closeWindow_byteCount (s : State) : (s.closeWindow).byteCount = s.byteCount := rfl
@[simp] theorem State.closeWindow_byteRunStart (s : State) : (s.closeWindow).byteRunStart = s.byteRunStart := rfl
@[simp] theorem State.closeWindow_dataLatch (s : State) : (s.closeWindow).dataLatch = s.dataLatch := rfl
@[simp] theorem State.closeWindow_latchValid (s : State) : (s.closeWindow).latchValid = s.latchValid := rfl
@[simp] theorem State.closeWindow_dbPending (s : State) : (s.closeWindow).dbPending = false := rfl
@[simp] theorem State.closeWindow_dbCnt (s : State) : (s.closeWindow).dbCnt = s.dbCnt := rfl
@[simp] theorem State.closeWindow_bsyHighCnt (s : State) : (s.closeWindow).bsyHighCnt = s.bsyHighCnt := rfl
@[simp] theorem State.closeWindow_cdb (s : State) : (s.closeWindow).cdb = s.cdb := rfl
@[simp] theorem State.closeWindow_cdbLen (s : State) : (s.closeWindow).cdbLen = s.cdbLen := rfl
@[simp] theorem State.closeWindow_cdbOverflow (s : State) : (s.closeWindow).cdbOverflow = s.cdbOverflow := rfl
@[simp] theorem State.closeWindow_cmdClass (s : State) : (s.closeWindow).cmdClass = s.cmdClass := rfl
@[simp] theorem State.closeWindow_cfg (s : State) : (s.closeWindow).cfg = s.cfg := rfl
@[simp] theorem State.closeWindow_params (s : State) : (s.closeWindow).params = s.params := rfl
@[simp] theorem State.closeWindow_input (s : State) : (s.closeWindow).input = s.input := rfl
@[simp] theorem State.closeWindow_out (s : State) : (s.closeWindow).out = s.out := rfl
@[simp] theorem State.closeWindow_cfgError (s : State) : (s.closeWindow).cfgError = s.cfgError := rfl

/-! ### `State.countWindow` -/
@[simp] theorem State.countWindow_runState (s : State) : (s.countWindow).runState = s.runState := rfl
@[simp] theorem State.countWindow_errCfg (s : State) : (s.countWindow).errCfg = s.errCfg := rfl
@[simp] theorem State.countWindow_samplenum (s : State) : (s.countWindow).samplenum = s.samplenum := rfl
@[simp] theorem State.countWindow_prev (s : State) : (s.countWindow).prev = s.prev := rfl
@[simp] theorem State.countWindow_prevValid (s : State) : (s.countWindow).prevValid = s.prevValid := rfl
@[simp] theorem State.countWindow_phase (s : State) : (s.countWindow).phase = s.phase := rfl
@[simp] theorem State.countWindow_phaseStart (s : State) : (s.countWindow).phaseStart = s.phaseStart := rfl
@[simp] theorem State.countWindow_arbPins (s : State) : (s.countWindow).arbPins = s.arbPins := rfl
@[simp] theorem State.countWindow_subphase (s : State) : (s.countWindow).subphase = s.subphase := rfl
@[simp] theorem State.countWindow_runStart (s : State) : (s.countWindow).runStart = s.runStart := rfl
@[simp] theorem State.countWindow_byteCount (s : State) : (s.countWindow).byteCount = s.byteCount := rfl
@[simp] theorem State.countWindow_byteRunStart (s : State) : (s.countWindow).byteRunStart = s.byteRunStart := rfl
@[simp] theorem State.countWindow_dataLatch (s : State) : (s.countWindow).dataLatch = s.dataLatch := rfl
@[simp] theorem State.countWindow_latchValid (s : State) : (s.countWindow).latchValid = s.latchValid := rfl
@[simp] theorem State.countWindow_dbPending (s : State) : (s.countWindow).dbPending = s.dbPending := rfl
@[simp] theorem State.countWindow_dbCnt (s : State) : (s.countWindow).dbCnt = s.dbCnt - 1 := rfl
@[simp] theorem State.countWindow_bsyHighCnt (s : State) : (s.countWindow).bsyHighCnt = s.bsyHighCnt := rfl
@[simp] theorem State.countWindow_cdb (s : State) : (s.countWindow).cdb = s.cdb := rfl
@[simp] theorem State.countWindow_cdbLen (s : State) : (s.countWindow).cdbLen = s.cdbLen := rfl
@[simp] theorem State.countWindow_cdbOverflow (s : State) : (s.countWindow).cdbOverflow = s.cdbOverflow := rfl
@[simp] theorem State.countWindow_cmdClass (s : State) : (s.countWindow).cmdClass = s.cmdClass := rfl
@[simp] theorem State.countWindow_cfg (s : State) : (s.countWindow).cfg = s.cfg := rfl
@[simp] theorem State.countWindow_params (s : State) : (s.countWindow).params = s.params := rfl
@[simp] theorem State.countWindow_input (s : State) : (s.countWindow).input = s.input := rfl
@[simp] theorem State.countWindow_out (s : State) : (s.countWindow).out = s.out := rfl
@[simp] theorem State.countWindow_cfgError (s : State) : (s.countWindow).cfgError = s.cfgError := rfl

/-! ### `State.countBsy` -/
@[simp] theorem State.countBsy_runState (s : State) (high : Bool) : (s.countBsy high).runState = s.runState := rfl
@[simp] theorem State.countBsy_errCfg (s : State) (high : Bool) : (s.countBsy high).errCfg = s.errCfg := rfl
@[simp] theorem State.countBsy_samplenum (s : State) (high : Bool) : (s.countBsy high).samplenum = s.samplenum := rfl
@[simp] theorem State.countBsy_prev (s : State) (high : Bool) : (s.countBsy high).prev = s.prev := rfl
@[simp] theorem State.countBsy_prevValid (s : State) (high : Bool) : (s.countBsy high).prevValid = s.prevValid := rfl
@[simp] theorem State.countBsy_phase (s : State) (high : Bool) : (s.countBsy high).phase = s.phase := rfl
@[simp] theorem State.countBsy_phaseStart (s : State) (high : Bool) : (s.countBsy high).phaseStart = s.phaseStart := rfl
@[simp] theorem State.countBsy_arbPins (s : State) (high : Bool) : (s.countBsy high).arbPins = s.arbPins := rfl
@[simp] theorem State.countBsy_subphase (s : State) (high : Bool) : (s.countBsy high).subphase = s.subphase := rfl
@[simp] theorem State.countBsy_runStart (s : State) (high : Bool) : (s.countBsy high).runStart = s.runStart := rfl
@[simp] theorem State.countBsy_byteCount (s : State) (high : Bool) : (s.countBsy high).byteCount = s.byteCount := rfl
@[simp] theorem State.countBsy_byteRunStart (s : State) (high : Bool) : (s.countBsy high).byteRunStart = s.byteRunStart := rfl
@[simp] theorem State.countBsy_dataLatch (s : State) (high : Bool) : (s.countBsy high).dataLatch = s.dataLatch := rfl
@[simp] theorem State.countBsy_latchValid (s : State) (high : Bool) : (s.countBsy high).latchValid = s.latchValid := rfl
@[simp] theorem State.countBsy_dbPending (s : State) (high : Bool) : (s.countBsy high).dbPending = s.dbPending := rfl
@[simp] theorem State.countBsy_dbCnt (s : State) (high : Bool) : (s.countBsy high).dbCnt = s.dbCnt := rfl
@[simp] theorem State.countBsy_bsyHighCnt (s : State) (high : Bool) : (s.countBsy high).bsyHighCnt = if high then s.bsyHighCnt + 1 else 0 := rfl
@[simp] theorem State.countBsy_cdb (s : State) (high : Bool) : (s.countBsy high).cdb = s.cdb := rfl
@[simp] theorem State.countBsy_cdbLen (s : State) (high : Bool) : (s.countBsy high).cdbLen = s.cdbLen := rfl
@[simp] theorem State.countBsy_cdbOverflow (s : State) (high : Bool) : (s.countBsy high).cdbOverflow = s.cdbOverflow := rfl
@[simp] theorem State.countBsy_cmdClass (s : State) (high : Bool) : (s.countBsy high).cmdClass = s.cmdClass := rfl
@[simp] theorem State.countBsy_cfg (s : State) (high : Bool) : (s.countBsy high).cfg = s.cfg := rfl
@[simp] theorem State.countBsy_params (s : State) (high : Bool) : (s.countBsy high).params = s.params := rfl
@[simp] theorem State.countBsy_input (s : State) (high : Bool) : (s.countBsy high).input = s.input := rfl
@[simp] theorem State.countBsy_out (s : State) (high : Bool) : (s.countBsy high).out = s.out := rfl
@[simp] theorem State.countBsy_cfgError (s : State) (high : Bool) : (s.countBsy high).cfgError = s.cfgError := rfl

/-! ### `State.clearCdb` -/
@[simp] theorem State.clearCdb_runState (s : State) (b : Byte) : (s.clearCdb b).runState = s.runState := rfl
@[simp] theorem State.clearCdb_errCfg (s : State) (b : Byte) : (s.clearCdb b).errCfg = s.errCfg := rfl
@[simp] theorem State.clearCdb_samplenum (s : State) (b : Byte) : (s.clearCdb b).samplenum = s.samplenum := rfl
@[simp] theorem State.clearCdb_prev (s : State) (b : Byte) : (s.clearCdb b).prev = s.prev := rfl
@[simp] theorem State.clearCdb_prevValid (s : State) (b : Byte) : (s.clearCdb b).prevValid = s.prevValid := rfl
@[simp] theorem State.clearCdb_phase (s : State) (b : Byte) : (s.clearCdb b).phase = s.phase := rfl
@[simp] theorem State.clearCdb_phaseStart (s : State) (b : Byte) : (s.clearCdb b).phaseStart = s.phaseStart := rfl
@[simp] theorem State.clearCdb_arbPins (s : State) (b : Byte) : (s.clearCdb b).arbPins = s.arbPins := rfl
@[simp] theorem State.clearCdb_subphase (s : State) (b : Byte) : (s.clearCdb b).subphase = s.subphase := rfl
@[simp] theorem State.clearCdb_runStart (s : State) (b : Byte) : (s.clearCdb b).runStart = s.runStart := rfl
@[simp] theorem State.clearCdb_byteCount (s : State) (b : Byte) : (s.clearCdb b).byteCount = s.byteCount := rfl
@[simp] theorem State.clearCdb_byteRunStart (s : State) (b : Byte) : (s.clearCdb b).byteRunStart = s.byteRunStart := rfl
@[simp] theorem State.clearCdb_dataLatch (s : State) (b : Byte) : (s.clearCdb b).dataLatch = s.dataLatch := rfl
@[simp] theorem State.clearCdb_latchValid (s : State) (b : Byte) : (s.clearCdb b).latchValid = s.latchValid := rfl
@[simp] theorem State.clearCdb_dbPending (s : State) (b : Byte) : (s.clearCdb b).dbPending = s.dbPending := rfl
@[simp] theorem State.clearCdb_dbCnt (s : State) (b : Byte) : (s.clearCdb b).dbCnt = s.dbCnt := rfl
@[simp] theorem State.clearCdb_bsyHighCnt (s : State) (b : Byte) : (s.clearCdb b).bsyHighCnt = s.bsyHighCnt := rfl
@[simp] theorem State.clearCdb_cdb (s : State) (b : Byte) : (s.clearCdb b).cdb = s.cdb := rfl
@[simp] theorem State.clearCdb_cdbLen (s : State) (b : Byte) : (s.clearCdb b).cdbLen = 0 := rfl
@[simp] theorem State.clearCdb_cdbOverflow (s : State) (b : Byte) : (s.clearCdb b).cdbOverflow = false := rfl
@[simp] theorem State.clearCdb_cmdClass (s : State) (b : Byte) : (s.clearCdb b).cmdClass = classOf s.params b := rfl
@[simp] theorem State.clearCdb_cfg (s : State) (b : Byte) : (s.clearCdb b).cfg = s.cfg := rfl
@[simp] theorem State.clearCdb_params (s : State) (b : Byte) : (s.clearCdb b).params = s.params := rfl
@[simp] theorem State.clearCdb_input (s : State) (b : Byte) : (s.clearCdb b).input = s.input := rfl
@[simp] theorem State.clearCdb_out (s : State) (b : Byte) : (s.clearCdb b).out = s.out := rfl
@[simp] theorem State.clearCdb_cfgError (s : State) (b : Byte) : (s.clearCdb b).cfgError = s.cfgError := rfl

/-! ### `State.enterPhase` -/
@[simp] theorem State.enterPhase_runState (s : State) (p : Phase) : (s.enterPhase p).runState = s.runState := rfl
@[simp] theorem State.enterPhase_errCfg (s : State) (p : Phase) : (s.enterPhase p).errCfg = s.errCfg := rfl
@[simp] theorem State.enterPhase_samplenum (s : State) (p : Phase) : (s.enterPhase p).samplenum = s.samplenum := rfl
@[simp] theorem State.enterPhase_prev (s : State) (p : Phase) : (s.enterPhase p).prev = s.prev := rfl
@[simp] theorem State.enterPhase_prevValid (s : State) (p : Phase) : (s.enterPhase p).prevValid = s.prevValid := rfl
@[simp] theorem State.enterPhase_phase (s : State) (p : Phase) : (s.enterPhase p).phase = p := rfl
@[simp] theorem State.enterPhase_phaseStart (s : State) (p : Phase) : (s.enterPhase p).phaseStart = s.samplenum := rfl
@[simp] theorem State.enterPhase_arbPins (s : State) (p : Phase) : (s.enterPhase p).arbPins = s.arbPins := rfl
@[simp] theorem State.enterPhase_subphase (s : State) (p : Phase) : (s.enterPhase p).subphase = s.subphase := rfl
@[simp] theorem State.enterPhase_runStart (s : State) (p : Phase) : (s.enterPhase p).runStart = s.runStart := rfl
@[simp] theorem State.enterPhase_byteCount (s : State) (p : Phase) : (s.enterPhase p).byteCount = s.byteCount := rfl
@[simp] theorem State.enterPhase_byteRunStart (s : State) (p : Phase) : (s.enterPhase p).byteRunStart = s.byteRunStart := rfl
@[simp] theorem State.enterPhase_dataLatch (s : State) (p : Phase) : (s.enterPhase p).dataLatch = s.dataLatch := rfl
@[simp] theorem State.enterPhase_latchValid (s : State) (p : Phase) : (s.enterPhase p).latchValid = s.latchValid := rfl
@[simp] theorem State.enterPhase_dbPending (s : State) (p : Phase) : (s.enterPhase p).dbPending = s.dbPending := rfl
@[simp] theorem State.enterPhase_dbCnt (s : State) (p : Phase) : (s.enterPhase p).dbCnt = s.dbCnt := rfl
@[simp] theorem State.enterPhase_bsyHighCnt (s : State) (p : Phase) : (s.enterPhase p).bsyHighCnt = s.bsyHighCnt := rfl
@[simp] theorem State.enterPhase_cdb (s : State) (p : Phase) : (s.enterPhase p).cdb = s.cdb := rfl
@[simp] theorem State.enterPhase_cdbLen (s : State) (p : Phase) : (s.enterPhase p).cdbLen = s.cdbLen := rfl
@[simp] theorem State.enterPhase_cdbOverflow (s : State) (p : Phase) : (s.enterPhase p).cdbOverflow = s.cdbOverflow := rfl
@[simp] theorem State.enterPhase_cmdClass (s : State) (p : Phase) : (s.enterPhase p).cmdClass = s.cmdClass := rfl
@[simp] theorem State.enterPhase_cfg (s : State) (p : Phase) : (s.enterPhase p).cfg = s.cfg := rfl
@[simp] theorem State.enterPhase_params (s : State) (p : Phase) : (s.enterPhase p).params = s.params := rfl
@[simp] theorem State.enterPhase_input (s : State) (p : Phase) : (s.enterPhase p).input = s.input := rfl
@[simp] theorem State.enterPhase_out (s : State) (p : Phase) : (s.enterPhase p).out = s.out := rfl
@[simp] theorem State.enterPhase_cfgError (s : State) (p : Phase) : (s.enterPhase p).cfgError = s.cfgError := rfl

/-! ### `State.initTransfer` -/
@[simp] theorem State.initTransfer_runState (s : State) (c : Code) : (s.initTransfer c).runState = s.runState := rfl
@[simp] theorem State.initTransfer_errCfg (s : State) (c : Code) : (s.initTransfer c).errCfg = s.errCfg := rfl
@[simp] theorem State.initTransfer_samplenum (s : State) (c : Code) : (s.initTransfer c).samplenum = s.samplenum := rfl
@[simp] theorem State.initTransfer_prev (s : State) (c : Code) : (s.initTransfer c).prev = s.prev := rfl
@[simp] theorem State.initTransfer_prevValid (s : State) (c : Code) : (s.initTransfer c).prevValid = s.prevValid := rfl
@[simp] theorem State.initTransfer_phase (s : State) (c : Code) : (s.initTransfer c).phase = s.phase := rfl
@[simp] theorem State.initTransfer_phaseStart (s : State) (c : Code) : (s.initTransfer c).phaseStart = s.phaseStart := rfl
@[simp] theorem State.initTransfer_arbPins (s : State) (c : Code) : (s.initTransfer c).arbPins = s.arbPins := rfl
@[simp] theorem State.initTransfer_subphase (s : State) (c : Code) : (s.initTransfer c).subphase = c := rfl
@[simp] theorem State.initTransfer_runStart (s : State) (c : Code) : (s.initTransfer c).runStart = s.samplenum := rfl
@[simp] theorem State.initTransfer_byteCount (s : State) (c : Code) : (s.initTransfer c).byteCount = 0 := rfl
@[simp] theorem State.initTransfer_byteRunStart (s : State) (c : Code) : (s.initTransfer c).byteRunStart = s.samplenum := rfl
@[simp] theorem State.initTransfer_dataLatch (s : State) (c : Code) : (s.initTransfer c).dataLatch = s.dataLatch := rfl
@[simp] theorem State.initTransfer_latchValid (s : State) (c : Code) : (s.initTransfer c).latchValid = false := rfl
@[simp] theorem State.initTransfer_dbPending (s : State) (c : Code) : (s.initTransfer c).dbPending = false := rfl
@[simp] theorem State.initTransfer_dbCnt (s : State) (c : Code) : (s.initTransfer c).dbCnt = 0 := rfl
@[simp] theorem State.initTransfer_bsyHighCnt (s : State) (c : Code) : (s.initTransfer c).bsyHighCnt = 0 := rfl
@[simp] theorem State.initTransfer_cdb (s : State) (c : Code) : (s.initTransfer c).cdb = s.cdb := rfl
@[simp] theorem State.initTransfer_cdbLen (s : State) (c : Code) : (s.initTransfer c).cdbLen = s.cdbLen := rfl
@[simp] theorem State.initTransfer_cdbOverflow (s : State) (c : Code) : (s.initTransfer c).cdbOverflow = s.cdbOverflow := rfl
@[simp] theorem State.initTransfer_cmdClass (s : State) (c : Code) : (s.initTransfer c).cmdClass = s.cmdClass := rfl
@[simp] theorem State.initTransfer_cfg (s : State) (c : Code) : (s.initTransfer c).cfg = s.cfg := rfl
@[simp] theorem State.initTransfer_params (s : State) (c : Code) : (s.initTransfer c).params = s.params := rfl
@[simp] theorem State.initTransfer_input (s : State) (c : Code) : (s.initTransfer c).input = s.input := rfl
@[simp] theorem State.initTransfer_out (s : State) (c : Code) : (s.initTransfer c).out = s.out := rfl
@[simp] theorem State.initTransfer_cfgError (s : State) (c : Code) : (s.initTransfer c).cfgError = s.cfgError := rfl

/-! ### `State.clearFilters` -/
@[simp] theorem State.clearFilters_runState (s : State) : (s.clearFilters).runState = s.runState := rfl
@[simp] theorem State.clearFilters_errCfg (s : State) : (s.clearFilters).errCfg = s.errCfg := rfl
@[simp] theorem State.clearFilters_samplenum (s : State) : (s.clearFilters).samplenum = s.samplenum := rfl
@[simp] theorem State.clearFilters_prev (s : State) : (s.clearFilters).prev = s.prev := rfl
@[simp] theorem State.clearFilters_prevValid (s : State) : (s.clearFilters).prevValid = s.prevValid := rfl
@[simp] theorem State.clearFilters_phase (s : State) : (s.clearFilters).phase = s.phase := rfl
@[simp] theorem State.clearFilters_phaseStart (s : State) : (s.clearFilters).phaseStart = s.phaseStart := rfl
@[simp] theorem State.clearFilters_arbPins (s : State) : (s.clearFilters).arbPins = s.arbPins := rfl
@[simp] theorem State.clearFilters_subphase (s : State) : (s.clearFilters).subphase = s.subphase := rfl
@[simp] theorem State.clearFilters_runStart (s : State) : (s.clearFilters).runStart = s.runStart := rfl
@[simp] theorem State.clearFilters_byteCount (s : State) : (s.clearFilters).byteCount = s.byteCount := rfl
@[simp] theorem State.clearFilters_byteRunStart (s : State) : (s.clearFilters).byteRunStart = s.byteRunStart := rfl
@[simp] theorem State.clearFilters_dataLatch (s : State) : (s.clearFilters).dataLatch = s.dataLatch := rfl
@[simp] theorem State.clearFilters_latchValid (s : State) : (s.clearFilters).latchValid = s.latchValid := rfl
@[simp] theorem State.clearFilters_dbPending (s : State) : (s.clearFilters).dbPending = false := rfl
@[simp] theorem State.clearFilters_dbCnt (s : State) : (s.clearFilters).dbCnt = 0 := rfl
@[simp] theorem State.clearFilters_bsyHighCnt (s : State) : (s.clearFilters).bsyHighCnt = 0 := rfl
@[simp] theorem State.clearFilters_cdb (s : State) : (s.clearFilters).cdb = s.cdb := rfl
@[simp] theorem State.clearFilters_cdbLen (s : State) : (s.clearFilters).cdbLen = s.cdbLen := rfl
@[simp] theorem State.clearFilters_cdbOverflow (s : State) : (s.clearFilters).cdbOverflow = s.cdbOverflow := rfl
@[simp] theorem State.clearFilters_cmdClass (s : State) : (s.clearFilters).cmdClass = s.cmdClass := rfl
@[simp] theorem State.clearFilters_cfg (s : State) : (s.clearFilters).cfg = s.cfg := rfl
@[simp] theorem State.clearFilters_params (s : State) : (s.clearFilters).params = s.params := rfl
@[simp] theorem State.clearFilters_input (s : State) : (s.clearFilters).input = s.input := rfl
@[simp] theorem State.clearFilters_out (s : State) : (s.clearFilters).out = s.out := rfl
@[simp] theorem State.clearFilters_cfgError (s : State) : (s.clearFilters).cfgError = s.cfgError := rfl

/-! ### `State.startRun` -/
@[simp] theorem State.startRun_runState (s : State) (c : Code) : (s.startRun c).runState = s.runState := rfl
@[simp] theorem State.startRun_errCfg (s : State) (c : Code) : (s.startRun c).errCfg = s.errCfg := rfl
@[simp] theorem State.startRun_samplenum (s : State) (c : Code) : (s.startRun c).samplenum = s.samplenum := rfl
@[simp] theorem State.startRun_prev (s : State) (c : Code) : (s.startRun c).prev = s.prev := rfl
@[simp] theorem State.startRun_prevValid (s : State) (c : Code) : (s.startRun c).prevValid = s.prevValid := rfl
@[simp] theorem State.startRun_phase (s : State) (c : Code) : (s.startRun c).phase = s.phase := rfl
@[simp] theorem State.startRun_phaseStart (s : State) (c : Code) : (s.startRun c).phaseStart = s.phaseStart := rfl
@[simp] theorem State.startRun_arbPins (s : State) (c : Code) : (s.startRun c).arbPins = s.arbPins := rfl
@[simp] theorem State.startRun_subphase (s : State) (c : Code) : (s.startRun c).subphase = c := rfl
@[simp] theorem State.startRun_runStart (s : State) (c : Code) : (s.startRun c).runStart = s.samplenum := rfl
@[simp] theorem State.startRun_byteCount (s : State) (c : Code) : (s.startRun c).byteCount = 0 := rfl
@[simp] theorem State.startRun_byteRunStart (s : State) (c : Code) : (s.startRun c).byteRunStart = s.byteRunStart := rfl
@[simp] theorem State.startRun_dataLatch (s : State) (c : Code) : (s.startRun c).dataLatch = s.dataLatch := rfl
@[simp] theorem State.startRun_latchValid (s : State) (c : Code) : (s.startRun c).latchValid = s.latchValid := rfl
@[simp] theorem State.startRun_dbPending (s : State) (c : Code) : (s.startRun c).dbPending = s.dbPending := rfl
@[simp] theorem State.startRun_dbCnt (s : State) (c : Code) : (s.startRun c).dbCnt = s.dbCnt := rfl
@[simp] theorem State.startRun_bsyHighCnt (s : State) (c : Code) : (s.startRun c).bsyHighCnt = s.bsyHighCnt := rfl
@[simp] theorem State.startRun_cdb (s : State) (c : Code) : (s.startRun c).cdb = s.cdb := rfl
@[simp] theorem State.startRun_cdbLen (s : State) (c : Code) : (s.startRun c).cdbLen = s.cdbLen := rfl
@[simp] theorem State.startRun_cdbOverflow (s : State) (c : Code) : (s.startRun c).cdbOverflow = s.cdbOverflow := rfl
@[simp] theorem State.startRun_cmdClass (s : State) (c : Code) : (s.startRun c).cmdClass = s.cmdClass := rfl
@[simp] theorem State.startRun_cfg (s : State) (c : Code) : (s.startRun c).cfg = s.cfg := rfl
@[simp] theorem State.startRun_params (s : State) (c : Code) : (s.startRun c).params = s.params := rfl
@[simp] theorem State.startRun_input (s : State) (c : Code) : (s.startRun c).input = s.input := rfl
@[simp] theorem State.startRun_out (s : State) (c : Code) : (s.startRun c).out = s.out := rfl
@[simp] theorem State.startRun_cfgError (s : State) (c : Code) : (s.startRun c).cfgError = s.cfgError := rfl

/-! ### `State.writeCfg` -/
@[simp] theorem State.writeCfg_runState (s : State) (c : Cfg) : (s.writeCfg c).runState = s.runState := rfl
@[simp] theorem State.writeCfg_errCfg (s : State) (c : Cfg) : (s.writeCfg c).errCfg = s.errCfg := rfl
@[simp] theorem State.writeCfg_samplenum (s : State) (c : Cfg) : (s.writeCfg c).samplenum = s.samplenum := rfl
@[simp] theorem State.writeCfg_prev (s : State) (c : Cfg) : (s.writeCfg c).prev = s.prev := rfl
@[simp] theorem State.writeCfg_prevValid (s : State) (c : Cfg) : (s.writeCfg c).prevValid = s.prevValid := rfl
@[simp] theorem State.writeCfg_phase (s : State) (c : Cfg) : (s.writeCfg c).phase = s.phase := rfl
@[simp] theorem State.writeCfg_phaseStart (s : State) (c : Cfg) : (s.writeCfg c).phaseStart = s.phaseStart := rfl
@[simp] theorem State.writeCfg_arbPins (s : State) (c : Cfg) : (s.writeCfg c).arbPins = s.arbPins := rfl
@[simp] theorem State.writeCfg_subphase (s : State) (c : Cfg) : (s.writeCfg c).subphase = s.subphase := rfl
@[simp] theorem State.writeCfg_runStart (s : State) (c : Cfg) : (s.writeCfg c).runStart = s.runStart := rfl
@[simp] theorem State.writeCfg_byteCount (s : State) (c : Cfg) : (s.writeCfg c).byteCount = s.byteCount := rfl
@[simp] theorem State.writeCfg_byteRunStart (s : State) (c : Cfg) : (s.writeCfg c).byteRunStart = s.byteRunStart := rfl
@[simp] theorem State.writeCfg_dataLatch (s : State) (c : Cfg) : (s.writeCfg c).dataLatch = s.dataLatch := rfl
@[simp] theorem State.writeCfg_latchValid (s : State) (c : Cfg) : (s.writeCfg c).latchValid = s.latchValid := rfl
@[simp] theorem State.writeCfg_dbPending (s : State) (c : Cfg) : (s.writeCfg c).dbPending = s.dbPending := rfl
@[simp] theorem State.writeCfg_dbCnt (s : State) (c : Cfg) : (s.writeCfg c).dbCnt = s.dbCnt := rfl
@[simp] theorem State.writeCfg_bsyHighCnt (s : State) (c : Cfg) : (s.writeCfg c).bsyHighCnt = s.bsyHighCnt := rfl
@[simp] theorem State.writeCfg_cdb (s : State) (c : Cfg) : (s.writeCfg c).cdb = s.cdb := rfl
@[simp] theorem State.writeCfg_cdbLen (s : State) (c : Cfg) : (s.writeCfg c).cdbLen = s.cdbLen := rfl
@[simp] theorem State.writeCfg_cdbOverflow (s : State) (c : Cfg) : (s.writeCfg c).cdbOverflow = s.cdbOverflow := rfl
@[simp] theorem State.writeCfg_cmdClass (s : State) (c : Cfg) : (s.writeCfg c).cmdClass = s.cmdClass := rfl
@[simp] theorem State.writeCfg_cfg (s : State) (c : Cfg) : (s.writeCfg c).cfg = c := rfl
@[simp] theorem State.writeCfg_params (s : State) (c : Cfg) : (s.writeCfg c).params = s.params := rfl
@[simp] theorem State.writeCfg_input (s : State) (c : Cfg) : (s.writeCfg c).input = s.input := rfl
@[simp] theorem State.writeCfg_out (s : State) (c : Cfg) : (s.writeCfg c).out = s.out := rfl
@[simp] theorem State.writeCfg_cfgError (s : State) (c : Cfg) : (s.writeCfg c).cfgError = s.cfgError := rfl

/-! ### `State.clearPorts` -/
@[simp] theorem State.clearPorts_runState (s : State) : (s.clearPorts).runState = s.runState := rfl
@[simp] theorem State.clearPorts_errCfg (s : State) : (s.clearPorts).errCfg = s.errCfg := rfl
@[simp] theorem State.clearPorts_samplenum (s : State) : (s.clearPorts).samplenum = s.samplenum := rfl
@[simp] theorem State.clearPorts_prev (s : State) : (s.clearPorts).prev = s.prev := rfl
@[simp] theorem State.clearPorts_prevValid (s : State) : (s.clearPorts).prevValid = s.prevValid := rfl
@[simp] theorem State.clearPorts_phase (s : State) : (s.clearPorts).phase = s.phase := rfl
@[simp] theorem State.clearPorts_phaseStart (s : State) : (s.clearPorts).phaseStart = s.phaseStart := rfl
@[simp] theorem State.clearPorts_arbPins (s : State) : (s.clearPorts).arbPins = s.arbPins := rfl
@[simp] theorem State.clearPorts_subphase (s : State) : (s.clearPorts).subphase = s.subphase := rfl
@[simp] theorem State.clearPorts_runStart (s : State) : (s.clearPorts).runStart = s.runStart := rfl
@[simp] theorem State.clearPorts_byteCount (s : State) : (s.clearPorts).byteCount = s.byteCount := rfl
@[simp] theorem State.clearPorts_byteRunStart (s : State) : (s.clearPorts).byteRunStart = s.byteRunStart := rfl
@[simp] theorem State.clearPorts_dataLatch (s : State) : (s.clearPorts).dataLatch = s.dataLatch := rfl
@[simp] theorem State.clearPorts_latchValid (s : State) : (s.clearPorts).latchValid = s.latchValid := rfl
@[simp] theorem State.clearPorts_dbPending (s : State) : (s.clearPorts).dbPending = s.dbPending := rfl
@[simp] theorem State.clearPorts_dbCnt (s : State) : (s.clearPorts).dbCnt = s.dbCnt := rfl
@[simp] theorem State.clearPorts_bsyHighCnt (s : State) : (s.clearPorts).bsyHighCnt = s.bsyHighCnt := rfl
@[simp] theorem State.clearPorts_cdb (s : State) : (s.clearPorts).cdb = s.cdb := rfl
@[simp] theorem State.clearPorts_cdbLen (s : State) : (s.clearPorts).cdbLen = s.cdbLen := rfl
@[simp] theorem State.clearPorts_cdbOverflow (s : State) : (s.clearPorts).cdbOverflow = s.cdbOverflow := rfl
@[simp] theorem State.clearPorts_cmdClass (s : State) : (s.clearPorts).cmdClass = s.cmdClass := rfl
@[simp] theorem State.clearPorts_cfg (s : State) : (s.clearPorts).cfg = s.cfg := rfl
@[simp] theorem State.clearPorts_params (s : State) : (s.clearPorts).params = s.params := rfl
@[simp] theorem State.clearPorts_input (s : State) : (s.clearPorts).input = s.input := rfl
@[simp] theorem State.clearPorts_out (s : State) : (s.clearPorts).out = [] := rfl
@[simp] theorem State.clearPorts_cfgError (s : State) : (s.clearPorts).cfgError = false := rfl

/-! ### `State.endFrame` -/
@[simp] theorem State.endFrame_runState (s : State) (f : Frame) : (s.endFrame f).runState = s.runState := rfl
@[simp] theorem State.endFrame_errCfg (s : State) (f : Frame) : (s.endFrame f).errCfg = s.errCfg := rfl
@[simp] theorem State.endFrame_samplenum (s : State) (f : Frame) : (s.endFrame f).samplenum = s.samplenum + 1 := rfl
@[simp] theorem State.endFrame_prev (s : State) (f : Frame) : (s.endFrame f).prev = controlsOf f := rfl
@[simp] theorem State.endFrame_prevValid (s : State) (f : Frame) : (s.endFrame f).prevValid = true := rfl
@[simp] theorem State.endFrame_phase (s : State) (f : Frame) : (s.endFrame f).phase = s.phase := rfl
@[simp] theorem State.endFrame_phaseStart (s : State) (f : Frame) : (s.endFrame f).phaseStart = s.phaseStart := rfl
@[simp] theorem State.endFrame_arbPins (s : State) (f : Frame) : (s.endFrame f).arbPins = s.arbPins := rfl
@[simp] theorem State.endFrame_subphase (s : State) (f : Frame) : (s.endFrame f).subphase = s.subphase := rfl
@[simp] theorem State.endFrame_runStart (s : State) (f : Frame) : (s.endFrame f).runStart = s.runStart := rfl
@[simp] theorem State.endFrame_byteCount (s : State) (f : Frame) : (s.endFrame f).byteCount = s.byteCount := rfl
@[simp] theorem State.endFrame_byteRunStart (s : State) (f : Frame) : (s.endFrame f).byteRunStart = s.byteRunStart := rfl
@[simp] theorem State.endFrame_dataLatch (s : State) (f : Frame) : (s.endFrame f).dataLatch = s.dataLatch := rfl
@[simp] theorem State.endFrame_latchValid (s : State) (f : Frame) : (s.endFrame f).latchValid = s.latchValid := rfl
@[simp] theorem State.endFrame_dbPending (s : State) (f : Frame) : (s.endFrame f).dbPending = s.dbPending := rfl
@[simp] theorem State.endFrame_dbCnt (s : State) (f : Frame) : (s.endFrame f).dbCnt = s.dbCnt := rfl
@[simp] theorem State.endFrame_bsyHighCnt (s : State) (f : Frame) : (s.endFrame f).bsyHighCnt = s.bsyHighCnt := rfl
@[simp] theorem State.endFrame_cdb (s : State) (f : Frame) : (s.endFrame f).cdb = s.cdb := rfl
@[simp] theorem State.endFrame_cdbLen (s : State) (f : Frame) : (s.endFrame f).cdbLen = s.cdbLen := rfl
@[simp] theorem State.endFrame_cdbOverflow (s : State) (f : Frame) : (s.endFrame f).cdbOverflow = s.cdbOverflow := rfl
@[simp] theorem State.endFrame_cmdClass (s : State) (f : Frame) : (s.endFrame f).cmdClass = s.cmdClass := rfl
@[simp] theorem State.endFrame_cfg (s : State) (f : Frame) : (s.endFrame f).cfg = s.cfg := rfl
@[simp] theorem State.endFrame_params (s : State) (f : Frame) : (s.endFrame f).params = s.params := rfl
@[simp] theorem State.endFrame_input (s : State) (f : Frame) : (s.endFrame f).input = s.input := rfl
@[simp] theorem State.endFrame_out (s : State) (f : Frame) : (s.endFrame f).out = s.out := rfl
@[simp] theorem State.endFrame_cfgError (s : State) (f : Frame) : (s.endFrame f).cfgError = s.cfgError := rfl

/-! ### `State.skipFrame` -/
@[simp] theorem State.skipFrame_runState (s : State) : (s.skipFrame).runState = s.runState := rfl
@[simp] theorem State.skipFrame_errCfg (s : State) : (s.skipFrame).errCfg = s.errCfg := rfl
@[simp] theorem State.skipFrame_samplenum (s : State) : (s.skipFrame).samplenum = s.samplenum + 1 := rfl
@[simp] theorem State.skipFrame_prev (s : State) : (s.skipFrame).prev = s.prev := rfl
@[simp] theorem State.skipFrame_prevValid (s : State) : (s.skipFrame).prevValid = s.prevValid := rfl
@[simp] theorem State.skipFrame_phase (s : State) : (s.skipFrame).phase = s.phase := rfl
@[simp] theorem State.skipFrame_phaseStart (s : State) : (s.skipFrame).phaseStart = s.phaseStart := rfl
@[simp] theorem State.skipFrame_arbPins (s : State) : (s.skipFrame).arbPins = s.arbPins := rfl
@[simp] theorem State.skipFrame_subphase (s : State) : (s.skipFrame).subphase = s.subphase := rfl
@[simp] theorem State.skipFrame_runStart (s : State) : (s.skipFrame).runStart = s.runStart := rfl
@[simp] theorem State.skipFrame_byteCount (s : State) : (s.skipFrame).byteCount = s.byteCount := rfl
@[simp] theorem State.skipFrame_byteRunStart (s : State) : (s.skipFrame).byteRunStart = s.byteRunStart := rfl
@[simp] theorem State.skipFrame_dataLatch (s : State) : (s.skipFrame).dataLatch = s.dataLatch := rfl
@[simp] theorem State.skipFrame_latchValid (s : State) : (s.skipFrame).latchValid = s.latchValid := rfl
@[simp] theorem State.skipFrame_dbPending (s : State) : (s.skipFrame).dbPending = s.dbPending := rfl
@[simp] theorem State.skipFrame_dbCnt (s : State) : (s.skipFrame).dbCnt = s.dbCnt := rfl
@[simp] theorem State.skipFrame_bsyHighCnt (s : State) : (s.skipFrame).bsyHighCnt = s.bsyHighCnt := rfl
@[simp] theorem State.skipFrame_cdb (s : State) : (s.skipFrame).cdb = s.cdb := rfl
@[simp] theorem State.skipFrame_cdbLen (s : State) : (s.skipFrame).cdbLen = s.cdbLen := rfl
@[simp] theorem State.skipFrame_cdbOverflow (s : State) : (s.skipFrame).cdbOverflow = s.cdbOverflow := rfl
@[simp] theorem State.skipFrame_cmdClass (s : State) : (s.skipFrame).cmdClass = s.cmdClass := rfl
@[simp] theorem State.skipFrame_cfg (s : State) : (s.skipFrame).cfg = s.cfg := rfl
@[simp] theorem State.skipFrame_params (s : State) : (s.skipFrame).params = s.params := rfl
@[simp] theorem State.skipFrame_input (s : State) : (s.skipFrame).input = s.input := rfl
@[simp] theorem State.skipFrame_out (s : State) : (s.skipFrame).out = s.out := rfl
@[simp] theorem State.skipFrame_cfgError (s : State) : (s.skipFrame).cfgError = s.cfgError := rfl

/-! ### `raiseConfigurationError` -/
@[simp] theorem raiseConfigurationError_runState (s : State) : (raiseConfigurationError s).runState = .halted := rfl
@[simp] theorem raiseConfigurationError_errCfg (s : State) : (raiseConfigurationError s).errCfg = true := rfl
@[simp] theorem raiseConfigurationError_samplenum (s : State) : (raiseConfigurationError s).samplenum = s.samplenum := rfl
@[simp] theorem raiseConfigurationError_prev (s : State) : (raiseConfigurationError s).prev = s.prev := rfl
@[simp] theorem raiseConfigurationError_prevValid (s : State) : (raiseConfigurationError s).prevValid = s.prevValid := rfl
@[simp] theorem raiseConfigurationError_phase (s : State) : (raiseConfigurationError s).phase = s.phase := rfl
@[simp] theorem raiseConfigurationError_phaseStart (s : State) : (raiseConfigurationError s).phaseStart = s.phaseStart := rfl
@[simp] theorem raiseConfigurationError_arbPins (s : State) : (raiseConfigurationError s).arbPins = s.arbPins := rfl
@[simp] theorem raiseConfigurationError_subphase (s : State) : (raiseConfigurationError s).subphase = s.subphase := rfl
@[simp] theorem raiseConfigurationError_runStart (s : State) : (raiseConfigurationError s).runStart = s.runStart := rfl
@[simp] theorem raiseConfigurationError_byteCount (s : State) : (raiseConfigurationError s).byteCount = s.byteCount := rfl
@[simp] theorem raiseConfigurationError_byteRunStart (s : State) : (raiseConfigurationError s).byteRunStart = s.byteRunStart := rfl
@[simp] theorem raiseConfigurationError_dataLatch (s : State) : (raiseConfigurationError s).dataLatch = s.dataLatch := rfl
@[simp] theorem raiseConfigurationError_latchValid (s : State) : (raiseConfigurationError s).latchValid = s.latchValid := rfl
@[simp] theorem raiseConfigurationError_dbPending (s : State) : (raiseConfigurationError s).dbPending = s.dbPending := rfl
@[simp] theorem raiseConfigurationError_dbCnt (s : State) : (raiseConfigurationError s).dbCnt = s.dbCnt := rfl
@[simp] theorem raiseConfigurationError_bsyHighCnt (s : State) : (raiseConfigurationError s).bsyHighCnt = s.bsyHighCnt := rfl
@[simp] theorem raiseConfigurationError_cdb (s : State) : (raiseConfigurationError s).cdb = s.cdb := rfl
@[simp] theorem raiseConfigurationError_cdbLen (s : State) : (raiseConfigurationError s).cdbLen = s.cdbLen := rfl
@[simp] theorem raiseConfigurationError_cdbOverflow (s : State) : (raiseConfigurationError s).cdbOverflow = s.cdbOverflow := rfl
@[simp] theorem raiseConfigurationError_cmdClass (s : State) : (raiseConfigurationError s).cmdClass = s.cmdClass := rfl
@[simp] theorem raiseConfigurationError_cfg (s : State) : (raiseConfigurationError s).cfg = s.cfg := rfl
@[simp] theorem raiseConfigurationError_params (s : State) : (raiseConfigurationError s).params = s.params := rfl
@[simp] theorem raiseConfigurationError_input (s : State) : (raiseConfigurationError s).input = s.input := rfl
@[simp] theorem raiseConfigurationError_out (s : State) : (raiseConfigurationError s).out = s.out := rfl
@[simp] theorem raiseConfigurationError_cfgError (s : State) : (raiseConfigurationError s).cfgError = true := rfl

/-! ### `resetBlock` -/
@[simp] theorem resetBlock_runState (s : State) : (resetBlock s).runState = State.reset.runState := rfl
@[simp] theorem resetBlock_errCfg (s : State) : (resetBlock s).errCfg = State.reset.errCfg := rfl
@[simp] theorem resetBlock_samplenum (s : State) : (resetBlock s).samplenum = State.reset.samplenum := rfl
@[simp] theorem resetBlock_prev (s : State) : (resetBlock s).prev = State.reset.prev := rfl
@[simp] theorem resetBlock_prevValid (s : State) : (resetBlock s).prevValid = State.reset.prevValid := rfl
@[simp] theorem resetBlock_phase (s : State) : (resetBlock s).phase = State.reset.phase := rfl
@[simp] theorem resetBlock_phaseStart (s : State) : (resetBlock s).phaseStart = State.reset.phaseStart := rfl
@[simp] theorem resetBlock_arbPins (s : State) : (resetBlock s).arbPins = State.reset.arbPins := rfl
@[simp] theorem resetBlock_subphase (s : State) : (resetBlock s).subphase = State.reset.subphase := rfl
@[simp] theorem resetBlock_runStart (s : State) : (resetBlock s).runStart = State.reset.runStart := rfl
@[simp] theorem resetBlock_byteCount (s : State) : (resetBlock s).byteCount = State.reset.byteCount := rfl
@[simp] theorem resetBlock_byteRunStart (s : State) : (resetBlock s).byteRunStart = State.reset.byteRunStart := rfl
@[simp] theorem resetBlock_dataLatch (s : State) : (resetBlock s).dataLatch = State.reset.dataLatch := rfl
@[simp] theorem resetBlock_latchValid (s : State) : (resetBlock s).latchValid = State.reset.latchValid := rfl
@[simp] theorem resetBlock_dbPending (s : State) : (resetBlock s).dbPending = State.reset.dbPending := rfl
@[simp] theorem resetBlock_dbCnt (s : State) : (resetBlock s).dbCnt = State.reset.dbCnt := rfl
@[simp] theorem resetBlock_bsyHighCnt (s : State) : (resetBlock s).bsyHighCnt = State.reset.bsyHighCnt := rfl
@[simp] theorem resetBlock_cdb (s : State) : (resetBlock s).cdb = State.reset.cdb := rfl
@[simp] theorem resetBlock_cdbLen (s : State) : (resetBlock s).cdbLen = State.reset.cdbLen := rfl
@[simp] theorem resetBlock_cdbOverflow (s : State) : (resetBlock s).cdbOverflow = State.reset.cdbOverflow := rfl
@[simp] theorem resetBlock_cmdClass (s : State) : (resetBlock s).cmdClass = State.reset.cmdClass := rfl
@[simp] theorem resetBlock_cfg (s : State) : (resetBlock s).cfg = s.cfg := rfl
@[simp] theorem resetBlock_params (s : State) : (resetBlock s).params = s.params := rfl
@[simp] theorem resetBlock_input (s : State) : (resetBlock s).input = s.input := rfl
@[simp] theorem resetBlock_out (s : State) : (resetBlock s).out = State.reset.out := rfl
@[simp] theorem resetBlock_cfgError (s : State) : (resetBlock s).cfgError = State.reset.cfgError := rfl

/-! ### `State.appendCdb`: the store, the length and the flag depend on whether the store is full -/
@[simp] theorem State.appendCdb_runState (s : State) (b : Byte) : (s.appendCdb b).runState = s.runState := by
  unfold State.appendCdb; split <;> rfl
@[simp] theorem State.appendCdb_errCfg (s : State) (b : Byte) : (s.appendCdb b).errCfg = s.errCfg := by
  unfold State.appendCdb; split <;> rfl
@[simp] theorem State.appendCdb_samplenum (s : State) (b : Byte) : (s.appendCdb b).samplenum = s.samplenum := by
  unfold State.appendCdb; split <;> rfl
@[simp] theorem State.appendCdb_prev (s : State) (b : Byte) : (s.appendCdb b).prev = s.prev := by
  unfold State.appendCdb; split <;> rfl
@[simp] theorem State.appendCdb_prevValid (s : State) (b : Byte) : (s.appendCdb b).prevValid = s.prevValid := by
  unfold State.appendCdb; split <;> rfl
@[simp] theorem State.appendCdb_phase (s : State) (b : Byte) : (s.appendCdb b).phase = s.phase := by
  unfold State.appendCdb; split <;> rfl
@[simp] theorem State.appendCdb_phaseStart (s : State) (b : Byte) : (s.appendCdb b).phaseStart = s.phaseStart := by
  unfold State.appendCdb; split <;> rfl
@[simp] theorem State.appendCdb_arbPins (s : State) (b : Byte) : (s.appendCdb b).arbPins = s.arbPins := by
  unfold State.appendCdb; split <;> rfl
@[simp] theorem State.appendCdb_subphase (s : State) (b : Byte) : (s.appendCdb b).subphase = s.subphase := by
  unfold State.appendCdb; split <;> rfl
@[simp] theorem State.appendCdb_runStart (s : State) (b : Byte) : (s.appendCdb b).runStart = s.runStart := by
  unfold State.appendCdb; split <;> rfl
@[simp] theorem State.appendCdb_byteCount (s : State) (b : Byte) : (s.appendCdb b).byteCount = s.byteCount := by
  unfold State.appendCdb; split <;> rfl
@[simp] theorem State.appendCdb_byteRunStart (s : State) (b : Byte) : (s.appendCdb b).byteRunStart = s.byteRunStart := by
  unfold State.appendCdb; split <;> rfl
@[simp] theorem State.appendCdb_dataLatch (s : State) (b : Byte) : (s.appendCdb b).dataLatch = s.dataLatch := by
  unfold State.appendCdb; split <;> rfl
@[simp] theorem State.appendCdb_latchValid (s : State) (b : Byte) : (s.appendCdb b).latchValid = s.latchValid := by
  unfold State.appendCdb; split <;> rfl
@[simp] theorem State.appendCdb_dbPending (s : State) (b : Byte) : (s.appendCdb b).dbPending = s.dbPending := by
  unfold State.appendCdb; split <;> rfl
@[simp] theorem State.appendCdb_dbCnt (s : State) (b : Byte) : (s.appendCdb b).dbCnt = s.dbCnt := by
  unfold State.appendCdb; split <;> rfl
@[simp] theorem State.appendCdb_bsyHighCnt (s : State) (b : Byte) : (s.appendCdb b).bsyHighCnt = s.bsyHighCnt := by
  unfold State.appendCdb; split <;> rfl
@[simp] theorem State.appendCdb_cmdClass (s : State) (b : Byte) : (s.appendCdb b).cmdClass = s.cmdClass := by
  unfold State.appendCdb; split <;> rfl
@[simp] theorem State.appendCdb_cfg (s : State) (b : Byte) : (s.appendCdb b).cfg = s.cfg := by
  unfold State.appendCdb; split <;> rfl
@[simp] theorem State.appendCdb_params (s : State) (b : Byte) : (s.appendCdb b).params = s.params := by
  unfold State.appendCdb; split <;> rfl
@[simp] theorem State.appendCdb_input (s : State) (b : Byte) : (s.appendCdb b).input = s.input := by
  unfold State.appendCdb; split <;> rfl
@[simp] theorem State.appendCdb_out (s : State) (b : Byte) : (s.appendCdb b).out = s.out := by
  unfold State.appendCdb; split <;> rfl
@[simp] theorem State.appendCdb_cfgError (s : State) (b : Byte) : (s.appendCdb b).cfgError = s.cfgError := by
  unfold State.appendCdb; split <;> rfl

/-- A byte that the store has room for is appended (R182). -/
theorem State.appendCdb_of_lt (s : State) (b : Byte) (h : s.cdbLen < s.params.cdbMax) :
    s.appendCdb b = { s with cdb := s.cdb.write s.cdbLen b, cdbLen := s.cdbLen + 1 } := if_pos h

/-- A byte that the store has no room for is dropped, and the flag tells so (R183). -/
theorem State.appendCdb_of_ge (s : State) (b : Byte) (h : s.params.cdbMax ≤ s.cdbLen) :
    s.appendCdb b = { s with cdbOverflow := true } := if_neg (Nat.not_lt.2 h)

/-! ### `cdbAccept`: it writes the descriptor's four fields and nothing else -/
@[simp] theorem cdbAccept_runState (s : State) (idx : Nat) (b : Byte) : (cdbAccept s idx b).runState = s.runState := by
  unfold cdbAccept; split <;> simp
@[simp] theorem cdbAccept_errCfg (s : State) (idx : Nat) (b : Byte) : (cdbAccept s idx b).errCfg = s.errCfg := by
  unfold cdbAccept; split <;> simp
@[simp] theorem cdbAccept_samplenum (s : State) (idx : Nat) (b : Byte) : (cdbAccept s idx b).samplenum = s.samplenum := by
  unfold cdbAccept; split <;> simp
@[simp] theorem cdbAccept_prev (s : State) (idx : Nat) (b : Byte) : (cdbAccept s idx b).prev = s.prev := by
  unfold cdbAccept; split <;> simp
@[simp] theorem cdbAccept_prevValid (s : State) (idx : Nat) (b : Byte) : (cdbAccept s idx b).prevValid = s.prevValid := by
  unfold cdbAccept; split <;> simp
@[simp] theorem cdbAccept_phase (s : State) (idx : Nat) (b : Byte) : (cdbAccept s idx b).phase = s.phase := by
  unfold cdbAccept; split <;> simp
@[simp] theorem cdbAccept_phaseStart (s : State) (idx : Nat) (b : Byte) : (cdbAccept s idx b).phaseStart = s.phaseStart := by
  unfold cdbAccept; split <;> simp
@[simp] theorem cdbAccept_arbPins (s : State) (idx : Nat) (b : Byte) : (cdbAccept s idx b).arbPins = s.arbPins := by
  unfold cdbAccept; split <;> simp
@[simp] theorem cdbAccept_subphase (s : State) (idx : Nat) (b : Byte) : (cdbAccept s idx b).subphase = s.subphase := by
  unfold cdbAccept; split <;> simp
@[simp] theorem cdbAccept_runStart (s : State) (idx : Nat) (b : Byte) : (cdbAccept s idx b).runStart = s.runStart := by
  unfold cdbAccept; split <;> simp
@[simp] theorem cdbAccept_byteCount (s : State) (idx : Nat) (b : Byte) : (cdbAccept s idx b).byteCount = s.byteCount := by
  unfold cdbAccept; split <;> simp
@[simp] theorem cdbAccept_byteRunStart (s : State) (idx : Nat) (b : Byte) : (cdbAccept s idx b).byteRunStart = s.byteRunStart := by
  unfold cdbAccept; split <;> simp
@[simp] theorem cdbAccept_dataLatch (s : State) (idx : Nat) (b : Byte) : (cdbAccept s idx b).dataLatch = s.dataLatch := by
  unfold cdbAccept; split <;> simp
@[simp] theorem cdbAccept_latchValid (s : State) (idx : Nat) (b : Byte) : (cdbAccept s idx b).latchValid = s.latchValid := by
  unfold cdbAccept; split <;> simp
@[simp] theorem cdbAccept_dbPending (s : State) (idx : Nat) (b : Byte) : (cdbAccept s idx b).dbPending = s.dbPending := by
  unfold cdbAccept; split <;> simp
@[simp] theorem cdbAccept_dbCnt (s : State) (idx : Nat) (b : Byte) : (cdbAccept s idx b).dbCnt = s.dbCnt := by
  unfold cdbAccept; split <;> simp
@[simp] theorem cdbAccept_bsyHighCnt (s : State) (idx : Nat) (b : Byte) : (cdbAccept s idx b).bsyHighCnt = s.bsyHighCnt := by
  unfold cdbAccept; split <;> simp
@[simp] theorem cdbAccept_cfg (s : State) (idx : Nat) (b : Byte) : (cdbAccept s idx b).cfg = s.cfg := by
  unfold cdbAccept; split <;> simp
@[simp] theorem cdbAccept_params (s : State) (idx : Nat) (b : Byte) : (cdbAccept s idx b).params = s.params := by
  unfold cdbAccept; split <;> simp
@[simp] theorem cdbAccept_input (s : State) (idx : Nat) (b : Byte) : (cdbAccept s idx b).input = s.input := by
  unfold cdbAccept; split <;> simp
@[simp] theorem cdbAccept_out (s : State) (idx : Nat) (b : Byte) : (cdbAccept s idx b).out = s.out := by
  unfold cdbAccept; split <;> simp
@[simp] theorem cdbAccept_cfgError (s : State) (idx : Nat) (b : Byte) : (cdbAccept s idx b).cfgError = s.cfgError := by
  unfold cdbAccept; split <;> simp

/-- The class is written by the first byte of a run alone (R181). -/
@[simp] theorem cdbAccept_cmdClass (s : State) (idx : Nat) (b : Byte) :
    (cdbAccept s idx b).cmdClass = if idx = 0 then classOf s.params b else s.cmdClass := by
  unfold cdbAccept; split <;> simp

end Sys2Proof.Machine
end

