-- ==== Sys2Proof/Laws/Memory.lean ====
section
/-! SUPPORT. The laws of the descriptor store: what a read sees after a write, and that every operation keeps the canonical
form. -/

namespace Sys2Proof.Machine

theorem Memory.wf_cons (a : Nat) (b : Byte) (m : Memory) :
    Memory.wf ((a, b) :: m) = true ↔ b ≠ unlistedByte ∧ (∀ c ∈ m, a < c.1) ∧ Memory.wf m = true := by
  simp [Memory.wf, and_assoc]

/-- An address below every listed one is unlisted. -/
theorem Memory.read_of_all_gt (m : Memory) (i : Nat) (h : ∀ c ∈ m, i < c.1) : m.read i = unlistedByte := by
  induction m with
  | nil => rfl
  | cons c m ih =>
    obtain ⟨a, b⟩ := c
    have ha : i < a := h (a, b) (by simp)
    rw [Memory.read, if_neg (Nat.ne_of_lt ha)]
    exact ih fun c hc => h c (by simp [hc])

/-- A read at another address does not see a write. -/
theorem Memory.read_write_other (m : Memory) (i j : Nat) (v : Byte) (h : j ≠ i) : (m.write i v).read j = m.read j := by
  induction m with
  | nil => simp only [Memory.write]; split <;> simp [Memory.read, h]
  | cons c m ih =>
    obtain ⟨a, b⟩ := c
    simp only [Memory.write]
    split
    · split
      · rfl
      · rw [Memory.read, if_neg h]
    · split
      · rename_i heq
        subst heq
        split <;> simp [Memory.read, h]
      · simp [Memory.read, ih]

/-- A read at the same address sees the byte written. -/
theorem Memory.read_write_same (m : Memory) (i : Nat) (v : Byte) (hm : m.wf = true) : (m.write i v).read i = v := by
  induction m with
  | nil => simp only [Memory.write]; split <;> simp_all [Memory.read]
  | cons c m ih =>
    obtain ⟨a, b⟩ := c
    obtain ⟨-, hlt, hwf⟩ := (Memory.wf_cons a b m).1 hm
    simp only [Memory.write]
    split
    · rename_i hia
      split
      · rename_i hv
        rw [hv]
        apply Memory.read_of_all_gt
        intro c hc
        rcases List.mem_cons.1 hc with rfl | hc
        · exact hia
        · exact Nat.lt_trans hia (hlt c hc)
      · simp [Memory.read]
    · split
      · rename_i heq
        subst heq
        split
        · rename_i hv
          rw [hv]
          exact Memory.read_of_all_gt m _ hlt
        · simp [Memory.read]
      · rename_i hne
        rw [Memory.read, if_neg hne]
        exact ih hwf

/-- A write lists no address but its own beside those listed before. -/
theorem Memory.mem_write (m : Memory) (i : Nat) (v : Byte) (c : Host.Cell) (h : c ∈ m.write i v) : c.1 = i ∨ c ∈ m := by
  induction m with
  | nil =>
    simp only [Memory.write] at h
    split at h <;> simp_all
  | cons d m ih =>
    obtain ⟨a, b⟩ := d
    simp only [Memory.write] at h
    split at h
    · split at h
      · exact .inr h
      · rcases List.mem_cons.1 h with rfl | h
        · exact .inl rfl
        · exact .inr h
    · split at h
      · split at h
        · exact .inr (List.mem_cons_of_mem _ h)
        · rcases List.mem_cons.1 h with rfl | h
          · exact .inl rfl
          · exact .inr (List.mem_cons_of_mem _ h)
      · rcases List.mem_cons.1 h with rfl | h
        · exact .inr (by simp)
        · exact (ih h).imp_right (List.mem_cons_of_mem _)

/-- A write keeps the canonical form. -/
theorem Memory.write_wf (m : Memory) (i : Nat) (v : Byte) (hm : m.wf = true) : (m.write i v).wf = true := by
  induction m with
  | nil => simp only [Memory.write]; split <;> simp_all [Memory.wf]
  | cons c m ih =>
    obtain ⟨a, b⟩ := c
    obtain ⟨hb, hlt, hwf⟩ := (Memory.wf_cons a b m).1 hm
    simp only [Memory.write]
    split
    · rename_i hia
      split
      · exact hm
      · rename_i hv
        refine (Memory.wf_cons _ _ _).2 ⟨hv, fun c hc => ?_, hm⟩
        rcases List.mem_cons.1 hc with rfl | hc
        · exact hia
        · exact Nat.lt_trans hia (hlt c hc)
    · rename_i hia
      split
      · rename_i heq
        subst heq
        split
        · exact hwf
        · rename_i hv
          exact (Memory.wf_cons _ _ _).2 ⟨hv, hlt, hwf⟩
      · refine (Memory.wf_cons _ _ _).2 ⟨hb, fun c hc => ?_, ih hwf⟩
        rcases Memory.mem_write m i v c hc with h | h
        · rw [h]; omega
        · exact hlt c h

/-- A write below CDB_MAX keeps the store within CDB_MAX bytes. -/
theorem Memory.write_bounded (m : Memory) (i n : Nat) (v : Byte) (hi : i < n) (hm : ∀ c ∈ m, c.1 < n) :
    ∀ c ∈ m.write i v, c.1 < n := fun c hc =>
  (Memory.mem_write m i v c hc).elim (fun h => h ▸ hi) (hm c)

/-- Storing a list of bytes keeps the canonical form. -/
theorem storeBytes_wf (m : Memory) (i : Nat) (bs : List Byte) (hm : m.wf = true) : (storeBytes m i bs).wf = true := by
  induction bs generalizing m i with
  | nil => exact hm
  | cons b bs ih => exact ih (m.write i b) (i + 1) (Memory.write_wf m i b hm)

/-- The store right after reset is in canonical form. -/
theorem reset_cdb_wf : State.reset.cdb.wf = true := rfl

/-- The accumulator keeps the store in canonical form and within CDB_MAX bytes. -/
theorem cdbAccept_storeOk (s : State) (idx : Nat) (b : Byte) (h : s.storeOk) : (cdbAccept s idx b).storeOk := by
  have key : ∀ t : State, t.storeOk → (t.appendCdb b).storeOk := by
    intro t ht
    by_cases hlt : t.cdbLen < t.params.cdbMax
    · rw [State.appendCdb_of_lt t b hlt]
      exact ⟨Memory.write_wf _ _ _ ht.1, Memory.write_bounded _ _ _ _ hlt ht.2⟩
    · rw [State.appendCdb_of_ge t b (Nat.not_lt.1 hlt)]
      exact ht
  unfold cdbAccept
  split
  · exact key _ h
  · exact key _ h

end Sys2Proof.Machine
end

