-- ==== Sys2Proof/Laws/Ops.lean ====
section
/-! SUPPORT. For each shared operation, what it can answer: sequencing, the descriptor reads, the accumulator, the flush of a
run, the debouncer, the BSY filter. -/

namespace Sys2Proof.Machine

/-! ### Sequencing -/

@[simp] theorem andThen_next (s : State) (k : State → Result) : andThen (.next s) k = k s := rfl
@[simp] theorem andThen_fault (e : Fault) (k : State → Result) : andThen (.fault e) k = .fault e := rfl
@[simp] theorem andThen_refused (e : Refusal) (k : State → Result) : andThen (.refused e) k = .refused e := rfl

/-- A sequence answers a next state iff both of its parts do. -/
theorem andThen_eq_next (r : Result) (k : State → Result) (t : State) :
    andThen r k = .next t ↔ ∃ u, r = .next u ∧ k u = .next t := by
  cases r <;> simp

/-! ### The descriptor reads -/

/-- An index below `cdb_len` is readable. -/
theorem cdbRead_ok (s : State) (i : Nat) (hi : i < s.cdbLen) (hs : s.cdbLen ≤ s.params.cdbMax) :
    cdbRead s i = .ok (s.cdb.read i) := by
  rw [cdbRead, if_neg (by omega), if_neg (by omega)]

/-- What a read answers is the stored byte, and its index lies below `cdb_len` and CDB_MAX. -/
theorem cdbRead_eq_ok (s : State) (i : Nat) (b : Byte) :
    cdbRead s i = .ok b ↔ i < s.params.cdbMax ∧ i < s.cdbLen ∧ b = s.cdb.read i := by
  unfold cdbRead
  split
  · exact ⟨fun h => (nomatch h), fun h => by omega⟩
  · split
    · exact ⟨fun h => (nomatch h), fun h => by omega⟩
    · exact ⟨fun h => ⟨by omega, by omega, (Except.ok.inj h).symm⟩, fun h => by rw [h.2.2]⟩

/-- A slice below `cdb_len` is readable. -/
theorem cdbSlice_ok (s : State) (i k : Nat) (h : i + k ≤ s.cdbLen) (hs : s.cdbLen ≤ s.params.cdbMax) :
    cdbSlice s i k = .ok ((List.range' i k).map s.cdb.read) := by
  induction k generalizing i with
  | zero => rfl
  | succ k ih =>
    simp only [cdbSlice, cdbRead_ok s i (by omega) hs, ih (i + 1) (by omega), List.range'_succ, List.map_cons]

/-- The first `k` stored bytes, for `k` up to `cdb_len`. -/
theorem cdbSlice_zero_ok (s : State) (k : Nat) (h : k ≤ s.cdbLen) (hs : s.cdbLen ≤ s.params.cdbMax) :
    cdbSlice s 0 k = .ok ((List.range k).map s.cdb.read) := by
  rw [cdbSlice_ok s 0 k (by omega) hs, List.range_eq_range']

/-! ### The accumulator -/

/-- What `CdbAccept` does (43_command_interpreter.md R181 to R183): with the length and the flag that the byte with
index 0 clears, the byte is stored at that length, or dropped. -/
theorem cdbAccept_spec (s : State) (idx : Nat) (b : Byte) :
    cdbAccept s idx b =
      { s with
        cmdClass := if idx = 0 then classOf s.params b else s.cmdClass
        cdb := if (if idx = 0 then 0 else s.cdbLen) < s.params.cdbMax then s.cdb.write (if idx = 0 then 0 else s.cdbLen) b
          else s.cdb
        cdbLen := if (if idx = 0 then 0 else s.cdbLen) < s.params.cdbMax then (if idx = 0 then 0 else s.cdbLen) + 1
          else (if idx = 0 then 0 else s.cdbLen)
        cdbOverflow := if (if idx = 0 then 0 else s.cdbLen) < s.params.cdbMax then (if idx = 0 then false else s.cdbOverflow)
          else true } := by
  by_cases h0 : idx = 0
  · simp only [cdbAccept, if_pos h0, State.appendCdb, State.clearCdb]
    split <;> rfl
  · simp only [cdbAccept, if_neg h0, State.appendCdb]
    split <;> rfl

/-! ### The descriptor rows -/

/-- The only thing `emitCommand` can do is to emit one CAT_CMD record over the run (R184, R198). -/
theorem emitCommand_eq_next (s t : State) (r : Except Fault CmdInfo) (h : emitCommand s r = .next t) :
    ∃ info, r = .ok info ∧ t = s.emit s.runStart (.cmd info) := by
  cases r with
  | error e => simp [emitCommand] at h
  | ok info => exact ⟨info, rfl, by simpa [emitCommand, eq_comm] using h⟩

/-- The fields common to every CmdInfo (30_encoding.md R99), with `k` bytes echoed. -/
theorem commandBase_ok (s : State) (m : Mnemonic) (k : Nat) (h : k ≤ s.cdbLen) (hs : s.cdbLen ≤ s.params.cdbMax) :
    commandBase s m k = .ok
      { mnem := m, short := false, overflow := s.cdbOverflow, variant := 0, nbytes := s.byteCount, len := k,
        raw := (List.range k).map s.cdb.read } := by
  simp only [commandBase, cdbSlice_zero_ok s k h hs]

/-- A known opcode with a descriptor long enough: the record carries the row's own fields. -/
theorem decodeKnown_long (s : State) (m : Mnemonic) (fields : CmdInfo → Except Fault CmdInfo)
    (hn : needOf m ≤ s.cdbLen) (hs : s.cdbLen ≤ s.params.cdbMax) :
    decodeKnown s m fields = emitCommand s (fields
      { mnem := m, short := false, overflow := s.cdbOverflow, variant := 0, nbytes := s.byteCount, len := s.cdbLen,
        raw := (List.range s.cdbLen).map s.cdb.read }) := by
  simp only [decodeKnown, commandBase_ok s m s.cdbLen (le_refl _) hs]
  exact congrArg _ (if_neg (Nat.not_lt.2 hn))

/-- A known opcode with a descriptor that is too short (R186). -/
theorem decodeKnown_short (s : State) (m : Mnemonic) (fields : CmdInfo → Except Fault CmdInfo)
    (hn : s.cdbLen < needOf m) (hs : s.cdbLen ≤ s.params.cdbMax) :
    decodeKnown s m fields = .next (s.emit s.runStart (.cmd
      { mnem := m, short := true, overflow := s.cdbOverflow, variant := 0, nbytes := s.byteCount, len := s.cdbLen,
        raw := (List.range s.cdbLen).map s.cdb.read })) := by
  simp only [decodeKnown, commandBase_ok s m s.cdbLen (le_refl _) hs]
  exact congrArg _ (if_pos hn)

/-- The SUBPHASE_CODE rows and the CDB rows that the flush runs are the arms of `exec` (R151, R185). -/
theorem execSubphaseRow_eq_exec (c : Code) (s : State) : execSubphaseRow c s = exec (decodeSubphase c) s := by
  unfold execSubphaseRow decodeSubphase
  split_ifs <;> rfl

/-- An opcode decodes to its own row of the table, or to the row of the opcodes without a decoder (30_encoding.md R95). -/
theorem decodeOpcode_cases (op : Byte) : decodeOpcode op = .unknown op ∨ decodeOpcode op ∈ opcodeRows.map Prod.snd := by
  unfold decodeOpcode
  cases found : opcodeRows.lookup op with
  | none => exact .inl rfl
  | some row =>
    obtain ⟨earlier, later, table, -⟩ := List.lookup_eq_some_iff.1 found
    exact .inr (List.mem_map.2 ⟨(op, row), table ▸ by simp, rfl⟩)

/-- Every CDB row the flush runs is the arm of `exec` for the decoded opcode. -/
theorem execCommandRow_eq_exec (op : Byte) (s : State) : execCommandRow op s = exec (decodeOpcode op) s := by
  have row := decodeOpcode_cases op
  unfold execCommandRow
  generalize decodeOpcode op = i at row
  rcases row with rfl | row
  · rfl
  · simp only [opcodeRows, List.map_cons, List.map_nil] at row
    fin_cases row <;> rfl

/-- Every SUBPHASE_CODE row completes and emits the record of its code. -/
theorem execSubphaseRow_next (c : Code) (s : State) : execSubphaseRow c s = .next (s.emitRun c) := by
  have key : ∀ c : Code, c = 0 ∨ c = 1 ∨ c = 2 ∨ c = 3 ∨ c = 4 ∨ c = 5 ∨ c = 6 ∨ c = 7 := by decide
  rcases key c with rfl | rfl | rfl | rfl | rfl | rfl | rfl | rfl <;> rfl

/-- What every answer of a sequence has, if every answer of its second part has it. -/
theorem holds_of_bind {α : Type} {P : CmdInfo → Prop} (x : Except Fault α) (k : α → Except Fault CmdInfo)
    (h : ∀ a info, k a = .ok info → P info) : ∀ info, x >>= k = .ok info → P info := by
  intro info hx
  cases x with
  | error e => cases hx
  | ok a => exact h a info hx

/-- The addressing variants leave the byte count. -/
@[simp] theorem addressFields_nbytes (info : CmdInfo) (mode : BitVec 3) (b2 b3 b4 : Byte) :
    (addressFields info mode b2 b3 b4).nbytes = info.nbytes := by
  unfold addressFields
  split_ifs <;> rfl

/-- What a decoder with common fields answers: a CAT_CMD record with the byte count of the run, or a fault of the reads. -/
theorem decodeKnown_cases (s : State) (m : Mnemonic) (fields : CmdInfo → Except Fault CmdInfo)
    (hf : ∀ base info, fields base = .ok info → info.nbytes = base.nbytes) :
    (∃ info, info.nbytes = s.byteCount ∧ decodeKnown s m fields = .next (s.emit s.runStart (.cmd info))) ∨
      ∃ e, decodeKnown s m fields = .fault e := by
  unfold decodeKnown commandBase
  cases cdbSlice s 0 s.cdbLen with
  | error e => exact .inr ⟨e, rfl⟩
  | ok raw =>
    by_cases short : s.cdbLen < needOf m
    · exact .inl ⟨_, rfl, congrArg (emitCommand s) (if_pos short)⟩
    · let base : CmdInfo :=
        { mnem := m, short := false, overflow := s.cdbOverflow, variant := 0, nbytes := s.byteCount, len := s.cdbLen,
          raw := raw }
      cases answer : fields base with
      | error e => exact .inr ⟨e, (congrArg (emitCommand s) (if_neg short)).trans (congrArg (emitCommand s) answer)⟩
      | ok info => exact .inl ⟨info, hf _ _ answer, (congrArg (emitCommand s) (if_neg short)).trans (congrArg (emitCommand s) answer)⟩

/-- What a CDB row answers: one more CAT_CMD record over the run, with its byte count, or a fault of the descriptor reads. -/
theorem execCommandRow_cases (op : Byte) (s : State) :
    (∃ info, info.nbytes = s.byteCount ∧ execCommandRow op s = .next (s.emit s.runStart (.cmd info))) ∨
      ∃ e, execCommandRow op s = .fault e := by
  unfold execCommandRow
  split
  case h_11 =>
    unfold execUnknown commandBase
    cases cdbSlice s 0 (min 6 s.cdbLen) with
    | error e => exact .inr ⟨e, rfl⟩
    | ok raw => exact .inl ⟨_, rfl, rfl⟩
  case h_4 =>
    refine decodeKnown_cases _ _ _ fun base => ?_
    repeat refine holds_of_bind _ _ fun _ => ?_
    intro info h
    split at h <;> (cases h; rfl)
  all_goals
    refine decodeKnown_cases _ _ _ fun base => ?_
    repeat refine holds_of_bind _ _ fun _ => ?_
    intro info h
    cases h
    simp only [addressFields_nbytes]

/-- A CDB row completes on every descriptor that the store holds. -/
theorem execCommandRow_completes (op : Byte) (s : State) (hs : s.cdbLen ≤ s.params.cdbMax) :
    ∃ info, execCommandRow op s = .next (s.emit s.runStart (.cmd info)) := by
  have rd : ∀ i, i < s.cdbLen → cdbRead s i = .ok (s.cdb.read i) := fun i hi => cdbRead_ok s i hi hs
  have key : ∀ (m : Mnemonic) (fields : CmdInfo → Except Fault CmdInfo),
      (needOf m ≤ s.cdbLen → ∀ base, ∃ info, fields base = .ok info) →
      ∃ info, decodeKnown s m fields = .next (s.emit s.runStart (.cmd info)) := by
    intro m fields hf
    by_cases hn : s.cdbLen < needOf m
    · exact ⟨_, decodeKnown_short s m fields hn hs⟩
    · have hn : needOf m ≤ s.cdbLen := Nat.not_lt.1 hn
      obtain ⟨info, hi⟩ := hf hn _
      exact ⟨info, by rw [decodeKnown_long s m fields hn hs, hi]; rfl⟩
  unfold execCommandRow
  split
  · exact key _ _ fun _ _ => ⟨_, rfl⟩
  · exact key _ _ fun hn base => ⟨_, by simp only [needOf] at hn; rw [rd 4 (by omega)]; rfl⟩
  · exact key _ _ fun hn base => ⟨_, by simp only [needOf] at hn; rw [rd 1 (by omega), rd 4 (by omega)]; rfl⟩
  · refine key _ _ fun hn base => ?_
    simp only [needOf] at hn
    rw [rd 1 (by omega), rd 2 (by omega), rd 4 (by omega)]
    by_cases hz : s.cdb.read 1 = 0x00 ∧ s.cdb.read 2 = 0x00
    · exact ⟨_, if_pos hz⟩
    · exact ⟨_, if_neg hz⟩
  · exact key _ _ fun hn base => ⟨_, by simp only [needOf] at hn; rw [rd 4 (by omega)]; rfl⟩
  · exact key _ _ fun hn base => ⟨_, by
      simp only [needOf] at hn
      rw [rd 2 (by omega), rd 3 (by omega), rd 4 (by omega), rd 5 (by omega), rd 7 (by omega), rd 8 (by omega),
        rd 9 (by omega)]
      rfl⟩
  · exact key _ _ fun hn base => ⟨_, by
      simp only [needOf] at hn
      rw [rd 1 (by omega), rd 6 (by omega), rd 7 (by omega), rd 8 (by omega)]
      rfl⟩
  · exact key _ _ fun hn base => ⟨_, by
      simp only [needOf] at hn
      rw [rd 1 (by omega), rd 2 (by omega), rd 3 (by omega), rd 4 (by omega), rd 5 (by omega), rd 7 (by omega),
        rd 8 (by omega)]
      rfl⟩
  · exact key _ _ fun hn base => ⟨_, by simp only [needOf] at hn; rw [rd 8 (by omega)]; rfl⟩
  · exact key _ _ fun hn base => ⟨_, by
      simp only [needOf] at hn
      rw [rd 1 (by omega), rd 2 (by omega), rd 3 (by omega), rd 4 (by omega), rd 5 (by omega), rd 9 (by omega)]
      rfl⟩
  · exact ⟨_, by rw [execUnknown, commandBase_ok s .unknown _ (by omega) hs]; rfl⟩

/-! ### The flush of a run -/

/-- A run without bytes is flushed silently (41_subphase_tracker.md R147). -/
theorem flushRun_empty (s : State) (h : s.byteCount = 0) : flushRun s = .next s := by
  simp [flushRun, h]

/-- All the flush can do: nothing, one SUBPHASE record, or a SUBPHASE record and a CMD record, which count the same bytes
(R146). -/
theorem flushRun_cases (s t : State) (h : flushRun s = .next t) :
    (s.byteCount = 0 ∧ t = s) ∨
    (1 ≤ s.byteCount ∧ s.subphase ≠ commandCode ∧ t = s.emitRun s.subphase) ∨
    (1 ≤ s.byteCount ∧ s.subphase = commandCode ∧
      ∃ info, info.nbytes = s.byteCount ∧ t = (s.emitRun s.subphase).emit s.runStart (.cmd info)) := by
  unfold flushRun at h
  split at h
  · rename_i hb
    rw [execSubphaseRow_next, andThen_next] at h
    split at h
    · rename_i hc
      refine .inr (.inr ⟨hb, hc, ?_⟩)
      unfold decodeDescriptor at h
      split at h
      · simp at h
      · rename_i op _
        rcases execCommandRow_cases op (s.emitRun s.subphase) with ⟨info, hn, he⟩ | ⟨e, he⟩
        · rw [he] at h
          exact ⟨info, hn, by simpa [eq_comm] using h⟩
        · rw [he] at h
          simp at h
    · rename_i hc
      exact .inr (.inl ⟨hb, hc, by simpa [eq_comm] using h⟩)
  · rename_i hb
    exact .inl ⟨by omega, by simpa [eq_comm] using h⟩

/-- The flush writes no field but the output list. -/
theorem flushRun_frame (s t : State) (h : flushRun s = .next t) : t = { s with out := t.out } := by
  rcases flushRun_cases s t h with ⟨-, rfl⟩ | ⟨-, -, rfl⟩ | ⟨-, -, info, -, rfl⟩ <;> rfl

/-- The flush completes when a COMMAND run with bytes has a descriptor in the store (10_state.md R43(e)). -/
theorem flushRun_completes (s : State) (hs : s.cdbLen ≤ s.params.cdbMax)
    (hc : s.subphase = commandCode → 1 ≤ s.byteCount → 1 ≤ s.cdbLen) : ∃ t, flushRun s = .next t := by
  unfold flushRun
  split
  · rename_i hb
    rw [execSubphaseRow_next, andThen_next]
    split
    · rename_i h5
      have hl : 1 ≤ s.cdbLen := hc h5 hb
      unfold decodeDescriptor
      rw [cdbRead_ok (s.emitRun s.subphase) 0 hl hs]
      obtain ⟨info, hi⟩ := execCommandRow_completes ((s.emitRun s.subphase).cdb.read 0) (s.emitRun s.subphase) hs
      exact ⟨_, hi⟩
    · exact ⟨_, rfl⟩
  · exact ⟨_, rfl⟩

/-! ### The debouncer and the BSY filter -/

/-- All the debouncer can do (41_subphase_tracker.md R141 to R145): count the window down, let it expire on a glitch or
with a boundary, open one, or nothing. -/
theorem debounce_cases (f : Frame) (s t : State) (h : debounce f s = .next t) :
    (s.dbPending = true ∧ 1 < s.dbCnt ∧ t = s.countWindow) ∨
    (s.dbPending = true ∧ s.dbCnt ≤ 1 ∧ f.code = s.subphase ∧ t = s.closeWindow) ∨
    (s.dbPending = true ∧ s.dbCnt ≤ 1 ∧ f.code ≠ s.subphase ∧
      ∃ u, flushRun s.closeWindow = .next u ∧ t = u.startRun f.code) ∨
    (s.dbPending = false ∧ candidate s f = true ∧ t = s.openWindow) ∨
    (s.dbPending = false ∧ candidate s f = false ∧ t = s) := by
  unfold debounce at h
  split at h
  · rename_i hp
    split at h
    · rename_i hz
      split at h
      · rename_i hc
        exact .inr (.inl ⟨hp, by omega, hc, by simpa [eq_comm] using h⟩)
      · rename_i hc
        obtain ⟨u, hu, ht⟩ := (andThen_eq_next _ _ _).1 h
        exact .inr (.inr (.inl ⟨hp, by omega, hc, u, hu, by simpa [eq_comm] using ht⟩))
    · rename_i hz
      exact .inl ⟨hp, by omega, by simpa [eq_comm] using h⟩
  · rename_i hp
    have hp : s.dbPending = false := by simpa using hp
    split at h
    · rename_i hc
      exact .inr (.inr (.inr (.inl ⟨hp, hc, by simpa [eq_comm] using h⟩)))
    · rename_i hc
      exact .inr (.inr (.inr (.inr ⟨hp, by simpa using hc, by simpa [eq_comm] using h⟩)))

/-- All the exit from INFORMATION_TRANSFER can do (40_phase_fsm.md R126). -/
theorem execEvInformationTransferEnd_cases (s t : State) (h : execEvInformationTransferEnd s = .next t) :
    ∃ u, flushRun s = .next u ∧ t = ((u.emitPhase .informationTransfer).enterPhase .busFree).clearFilters := by
  obtain ⟨u, hu, ht⟩ := (andThen_eq_next _ _ _).1 h
  exact ⟨u, hu, by simpa [eq_comm] using ht⟩

/-- All the BSY filter can do (41_subphase_tracker.md R148): the exit, or a count. -/
theorem bsyFilter_cases (f : Frame) (s t : State) (h : bsyFilter f s = .next t) :
    (decodeExitEvent s.bsyHighCnt (eventWord s.prev f) = some .evInformationTransferEnd ∧
      exec .evInformationTransferEnd s = .next t) ∨
    (decodeExitEvent s.bsyHighCnt (eventWord s.prev f) = none ∧ t = s.countBsy f.bsy) := by
  unfold bsyFilter at h
  have hd : ∀ i, decodeExitEvent s.bsyHighCnt (eventWord s.prev f) = some i → i = .evInformationTransferEnd := by
    intro i hi
    unfold decodeExitEvent at hi
    split at hi
    · simpa [eq_comm] using hi
    · simp at hi
  cases hx : decodeExitEvent s.bsyHighCnt (eventWord s.prev f) with
  | none =>
    rw [hx] at h
    exact .inr ⟨rfl, by simpa [eq_comm] using h⟩
  | some i =>
    rw [hx] at h
    have hi := hd i hx
    subst hi
    exact .inl ⟨rfl, h⟩

/-- All the handshake sampler can do (42_handshake_sampler.md R160 to R163): latch, finalise, or nothing. -/
theorem handshake_cases (f : Frame) (s t : State) (h : handshake f s = .next t) :
    (ackFallRow.fires (eventWord s.prev f) = true ∧ t = s.latch f.d) ∨
    (ackFallRow.fires (eventWord s.prev f) = false ∧ ackRiseRow.fires (eventWord s.prev f) = true ∧
      s.latchValid = true ∧ t = finaliseByte s) ∨
    (ackFallRow.fires (eventWord s.prev f) = false ∧
      (ackRiseRow.fires (eventWord s.prev f) = false ∨ s.latchValid = false) ∧ t = s) := by
  have hcur : (eventWord s.prev f).current = f := by
    simp only [EventWord.current, eventWord]
    exact BitVec.setWidth_append_eq_right
  unfold handshake decodeAckEvent at h
  split at h
  · rename_i hf
    simp only [runEvent, exec, execEvAckFall, hcur, Host.Outcome.next.injEq] at h
    exact .inl ⟨hf, h.symm⟩
  · rename_i hf
    have hf : ackFallRow.fires (eventWord s.prev f) = false := by simpa using hf
    split at h
    · rename_i hr
      simp only [Bool.and_eq_true] at hr
      simp only [runEvent, exec, execEvAckRise, hr.2, if_true, Host.Outcome.next.injEq] at h
      exact .inr (.inl ⟨hf, hr.1, hr.2, h.symm⟩)
    · rename_i hr
      simp only [runEvent, Host.Outcome.next.injEq] at h
      refine .inr (.inr ⟨hf, ?_, h.symm⟩)
      simp only [Bool.and_eq_true, not_and_or, Bool.not_eq_true] at hr
      exact hr

/-! ### One step -/

/-- All a step can do: hold, reset, take a CFG write, or take a frame (log 1). -/
theorem step_cases (s t : State) (h : step s = .next t) :
    (s.input = [] ∧ t = s.clearPorts) ∨
    (∃ rest, s.input = .rst :: rest ∧ t = resetBlock { s with input := rest }) ∨
    (∃ c rest, s.input = .writeCfg c :: rest ∧ t = ({ s with input := rest } : State).clearPorts.writeCfg c) ∨
    (∃ f rest, s.input = .frame f :: rest ∧ frameStep f ({ s with input := rest } : State).clearPorts = .next t) := by
  unfold step takeStimulus at h
  split at h
  · exact .inl ⟨by assumption, by simpa [eq_comm] using h⟩
  · exact .inr (.inl ⟨_, by assumption, by simpa [eq_comm] using h⟩)
  · exact .inr (.inr (.inl ⟨_, _, by assumption, by simpa [eq_comm] using h⟩))
  · exact .inr (.inr (.inr ⟨_, _, by assumption, h⟩))

/-! ### The bounds of the counters (70_reset_and_hazards.md R250) -/

/-- A run of no step is within the bounds where its state is. -/
theorem State.runWithinSpec_zero (s : State) : s.runWithinSpec 0 = true ↔ s.withinSpec := decide_eq_true_iff

/-- A run is within the bounds where its first step is, and the run from the next state. -/
theorem State.runWithinSpec_succ (k : Nat) (s : State) :
    s.runWithinSpec (k + 1) = true ↔ s.stepWithinSpec ∧ ∀ t, step s = .next t → t.runWithinSpec k = true := by
  rw [State.runWithinSpec, Bool.and_eq_true, decide_eq_true_iff]
  cases step s <;> simp

end Sys2Proof.Machine
end

