-- ==== Sys2Proof/Laws/PerInstr.lean ====
section
/-! SUPPORT. Facts about every instruction as syntax, one lemma per constructor. -/

/-- The encoded word of an instruction takes its format's bytes, and no bit above the frame words or the code is set (U21). -/
def Sys2Proof.Laws.EncodedWordFits.Statement (i : Sys2Proof.Instr) : Prop :=
  (Sys2Proof.encode i).length = i.format.size ∧
  Sys2Proof.wordOf i < (match i.format with | .event => 2 ^ 30 | .subphaseCode => 8 | .cdb => 256)

namespace Sys2Proof.Laws.EncodedWordFits

theorem evBusFreeEnd : Statement .evBusFreeEnd := by unfold Statement; decide
theorem evArbitrationEnd (pins : Byte) : Statement (.evArbitrationEnd pins) := ⟨rfl, BitVec.isLt _⟩
theorem evSelectionEnd (code : Code) : Statement (.evSelectionEnd code) := ⟨rfl, BitVec.isLt _⟩
theorem evInformationTransferEnd : Statement .evInformationTransferEnd := by unfold Statement; decide
theorem evAckFall (d : Byte) : Statement (.evAckFall d) := ⟨rfl, BitVec.isLt _⟩
theorem evAckRise : Statement .evAckRise := by unfold Statement; decide
theorem sp0 : Statement .sp0 := by unfold Statement; decide
theorem sp1 : Statement .sp1 := by unfold Statement; decide
theorem sp2 : Statement .sp2 := by unfold Statement; decide
theorem sp3 : Statement .sp3 := by unfold Statement; decide
theorem sp4 : Statement .sp4 := by unfold Statement; decide
theorem sp5 : Statement .sp5 := by unfold Statement; decide
theorem sp6 : Statement .sp6 := by unfold Statement; decide
theorem sp7 : Statement .sp7 := by unfold Statement; decide
theorem testUnitReady : Statement .testUnitReady := by unfold Statement; decide
theorem requestSense : Statement .requestSense := by unfold Statement; decide
theorem modeSelect : Statement .modeSelect := by unfold Statement; decide
theorem modeSense : Statement .modeSense := by unfold Statement; decide
theorem preventAllow : Statement .preventAllow := by unfold Statement; decide
theorem readExt : Statement .readExt := by unfold Statement; decide
theorem readToc : Statement .readToc := by unfold Statement; decide
theorem readHeader : Statement .readHeader := by unfold Statement; decide
theorem pauseResume : Statement .pauseResume := by unfold Statement; decide
theorem audioTrackSearch : Statement .audioTrackSearch := by unfold Statement; decide
theorem unknown (opcode : Byte) : Statement (.unknown opcode) := ⟨rfl, BitVec.isLt _⟩

end Sys2Proof.Laws.EncodedWordFits
end

