-- ==== Sys2Proof/Tests/Slice0.lean ====
section
/-! SUPPORT. The model's own tests: words written out from 30_encoding.md and opcode_table.json, single steps with the results
of 95_test_vectors.md, and for every statement with hypotheses a state that meets them. -/

namespace Sys2Proof.Tests

open Sys2Proof Sys2Proof.Machine

/-! ### Helpers -/

/-- RUNNING at sample 20 in a phase that began at 10; `before` was the previous frame, `now` is the next one. -/
def bus (p : Phase) (before now : Frame) : State :=
  { State.reset with
    runState := .running, cfg := ⟨true, 0⟩, samplenum := 20, prev := controlsOf before, prevValid := true, phase := p
    phaseStart := 10, input := [.frame now] }

/-- INFORMATION_TRANSFER, in a run with a code and a number of bytes that began at 12; the last byte ended at 15. -/
def transfer (before now : Frame) (code : Code) (n : Nat) : State :=
  { bus .informationTransfer before now with subphase := code, byteCount := n, runStart := 12, byteRunStart := 15 }

/-- A COMMAND run with this descriptor stored. -/
def command (before now : Frame) (bytes : List Byte) : State :=
  { transfer before now 5 bytes.length with
    cdb := storeBytes [] 0 bytes, cdbLen := bytes.length
    cmdClass := classOf defaultParams ((bytes[0]?).getD 0xFF) }

/-- A COMMAND run with this descriptor on a bus whose levels do not change. -/
def stored (bytes : List Byte) : State := command 0x79FF 0x79FF bytes

/-- The records a result shows: category, `ss`, `es`, canonical label. -/
def shown (r : Result) : List (Nat × Nat × Nat × String) :=
  match r with
  | .next t => t.out.map fun x => (x.cat, x.ss, x.es, longLabel x)
  | .fault _ => []
  | .refused _ => []

/-- The canonical labels of a result's records. -/
def labels (r : Result) : List String := (shown r).map fun x => x.2.2.2

/-- A property of the next state. -/
def after (r : Result) (p : State → Bool) : Bool :=
  match r with
  | .next t => p t
  | .fault _ => false
  | .refused _ => false

/-- The invariant, tested by what it is about: the block's set-up, the filters with the code they guard, a run's data. -/
def setupHolds (s : State) : Bool := decide s.params.wf && decide s.modeOk && decide s.startsOk
def filtersHold (s : State) : Bool := decide (s.codeOk ∧ s.windowOk ∧ s.bsyOk)
def runDataHolds (s : State) : Bool := decide s.storeOk && decide (s.descriptorOk ∧ s.latchOk)
def invHolds (s : State) : Bool := setupHolds s && (filtersHold s && runDataHolds s)

/-- The test of its parts gives the invariant. -/
theorem inv_of (s : State) (h : invHolds s = true) : s.Inv := by
  simp only [invHolds, setupHolds, filtersHold, runDataHolds, Bool.and_eq_true, decide_eq_true_eq] at h
  have ⟨setup, filters, store, run⟩ := h
  exact
    { paramsOk := setup.1.1, modeOk := setup.1.2, startsOk := setup.2
      codeOk := filters.1, windowOk := filters.2.1, bsyOk := filters.2.2
      storeOk := store, descriptorOk := run.1, latchOk := run.2 }

/-! ### Well-formedness: the one check refuses each of the ten opcodes that have a row -/

theorem test_wellFormed_refuses_known_opcodes :
    [(0x00 : Byte), 0x03, 0x15, 0x1A, 0x1E, 0x28, 0x43, 0x44, 0x4B, 0xD8].map (fun op => (Instr.unknown op).wellFormed) =
      List.replicate 10 false := by decide

theorem test_wellFormed_accepts_unknown_opcodes :
    (Instr.unknown 0x08).wellFormed = true ∧ (Instr.unknown 0xFF).wellFormed = true ∧ Instr.readExt.wellFormed = true := by
  decide

/-! ### The frame word (95_test_vectors.md 2.1): levels and code of words written out as REQ ACK MSG IO CD BSY SEL D7..D0 -/

theorem test_frame_word_levels :
    controlsOf 0b1_0_1_1_0_0_1_00101000 = ⟨true, false, false, true, true, false⟩ ∧ Frame.d 0x5928 = 0x28 ∧
    (0b1_0_1_1_0_0_1_00101000 : Frame) = 0x5928 := by decide

theorem test_frame_word_codes :
    ([0x79FF, 0x75FF, 0x7100, 0x6100, 0x7DFF, 0x7BFF] : List Frame).map Frame.code = [5, 6, 4, 0, 7, 5] := by decide

/-! ### Decoding: event words as previous REQ ACK MSG IO CD BSY SEL D, then the current frame likewise -/

theorem test_decode_busFreeEnd :
    decodeEvents ⟨.busFree, false, 0⟩ 0b1_1_1_1_1_1_1_11111111_1_1_1_1_1_1_0_11111111 = [.evBusFreeEnd] := by decide

theorem test_decode_arbitrationEnd :
    decodeEvents ⟨.arbitration, false, 0⟩ 0b1_1_1_1_1_1_0_11111111_1_1_1_1_1_0_0_11110111 = [.evArbitrationEnd 0xF7] := by
  decide

theorem test_decode_selectionEnd :
    decodeEvents ⟨.selection, false, 0⟩ 0b1_1_1_1_1_0_0_11111111_1_1_1_1_0_0_1_11111111 = [.evSelectionEnd 5] := by decide

theorem test_decode_informationTransferEnd :
    decodeEvents ⟨.informationTransfer, false, 1⟩ 0b1_1_1_1_0_1_1_11111111_1_1_1_1_0_1_1_11111111 =
      [.evInformationTransferEnd] := by decide

theorem test_decode_ackFall :
    decodeEvents ⟨.informationTransfer, false, 0⟩ 0b1_1_1_1_0_0_1_11111111_1_0_1_1_0_0_1_00101000 = [.evAckFall 0x28] := by
  decide

/-- A rising ACK with the second BSY-high sample: both rows fire, the ACK row first (60_exceptions.md R229). -/
theorem test_decode_ackRise_then_exit :
    decodeEvents ⟨.informationTransfer, true, 1⟩ 0b1_0_1_1_1_1_1_10011001_1_1_1_1_1_1_1_10011001 =
      [.evAckRise, .evInformationTransferEnd] := by decide

/-- The edges of other phases are not looked at (40_phase_fsm.md R128): SEL rising in BUS_FREE, SEL falling in ARBITRATION,
BSY falling in SELECTION, ACK falling in BUS_FREE. -/
theorem test_decode_ignores_foreign_edges :
    decodeEvents ⟨.busFree, false, 0⟩ (eventWord (controlsOf 0x7EFF) 0x7FFF) = [] ∧
    decodeEvents ⟨.arbitration, false, 0⟩ (eventWord (controlsOf 0x7FFF) 0x7EFF) = [] ∧
    decodeEvents ⟨.selection, false, 0⟩ (eventWord (controlsOf 0x7EFF) 0x7CFF) = [] ∧
    decodeEvents ⟨.busFree, false, 0⟩ (eventWord (controlsOf 0x7FFF) 0x5FFF) = [] := by decide

theorem test_decode_subphase_codes :
    [[0b000], [0b001], [0b010], [0b011], [0b100], [0b101], [0b110], [0b111]].map (decode ⟨.busFree, false, 0⟩ .subphaseCode) =
      [.ok .sp0, .ok .sp1, .ok .sp2, .ok .sp3, .ok .sp4, .ok .sp5, .ok .sp6, .ok .sp7] := by rfl

theorem test_decode_opcodes :
    [[0x00], [0x03], [0x15], [0x1A], [0x1E], [0x28], [0x43], [0x44], [0x4B], [0xD8], [0x08], [0xFF]].map
        (decode ⟨.busFree, false, 0⟩ .cdb) =
      [.ok .testUnitReady, .ok .requestSense, .ok .modeSelect, .ok .modeSense, .ok .preventAllow, .ok .readExt,
       .ok .readToc, .ok .readHeader, .ok .pauseResume, .ok .audioTrackSearch, .ok (.unknown 0x08),
       .ok (.unknown 0xFF)] := by rfl

theorem test_decode_rejects_by_name :
    decode ⟨.busFree, false, 0⟩ .event [0xFF] = .error .wrongLength ∧
    decode ⟨.busFree, false, 0⟩ .event [0xFF, 0xFF, 0xFF, 0x7F] = .error .reservedBits ∧
    decode ⟨.busFree, false, 0⟩ .event [0xFF, 0xFF, 0xFF, 0x3F] = .error .noEvent ∧
    decode ⟨.busFree, false, 0⟩ .subphaseCode [8] = .error .reservedBits ∧
    decode ⟨.busFree, false, 0⟩ .cdb [] = .error .emptyDescriptor := ⟨rfl, rfl, rfl, rfl, rfl⟩

/-! ### The table's numbers: the decoder's answer and the instruction the next step runs -/

theorem test_table_words_decode :
    decodeTableWord 32 0x00800000 = some .evBusFreeEnd ∧ decodeTableWord 32 0x010000F7 = some (.evArbitrationEnd 0xF7) ∧
    decodeTableWord 32 0x00001900 = some (.evSelectionEnd 5) ∧
    decodeTableWord 32 0x00000200 = some .evInformationTransferEnd ∧
    decodeTableWord 32 0x10000028 = some (.evAckFall 0x28) ∧ decodeTableWord 32 0x00002000 = some .evAckRise ∧
    decodeTableWord 8 5 = some .sp5 ∧ decodeTableWord 8 0x28 = some .readExt ∧
    decodeTableWord 8 0xFF = some (.unknown 0xFF) := ⟨rfl, rfl, rfl, rfl, rfl, rfl, rfl, rfl, rfl⟩

theorem test_placed_arbitrationEnd_runs :
    labels (step (State.reset.withFetchWord 32 0x010000F7)) = ["Arbitration", "LUN: 3"] := by decide

theorem test_placed_ackRise_runs :
    after (step (State.reset.withFetchWord 32 0x00002000)) (fun t => t.byteCount == 1 && !t.latchValid) = true := by decide

theorem test_placed_subphase_runs : labels (step (State.reset.withFetchWord 8 7)) = ["Data Out"] := by decide

theorem test_placed_opcode_runs :
    labels (step (State.reset.withFetchWord 8 0x4B)) =
      ["Command", "PAUSE/RESUME (pause) [4B 00 00 00 00 00 00 00 00 00]"] := by decide

/-! ### Phase rows (95_test_vectors.md 2.2 and 2.9; intervals by 40_phase_fsm.md R121 to R126) -/

theorem test_busFreeEnd_step :
    shown (step (bus .busFree 0x7FFF 0x7EFF)) = [(0, 10, 20, "Bus Free")] ∧
    after (step (bus .busFree 0x7FFF 0x7EFF)) (fun t => t.phase == .arbitration && t.phaseStart == 20) = true := by decide

/-- SEL and BSY fall together: one transition per step (2.9, third row). -/
theorem test_busFreeEnd_one_transition :
    after (step (bus .busFree 0x7FFF 0x7CFF)) (fun t => t.phase == .arbitration && t.out.length == 1) = true := by decide

theorem test_arbitrationEnd_step :
    shown (step (bus .arbitration 0x7EFF 0x7CF7)) = [(0, 10, 20, "Arbitration"), (1, 10, 20, "LUN: 3")] ∧
    after (step (bus .arbitration 0x7EFF 0x7CF7)) (fun t => t.phase == .selection && t.arbPins == 0xF7) = true := by decide

theorem test_selectionEnd_step :
    shown (step { bus .selection 0x7C75 0x79FF with arbPins := 0x75 }) =
      [(0, 10, 20, "Selection"), (1, 10, 20, "LUN: 7,3,1")] ∧
    after (step (bus .selection 0x7C75 0x79FF)) (fun t => t.subphase == 5 && t.runStart == 20 && t.byteRunStart == 20) = true := by
  decide

/-- BSY is not looked at in SELECTION (2.9, fifth row). -/
theorem test_selection_ignores_bsy :
    after (step (bus .selection 0x7CF7 0x7EF7)) (fun t => t.phase == .selection && t.out.isEmpty) = true := by decide

/-- 10_state.md R32: a window that is still open at the exit is discarded, flag and count. -/
theorem test_informationTransferEnd_clears_window :
    after (step { transfer 0x7BFF 0x7BFF 7 0 with bsyHighCnt := 1, dbPending := true, dbCnt := 2 })
      (fun t => t.phase == .busFree && !t.dbPending && t.dbCnt == 0 && t.bsyHighCnt == 0) = true := by decide

/-- 2.5, second row: the second BSY-high sample flushes and ends the phase. -/
theorem test_informationTransferEnd_step :
    shown (step { command 0x7BFF 0x7BFF [0x00] with bsyHighCnt := 1 }) =
      [(2, 12, 20, "Command"), (3, 12, 20, "TEST UNIT READY [00]"), (0, 10, 20, "Information Transfer")] := by decide

/-- H2: a latched byte is not finalised by the exit, and stays valid. -/
theorem test_informationTransferEnd_keeps_latch :
    after (step { transfer 0x5F99 0x5F99 7 0 with bsyHighCnt := 1, latchValid := true, dataLatch := 0x99 })
      (fun t => t.phase == .busFree && t.latchValid && t.out.length == 1) = true := by decide

/-! ### Handshake rows (95_test_vectors.md 2.6) -/

theorem test_ackFall_latches :
    after (step (transfer 0x7DFF 0x5D3C 7 0)) (fun t => t.dataLatch == 0x3C && t.latchValid && t.out.isEmpty) = true := by decide

/-- H1: data lines that change while ACK is low are not latched again. -/
theorem test_ackLow_does_not_relatch :
    after (step { transfer 0x5D81 0x5D18 7 2 with latchValid := true, dataLatch := 0x81 }) (fun t => t.dataLatch == 0x81) =
      true := by decide

theorem test_ackRise_finalises :
    shown (step { transfer 0x5D3C 0x7DC3 7 0 with latchValid := true, dataLatch := 0x3C }) =
      [(4, 15, 20, "3C"), (6, 15, 20, "0")] := by decide

/-- The first COMMAND byte is emitted under its own class: category 8 + 2 for 0x28 (program P2, step 13). -/
theorem test_ackRise_in_command :
    shown (step { transfer 0x5928 0x7928 5 0 with latchValid := true, dataLatch := 0x28 }) =
      [(10, 15, 20, "28"), (6, 15, 20, "0")] := by decide

/-- A 17th byte is dropped and flagged, and still counted and emitted (2.7). -/
theorem test_accumulator_overflow :
    after (step { stored (List.replicate 16 0x28) with
        prev := controlsOf 0x5910, latchValid := true, dataLatch := 0x10 })
      (fun t => t.cdbLen == 16 && t.cdbOverflow && t.byteCount == 17 && t.out.length == 2) = true := by decide

/-- A rising ACK without a latch is dropped (program P6, step 7). -/
theorem test_ackRise_without_latch :
    after (step (transfer 0x5912 0x7912 5 0)) (fun t => t.byteCount == 0 && t.out.isEmpty) = true := by decide

/-! ### Sub-phase rows: record and direction (95_test_vectors.md 2.2) -/

theorem test_subphase_rows_labels :
    [exec .sp0 (transfer 0 0 0 1), exec .sp1 (transfer 0 0 1 1), exec .sp2 (transfer 0 0 2 1), exec .sp3 (transfer 0 0 3 1),
      exec .sp4 (transfer 0 0 4 1), exec .sp5 (transfer 0 0 5 1), exec .sp6 (transfer 0 0 6 1),
      exec .sp7 (transfer 0 0 7 1)].map shown =
    [[(2, 12, 20, "Message In")], [(2, 12, 20, "Message Out")], [(2, 12, 20, "Unused (2)")], [(2, 12, 20, "Unused (3)")],
     [(2, 12, 20, "Status")], [(2, 12, 20, "Command")], [(2, 12, 20, "Data In")], [(2, 12, 20, "Data Out")]] := by decide

theorem test_directions :
    [(0 : Code), 1, 2, 3, 4, 6, 7].map (fun c => (bytePayload { transfer 0 0 c 0 with subphase := c } 0xA5).cat) =
      [5, 4, 5, 4, 5, 5, 4] := by decide

/-! ### Descriptor rows: labels of 95_test_vectors.md 2.8 -/

theorem test_testUnitReady :
    labels (exec .testUnitReady (stored [0, 0, 0, 0, 0, 0])) = ["TEST UNIT READY [00 00 00 00 00 00]"] := by decide
theorem test_requestSense :
    labels (exec .requestSense (stored [3, 0, 0, 0, 0x12])) = ["REQUEST SENSE (18-byte) [03 00 00 00 12]"] := by decide
theorem test_requestSense_short :
    labels (exec .requestSense (stored [3, 0, 0, 0])) = ["REQUEST SENSE (short) [03 00 00 00]"] := by decide
theorem test_modeSelect :
    labels (exec .modeSelect (stored [0x15, 0x10, 0, 0, 0x0A, 0])) =
      ["MODE SELECT (SCSI-2-compliant), list length 10 [15 10 00 00 0A 00]"] := by decide
theorem test_modeSense :
    labels (exec .modeSense (stored [0x1A, 0, 0xC1, 0, 0x18, 0])) =
      ["MODE SENSE, page control 3, page code 0x81, list length 24 [1A 00 C1 00 18 00]"] := by decide
theorem test_modeSense_vendor :
    labels (exec .modeSense (stored [0x1A, 0, 0, 0, 0x0C, 0])) =
      ["MODE SENSE (vendor-specific), list length 12 [1A 00 00 00 0C 00]"] := by decide
theorem test_preventAllow :
    labels (exec .preventAllow (stored [0x1E, 0, 0, 0, 0x80, 0])) =
      ["PREVENT/ALLOW MEDIUM REMOVAL (prevent) [1E 00 00 00 80 00]"] := by decide
theorem test_readExt :
    labels (exec .readExt (stored [0x28, 0, 0, 0, 0x10, 0, 0, 0, 2, 0])) =
      ["READ (LBA) LBA 0x00001000, blocks 2 [28 00 00 00 10 00 00 00 02 00]"] := by decide
theorem test_readExt_msf :
    labels (exec .readExt (stored [0x28, 0, 1, 0x23, 0x45, 0, 0, 0, 0x10, 0x40])) =
      ["READ (MSF) 01:23:45, blocks 16 [28 00 01 23 45 00 00 00 10 40]"] := by decide
theorem test_readToc :
    labels (exec .readToc (stored [0x43, 0, 0, 0, 0, 0, 1, 3, 0x24, 0])) =
      ["READ TOC (LBA), start track 1, numbytes 804, tracks 100 [43 00 00 00 00 00 01 03 24 00]"] := by decide
theorem test_readToc_negative :
    labels (exec .readToc (stored [0x43, 0, 0, 0, 0, 0, 0, 0, 3, 0])) =
      ["READ TOC (LBA), start track 0, numbytes 3, tracks -1 [43 00 00 00 00 00 00 00 03 00]"] := by decide
theorem test_readHeader :
    labels (exec .readHeader (stored [0x44, 2, 0, 1, 0x23, 0x45, 0, 0, 8, 0])) =
      ["READ HEADER (MSF), LBA 0x00012345, numbytes 8 [44 02 00 01 23 45 00 00 08 00]"] := by decide
theorem test_pauseResume :
    labels (exec .pauseResume (stored [0x4B, 0, 0, 0, 0, 0, 0, 0, 0x80])) =
      ["PAUSE/RESUME (resume) [4B 00 00 00 00 00 00 00 80]"] := by decide
theorem test_audioTrackSearch :
    labels (exec .audioTrackSearch (stored [0xD8, 1, 2, 0x30, 0x15, 0, 0, 0, 0, 0x40])) =
      ["AUDIO TRACK SEARCH (play) (MSF) 02:30:15 [D8 01 02 30 15 00 00 00 00 40]"] := by decide
theorem test_audioTrackSearch_unknown_addressing :
    labels (exec .audioTrackSearch (stored [0xD8, 0, 0, 0, 0, 0, 0, 0, 0, 0xC0])) =
      ["AUDIO TRACK SEARCH (pause) (unknown addressing) [D8 00 00 00 00 00 00 00 00 C0]"] := by decide
theorem test_unknown :
    labels (exec (.unknown 0xFF) (stored [0xFF, 1, 2, 3, 4, 5, 6, 7])) = ["Unknown command [FF 01 02 03 04 05]"] := by decide
theorem test_unknown_three_bytes :
    labels (exec (.unknown 0x25) (stored [0x25, 0, 0])) = ["Unknown command [25 00 00]"] := by decide

/-! ### Debouncer, BSY filter, LUN list, exception (95_test_vectors.md 2.3 to 2.5, 2.10) -/

/-- A first edge opens a window of W samples. -/
theorem test_window_opens :
    after (step (command 0x79FF 0x7DFF [0x00])) (fun t => t.dbPending && t.dbCnt == 2 && t.subphase == 5) = true := by decide

/-- Expiry on the committed code is a glitch; on another code a boundary, to the code of the expiry frame. -/
theorem test_window_expires :
    after (step { command 0x7DFF 0x79FF [0x00] with dbPending := true, dbCnt := 1 })
      (fun t => !t.dbPending && t.subphase == 5 && t.byteCount == 1 && t.out.isEmpty) = true ∧
    after (step { command 0x7DFF 0x75FF [0x00] with dbPending := true, dbCnt := 1 })
      (fun t => !t.dbPending && t.subphase == 6 && t.byteCount == 0 && t.runStart == 20 && t.out.length == 2) = true := by decide

/-- One BSY-high sample is counted, a low one clears the count (2.5, first row). -/
theorem test_bsy_glitch :
    after (step (command 0x79FF 0x7BFF [0x00])) (fun t => t.bsyHighCnt == 1 && t.phase == .informationTransfer) = true ∧
    after (step { command 0x7BFF 0x79FF [0x00] with bsyHighCnt := 1 })
      (fun t => t.bsyHighCnt == 0 && t.phase == .informationTransfer) = true := by decide

theorem test_lun_list :
    ([0xFF, 0xFE, 0xF7, 0x75, 0xAA, 0x80, 0x01] : List Byte).map lunList =
      ["", "", "3", "7,3,1", "6,4,2", "6,5,4,3,2,1", "7,6,5,4,3,2,1"] := by decide

/-- 2.10, first row, and program P5: STATUS bits 4:0 read 0x05 after the configuration error. -/
theorem test_configuration_error :
    after (step { State.reset with input := [.frame 0x7FFF] })
      (fun t => t.cfgError && t.errCfg && t.runState == .halted && t.samplenum == 1 && t.out.isEmpty && !t.prevValid &&
        (statusRegister t &&& 0x1F) == 0x05) = true := by decide

/-- 2.10, fourth row: a sample rate of 0 is a configured one. -/
theorem test_zero_sample_rate_runs :
    after (step { State.reset with cfg := ⟨true, 0⟩, input := [.frame 0x7FFF] })
      (fun t => !t.cfgError && t.runState == .running && t.prevValid && t.samplenum == 1) = true := by decide

/-- Reset leaves HALTED, keeps CFG and what still waits (60_exceptions.md R223, 70_reset_and_hazards.md R240). -/
theorem test_reset_leaves_halted :
    step { State.reset with runState := .halted, errCfg := true, samplenum := 14, cfg := ⟨true, 7⟩, input := [.rst] } =
      .next { State.reset with cfg := ⟨true, 7⟩ } := by rfl

/-- H2, then ACK rises in BUS_FREE: 10_state.md R43(f) as it is written does not survive this step (log 12). -/
theorem test_latch_rule_fails_outside_transfer :
    after (step { bus .busFree 0x5F99 0x7F99 with latchValid := true, dataLatch := 0x99 })
      (fun t => t.runState == .running && t.latchValid && t.prev.ack) = true := by decide

/-! ### Witnesses: for every statement with hypotheses, states that meet them, at boundary values for its clauses -/

theorem witness_BusFreeEndsOnSelFall :
    (bus .busFree 0x7FFF 0x7EFF).stepWithinSpec ∧ (bus .busFree 0x7FFF 0x7EFF).runState = .running ∧
    (bus .busFree 0x7FFF 0x7EFF).phase = .busFree ∧
    (bus .busFree 0x7FFF 0x7EFF).input = .frame 0x7EFF :: [] := by decide

theorem witness_ArbitrationEndsOnBsyFall :
    (bus .arbitration 0x7EFF 0x7CF7).stepWithinSpec ∧ (bus .arbitration 0x7EFF 0x7CF7).runState = .running ∧
    (bus .arbitration 0x7EFF 0x7CF7).phase = .arbitration ∧
    (bus .arbitration 0x7EFF 0x7CF7).input = .frame 0x7CF7 :: [] := by decide

theorem witness_SelectionEndsOnSelRise :
    (bus .selection 0x7CFF 0x79FF).stepWithinSpec ∧ (bus .selection 0x7CFF 0x79FF).runState = .running ∧
    (bus .selection 0x7CFF 0x79FF).phase = .selection ∧
    (bus .selection 0x7CFF 0x79FF).input = .frame 0x79FF :: [] := by decide

theorem witness_TransferExitFlushesAndReturnsToBusFree :
    ((transfer 0x7DFF 0x7DFF 7 0).withinSpec ∧ (transfer 0x7DFF 0x7DFF 7 0).byteCount = 0) ∧
    ((transfer 0x7DFF 0x7DFF 7 1).withinSpec ∧ 1 ≤ (transfer 0x7DFF 0x7DFF 7 1).byteCount ∧
     (transfer 0x7DFF 0x7DFF 7 1).subphase ≠ 5) ∧
    ((stored [0x00]).withinSpec ∧ 1 ≤ (stored [0x00]).byteCount ∧ (stored [0x00]).subphase = 5 ∧ 1 ≤ (stored [0x00]).cdbLen ∧
      (stored [0x00]).cdbLen ≤ (stored [0x00]).params.cdbMax) := by decide

theorem witness_AckFallLatchesDataLevels :
    let s := transfer 0x7DFF 0x5D3C 7 0
    s.stepWithinSpec ∧ s.runState = .running ∧ s.prevValid = true ∧ s.phase = .informationTransfer ∧ s.dbPending = false ∧
    s.input = .frame 0x5D3C :: [] ∧ s.prev.ack = true ∧ Frame.ack 0x5D3C = false ∧ Frame.bsy 0x5D3C = false ∧
    Frame.code 0x5D3C = s.prev.code := by decide

theorem witness_AckRiseFinalisesByte :
    let s := { transfer 0x5D3C 0x7D3C 7 0 with latchValid := true }
    s.byteWithinSpec ∧ s.latchValid = true ∧ s.subphase ≠ 5 := by decide

theorem witness_AckRiseInCommandStoresByte_first_byte :
    let s := { transfer 0x5928 0x7928 5 0 with latchValid := true, dataLatch := 0x28 }
    s.byteWithinSpec ∧ s.latchValid = true ∧ s.subphase = 5 ∧ s.byteCount = 0 := by decide

/-- The last byte that the store takes, after fifteen. -/
def fifteenBytes : State :=
  { stored (List.replicate 15 0x28) with
    prev := controlsOf 0x5928, input := [.frame 0x7928], latchValid := true, dataLatch := 0x10 }

theorem witness_AckRiseInCommandStoresByte :
    fifteenBytes.byteWithinSpec ∧ fifteenBytes.Inv ∧ fifteenBytes.phase = .informationTransfer ∧
    fifteenBytes.latchValid = true ∧
    fifteenBytes.subphase = 5 ∧ (∃ t, exec .evAckRise fifteenBytes = .next t) ∧ 1 ≤ fifteenBytes.byteCount ∧
    fifteenBytes.byteCount < fifteenBytes.params.cdbMax :=
  ⟨by decide, inv_of _ rfl, by decide, by decide, by decide, ⟨_, rfl⟩, by decide, by decide⟩

theorem witness_AckRiseWithoutLatchDoesNothing :
    (transfer 0x5912 0x7912 5 0).withinSpec ∧ (transfer 0x5912 0x7912 5 0).latchValid = false := by decide

theorem witness_SubphaseRowsEmitTheRunRecord : (transfer 0x7DFF 0x7DFF 7 1).withinSpec := by decide

theorem witness_TestUnitReadyDecodes :
    (stored [0x00]).withinSpec ∧ (stored (List.replicate 16 0x00)).withinSpec ∧
    (1 ≤ (stored [0x00]).cdbLen ∧ (stored [0x00]).cdbLen ≤ (stored [0x00]).params.cdbMax) ∧
    (stored (List.replicate 16 0x00)).cdbLen = (stored [0x00]).params.cdbMax := by decide

theorem witness_RequestSenseDecodes :
    (stored [3, 0, 0, 0, 0x12]).withinSpec ∧ 5 ≤ (stored [3, 0, 0, 0, 0x12]).cdbLen ∧
    (stored [3, 0, 0, 0, 0x12]).cdbLen ≤ (stored [3, 0, 0, 0, 0x12]).params.cdbMax := by
  decide

theorem witness_ModeSelectDecodes :
    (stored [0x15, 1, 0, 0, 255]).withinSpec ∧ 5 ≤ (stored [0x15, 1, 0, 0, 255]).cdbLen ∧
    (stored [0x15, 1, 0, 0, 255]).cdbLen ≤ (stored [0x15, 1, 0, 0, 255]).params.cdbMax := by decide

/-- Both clauses of the statement, each with bytes at which it applies. -/
theorem witness_ModeSenseDecodes :
    ((stored [0x1A, 0, 0, 0, 12]).withinSpec ∧ 5 ≤ (stored [0x1A, 0, 0, 0, 12]).cdbLen ∧
      (stored [0x1A, 0, 0, 0, 12]).cdbLen ≤ (stored [0x1A, 0, 0, 0, 12]).params.cdbMax ∧
      (stored [0x1A, 0, 0, 0, 12]).cdb.read 1 = 0x00 ∧ (stored [0x1A, 0, 0, 0, 12]).cdb.read 2 = 0x00) ∧
    ((stored [0x1A, 8, 0, 0, 4]).withinSpec ∧ 5 ≤ (stored [0x1A, 8, 0, 0, 4]).cdbLen ∧
     (stored [0x1A, 8, 0, 0, 4]).cdbLen ≤ (stored [0x1A, 8, 0, 0, 4]).params.cdbMax ∧
      ¬ ((stored [0x1A, 8, 0, 0, 4]).cdb.read 1 = 0x00 ∧ (stored [0x1A, 8, 0, 0, 4]).cdb.read 2 = 0x00)) := by decide

theorem witness_PreventAllowDecodes :
    (stored [0x1E, 0, 0, 0, 1]).withinSpec ∧ 5 ≤ (stored [0x1E, 0, 0, 0, 1]).cdbLen ∧
    (stored [0x1E, 0, 0, 0, 1]).cdbLen ≤ (stored [0x1E, 0, 0, 0, 1]).params.cdbMax := by
  decide

/-- The four addressing clauses of 0x28 and of 0xD8, one descriptor of ten bytes for each. -/
theorem witness_ReadExtDecodes_and_AudioTrackSearchDecodes :
    ([0x00, 0x40, 0x80, 0xC0] : List Byte).all (fun mode =>
      let s := stored [0x28, 1, 2, 3, 4, 5, 6, 7, 8, mode]
      decide s.withinSpec && 10 ≤ s.cdbLen && s.cdbLen ≤ s.params.cdbMax && s.cdb.read 9 == mode) = true ∧
    (0xC0 : Byte) ≠ 0x00 ∧ (0xC0 : Byte) ≠ 0x40 ∧ (0xC0 : Byte) ≠ 0x80 := by decide

theorem witness_ReadTocDecodes_ReadHeaderDecodes_PauseResumeDecodes :
    (stored [0x43, 0, 0, 0, 0, 0, 1, 3, 0x24]).withinSpec ∧ 9 ≤ (stored [0x43, 0, 0, 0, 0, 0, 1, 3, 0x24]).cdbLen ∧
    (stored [0x43, 0, 0, 0, 0, 0, 1, 3, 0x24]).cdbLen ≤ (stored [0x43, 0, 0, 0, 0, 0, 1, 3, 0x24]).params.cdbMax := by decide

theorem witness_UnknownOpcodeEchoesSixBytes_and_EveryOpcodeCompletes :
    (stored []).withinSpec ∧ (stored (List.replicate 16 0xFF)).withinSpec ∧ (stored []).cdbLen ≤ (stored []).params.cdbMax ∧
    (stored (List.replicate 16 0xFF)).cdbLen ≤ (stored []).params.cdbMax := by decide

/-- One byte less than `need`, for `need` = 1 (an empty descriptor), 5, 9 and 10. -/
theorem witness_ShortDescriptorsAreReported :
    ([[], [3, 0, 0, 0], List.replicate 8 0x43, List.replicate 9 0x28].all fun bytes => decide (stored bytes).withinSpec) = true ∧
    (stored []).cdbLen < needOf .testUnitReady ∧ (stored [3, 0, 0, 0]).cdbLen < needOf .requestSense ∧
    (stored (List.replicate 8 0x43)).cdbLen < needOf .readToc ∧ (stored (List.replicate 9 0x28)).cdbLen < needOf .readExt ∧
    (stored (List.replicate 9 0x28)).cdbLen ≤ (stored []).params.cdbMax := by decide

theorem witness_CommandRowsWriteOnlyTheirRecord :
    (stored [0x28, 0, 0, 0, 0x10, 0, 0, 0, 2, 0]).withinSpec ∧ Instr.readExt.format = .cdb ∧
    ∃ t, exec .readExt (stored [0x28, 0, 0, 0, 0x10, 0, 0, 0, 2, 0]) = .next t :=
  ⟨by decide, rfl, _, rfl⟩

theorem witness_FlushRunExecutesDecodedRows :
    ((transfer 0x7DFF 0x7DFF 7 0).withinSpec ∧ (transfer 0x7DFF 0x7DFF 7 0).byteCount = 0) ∧
    ((transfer 0x7DFF 0x7DFF 7 1).withinSpec ∧ 1 ≤ (transfer 0x7DFF 0x7DFF 7 1).byteCount ∧
     (transfer 0x7DFF 0x7DFF 7 1).subphase ≠ 5) ∧
    ((stored [0x4B]).withinSpec ∧ 1 ≤ (stored [0x4B]).byteCount ∧ (stored [0x4B]).subphase = 5 ∧
     (cdbRead (stored [0x4B]) 0).toOption = some 0x4B) := by
  decide

/-- An empty run in INFORMATION_TRANSFER with ACK high, and stimuli that keep ACK high while CD and BSY move. -/
theorem witness_ZeroByteRunsAreSilent :
    let s := { transfer 0x7DFF 0x79FF 7 0 with input := [.frame 0x79FF, .frame 0x79FF, .frame 0x7FFF] }
    s.withinSpec ∧ s.runWithinSpec 3 = true ∧ (s.phase = .informationTransfer → s.byteCount = 0) ∧
    (s.prevValid = true → s.prev.ack = true) ∧
    (∀ f, Stimulus.frame f ∈ s.input → f.ack = true) := by
  refine ⟨by decide, by decide, by decide, by decide, fun f hf => ?_⟩
  simp only [List.mem_cons, Stimulus.frame.injEq, List.not_mem_nil, or_false] at hf
  rcases hf with rfl | rfl | rfl <;> decide

/-- A CD edge with W = 2, one frame between it and the deciding frame. -/
def firstEdge (last : Frame) : State :=
  { command 0x79FF 0x7DFF [0x00] with input := .frame 0x7DFF :: ([(0x7DFF : Frame)].map .frame ++ .frame last :: []) }

/-- The three frames hold ACK high and BSY low. -/
theorem firstEdge_lines (last : Frame) (hl : last.ack = true ∧ last.bsy = false) :
    ∀ f ∈ (0x7DFF : Frame) :: ([0x7DFF] ++ [last]), f.ack = (firstEdge last).prev.ack ∧ f.bsy = false := by
  have hp : (firstEdge last).prev.ack = true := rfl
  rw [hp]
  simpa using ⟨⟨rfl, rfl⟩, hl⟩

/-- The deciding frame shows the committed code again: the first clause. -/
theorem witness_DebounceWindowDecides_glitch :
    (firstEdge 0x79FF).withinSpec ∧
    (firstEdge 0x79FF).samplenum + (firstEdge 0x79FF).params.debounceWindow + 1 < 2 ^ Config.sampleW ∧
    (firstEdge 0x79FF).Inv ∧ (firstEdge 0x79FF).runState = .running ∧ (firstEdge 0x79FF).prevValid = true ∧
    (firstEdge 0x79FF).phase = .informationTransfer ∧ (firstEdge 0x79FF).dbPending = false ∧
    (firstEdge 0x79FF).input = .frame 0x7DFF :: ([(0x7DFF : Frame)].map .frame ++ .frame 0x79FF :: []) ∧
    [(0x7DFF : Frame)].length + 1 = (firstEdge 0x79FF).params.debounceWindow ∧
    Frame.code 0x7DFF ≠ (firstEdge 0x79FF).subphase ∧
    (∀ f ∈ (0x7DFF : Frame) :: ([0x7DFF] ++ [0x79FF]), f.ack = (firstEdge 0x79FF).prev.ack ∧ f.bsy = false) ∧
    Frame.code 0x79FF = (firstEdge 0x79FF).subphase :=
  ⟨by decide, by decide, inv_of _ (by decide), rfl, rfl, rfl, rfl, rfl, rfl, by decide, firstEdge_lines _ (by decide), by decide⟩

/-- It shows another code, and the old COMMAND run has a byte: the second clause. -/
theorem witness_DebounceWindowDecides_boundary :
    (firstEdge 0x7DFF).withinSpec ∧
    (firstEdge 0x7DFF).samplenum + (firstEdge 0x7DFF).params.debounceWindow + 1 < 2 ^ Config.sampleW ∧
    (firstEdge 0x7DFF).Inv ∧ (firstEdge 0x7DFF).runState = .running ∧ (firstEdge 0x7DFF).prevValid = true ∧
    (firstEdge 0x7DFF).phase = .informationTransfer ∧ (firstEdge 0x7DFF).dbPending = false ∧
    (firstEdge 0x7DFF).input = .frame 0x7DFF :: ([(0x7DFF : Frame)].map .frame ++ .frame 0x7DFF :: []) ∧
    [(0x7DFF : Frame)].length + 1 = (firstEdge 0x7DFF).params.debounceWindow ∧
    Frame.code 0x7DFF ≠ (firstEdge 0x7DFF).subphase ∧
    (∀ f ∈ (0x7DFF : Frame) :: ([0x7DFF] ++ [0x7DFF]), f.ack = (firstEdge 0x7DFF).prev.ack ∧ f.bsy = false) ∧
    Frame.code 0x7DFF ≠ (firstEdge 0x7DFF).subphase ∧ 1 ≤ (firstEdge 0x7DFF).byteCount ∧ (firstEdge 0x7DFF).subphase = 5 :=
  ⟨by decide, by decide, inv_of _ (by decide), rfl, rfl, rfl, rfl, rfl, rfl, by decide, firstEdge_lines _ (by decide), by decide, by decide, rfl⟩

/-- A DATA_IN run of `n` bytes that ends in a STATUS code. -/
def dataEdge (n : Nat) : State :=
  { transfer 0x75FF 0x71FF 6 n with input := .frame 0x71FF :: ([(0x71FF : Frame)].map .frame ++ .frame 0x71FF :: []) }

/-- The second clause for an empty run and for a run with one byte outside COMMAND. -/
theorem witness_DebounceWindowDecides_empty_and_data (n : Nat) (hn : n = 0 ∨ n = 1) :
    (dataEdge n).withinSpec ∧
    (dataEdge n).samplenum + (dataEdge n).params.debounceWindow + 1 < 2 ^ Config.sampleW ∧ (dataEdge n).Inv ∧
    (dataEdge n).runState = .running ∧ (dataEdge n).prevValid = true ∧
    (dataEdge n).phase = .informationTransfer ∧ (dataEdge n).dbPending = false ∧
    (dataEdge n).input = .frame 0x71FF :: ([(0x71FF : Frame)].map .frame ++ .frame 0x71FF :: []) ∧
    [(0x71FF : Frame)].length + 1 = (dataEdge n).params.debounceWindow ∧ Frame.code 0x71FF ≠ (dataEdge n).subphase ∧
    (∀ f ∈ (0x71FF : Frame) :: ([0x71FF] ++ [0x71FF]), f.ack = (dataEdge n).prev.ack ∧ f.bsy = false) ∧
    (dataEdge n).byteCount = n ∧ (dataEdge n).subphase ≠ 5 := by
  have lines : ∀ f ∈ (0x71FF : Frame) :: ([0x71FF] ++ [0x71FF]), f.ack = true ∧ f.bsy = false := by
    intro f hf
    simp only [List.cons_append, List.nil_append, List.mem_cons, List.not_mem_nil, or_false, or_self] at hf
    rw [hf]; decide
  rcases hn with rfl | rfl <;>
    exact ⟨by decide, by decide, inv_of _ (by decide), rfl, rfl, rfl, rfl, rfl, rfl, by decide, lines, rfl, by decide⟩

/-- The three clauses: BSY low, the first high sample, the second. -/
theorem witness_SecondBsyHighSampleEndsTransfer :
    ((command 0x79FF 0x79FF [0x00]).stepWithinSpec ∧ (command 0x79FF 0x79FF [0x00]).Inv ∧ Frame.bsy 0x79FF = false) ∧
    ((command 0x79FF 0x7BFF [0x00]).stepWithinSpec ∧ (command 0x79FF 0x7BFF [0x00]).Inv ∧ Frame.bsy 0x7BFF = true ∧
     (command 0x79FF 0x7BFF [0x00]).bsyHighCnt = 0) ∧
    (let s := { command 0x7BFF 0x7BFF [0x00] with bsyHighCnt := 1 }
     s.stepWithinSpec ∧ s.Inv ∧ s.runState = .running ∧ s.prevValid = true ∧ s.phase = .informationTransfer ∧
     s.input = .frame 0x7BFF :: [] ∧ s.bsyHighCnt = 1) :=
  ⟨⟨by decide, inv_of _ rfl, by decide⟩, ⟨by decide, inv_of _ rfl, by decide⟩, by decide, inv_of _ rfl, by decide⟩

/-- A confirmed boundary changes the committed code. -/
theorem witness_SubphaseChangesOnlyAtEntryOrBoundary :
    State.stepWithinSpec { transfer 0x7DFF 0x75FF 7 0 with dbPending := true, dbCnt := 1 } ∧
    ∃ t, step { transfer 0x7DFF 0x75FF 7 0 with dbPending := true, dbCnt := 1 } = .next t ∧ t.subphase ≠ 7 :=
  ⟨by decide, _, rfl, by decide⟩

/-- Outside INFORMATION_TRANSFER, with no row that fires and with one. -/
theorem witness_StepExecutesDecodedPhaseEvent :
    let s := bus .busFree 0x7FFF 0x7EFF
    s.stepWithinSpec ∧ s.runState = .running ∧ s.prevValid = true ∧ s.phase ≠ .informationTransfer ∧
    s.input = .frame 0x7EFF :: [] ∧
    decodeEvents ⟨s.phase, s.latchValid, s.bsyHighCnt⟩ (eventWord s.prev 0x7FFF) = [] ∧
    decodeEvents ⟨s.phase, s.latchValid, s.bsyHighCnt⟩ (eventWord s.prev 0x7EFF) = [.evBusFreeEnd] := by decide

theorem witness_StepExecutesDecodedTransferRows :
    let s := transfer 0x7DFF 0x5D3C 7 0
    s.stepWithinSpec ∧ s.runState = .running ∧ s.prevValid = true ∧ s.phase = .informationTransfer ∧
    s.input = .frame 0x5D3C :: [] := by decide

theorem witness_StepCompletesAndKeepsInvariant :
    (command 0x79FF 0x7DFF [0x28, 0, 3]).stepWithinSpec ∧ (command 0x79FF 0x7DFF [0x28, 0, 3]).Inv :=
  ⟨by decide, inv_of _ rfl⟩

/-- Parameters at their smallest: W = 1, CDB_MAX = 10, every opcode UNKNOWN. -/
theorem witness_ResetMeetsInvariant_and_RunsFromResetNeverStop :
    Params.wf ⟨1, 10, []⟩ ∧
    State.runWithinSpec 2 { State.reset with params := ⟨1, 10, []⟩, input := [.frame 0x7FFF, .frame 0x7EFF] } = true := by decide

theorem witness_PhaseRecordsFormStrictCycle :
    let s := bus .busFree 0x7FFF 0x7EFF
    s.stepWithinSpec ∧ s.runWithinSpec 1 = true ∧ (∃ t, step s = .next t ∧ t.phase ≠ s.phase) ∧
    (∀ rest, s.input ≠ .rst :: rest) ∧ Stimulus.rst ∉ s.input :=
  ⟨by decide, by decide, ⟨_, rfl, by decide⟩, by simp [bus], by decide⟩

theorem witness_RecordsEndAtTheCurrentSample :
    (bus .arbitration 0x7EFF 0x7CF7).stepWithinSpec ∧ (bus .arbitration 0x7EFF 0x7CF7).Inv ∧
    ∃ t, step (bus .arbitration 0x7EFF 0x7CF7) = .next t ∧ t.out ≠ [] :=
  ⟨by decide, inv_of _ rfl, _, rfl, by decide⟩

/-- A step that emits the most records: a COMMAND byte, then its run flushed at the exit. -/
theorem witness_AtMostFiveRecordsPerStep_and_CommandRecordFollowsItsRunRecord :
    let s := { stored [0x00] with
      prev := controlsOf 0x5B28, input := [.frame 0x7B28], latchValid := true, dataLatch := 0x28, bsyHighCnt := 1 }
    s.stepWithinSpec ∧ after (step s) (fun t => t.out.length == 5) = true := by decide

theorem witness_RecordsOfOneCategoryNeverOverlap :
    let input := [Stimulus.frame 0x7FFF, .frame 0x7EFF, .frame 0x7CF7, .frame 0x7DF7]
    Params.wf defaultParams ∧ Stimulus.rst ∉ input ∧
    State.runWithinSpec 4 { State.reset with params := defaultParams, cfg := ⟨true, 0⟩, input := input } = true := by decide

/-- A step that finalises a byte in INFORMATION_TRANSFER: the count grows. -/
theorem witness_ByteIndicesCountUpFromZero :
    let s := { transfer 0x5D3C 0x7D3C 7 2 with latchValid := true }
    s.stepWithinSpec ∧ (∃ t, step s = .next t ∧ t.byteCount = 3) ∧ s.input = .frame 0x7D3C :: [] ∧
    s.phase = .informationTransfer :=
  ⟨by decide, ⟨_, rfl, rfl⟩, by decide⟩

/-- A window that expires on another code clears the count, one that expires on the committed code keeps it. -/
theorem witness_ByteIndicesCountUpFromZero_boundary_and_glitch :
    let s := { transfer 0x7DFF 0x75FF 7 2 with dbPending := true, dbCnt := 1 }
    let g := { transfer 0x75FF 0x7DFF 7 2 with dbPending := true, dbCnt := 1 }
    s.stepWithinSpec ∧ g.stepWithinSpec ∧ (∃ t, step s = .next t ∧ t.byteCount = 0) ∧ s.input = .frame 0x75FF :: [] ∧
    Frame.code 0x75FF ≠ s.subphase ∧
    (∃ t, step g = .next t ∧ t.byteCount = 2) ∧ g.input = .frame 0x7DFF :: [] ∧ Frame.code 0x7DFF = g.subphase :=
  ⟨by decide, by decide, ⟨_, rfl, rfl⟩, by decide, by decide, ⟨_, rfl, rfl⟩, by decide, by decide⟩

/-- The entry to INFORMATION_TRANSFER. -/
theorem witness_ByteIndicesCountUpFromZero_entry :
    (bus .selection 0x7CFF 0x79FF).stepWithinSpec ∧ (bus .selection 0x7CFF 0x79FF).phase ≠ .informationTransfer ∧
    ∃ t, step (bus .selection 0x7CFF 0x79FF) = .next t ∧ t.phase = .informationTransfer :=
  ⟨by decide, by decide, _, rfl, rfl⟩

theorem witness_FirstFrameTestsConfiguration :
    let s := { State.reset with input := [.frame 0x7FFF] }
    s.stepWithinSpec ∧ s.runState = .idle ∧ s.input = .frame 0x7FFF :: [] ∧ s.cfg.srValid = false ∧
    (let t := { s with cfg := ⟨true, 0⟩ }
     t.stepWithinSpec ∧ t.runState = .idle ∧ t.cfg.srValid = true ∧ t.prevValid = false) := by decide

/-- Three frames wait, two of them among the next three stimuli. -/
theorem witness_HaltedUntilReset :
    let s := { State.reset with
      runState := .halted, errCfg := true, input := [.frame 0x7FFF, .writeCfg ⟨true, 1⟩, .frame 0x7EFF, .frame 0x7CFF] }
    s.withinSpec ∧ s.samplenum + framesAmong 3 s.input < 2 ^ Config.sampleW ∧ s.runState = .halted ∧
    Stimulus.rst ∉ s.input ∧ framesAmong 3 s.input = 2 := by decide

theorem witness_ResetRestoresGivenValues_and_HaltedUntilReset :
    let s := { stored [0x28] with input := [.rst, .frame 0x7FFF] }
    s.stepWithinSpec ∧ s.input = .rst :: [.frame 0x7FFF] := by decide

theorem witness_HostRegisters :
    let s := { stored [0x28] with input := [.writeCfg ⟨true, 48000⟩] }
    s.stepWithinSpec ∧ s.input = .writeCfg ⟨true, 48000⟩ :: [] ∧ s.phase = .informationTransfer := by decide

theorem witness_HoldsStateWithoutStimulus :
    let s := { stored [0x28] with input := [] }
    s.stepWithinSpec ∧ s.input = [] := by decide

/-- The first frame after a reset with a sample rate configured, with SEL already low. -/
theorem witness_FirstFrameOnlyLoadsPrev :
    let s := { State.reset with cfg := ⟨true, 0⟩, input := [.frame 0x7EFF] }
    s.stepWithinSpec ∧ s.Inv ∧ (s.runState = .running ∨ (s.runState = .idle ∧ s.cfg.srValid = true)) ∧ s.prevValid = false ∧
    s.input = .frame 0x7EFF :: [] :=
  ⟨by decide, inv_of _ rfl, by decide⟩

theorem witness_SampleNumberCountsFramesAndHostOwnsCfg :
    (bus .busFree 0x7FFF 0x7EFF).stepWithinSpec ∧ ∃ t, step (bus .busFree 0x7FFF 0x7EFF) = .next t := ⟨by decide, _, rfl⟩

theorem witness_ReqIsNeverRead :
    (0x7928 : Frame).setWidth 14 = (0x3928 : Frame).setWidth 14 ∧ (0x7928 : Frame) ≠ 0x3928 ∧
    State.stepWithinSpec { stored [0x28] with input := .frame 0x7928 :: [] } := by decide

theorem witness_DataLinesIgnoredWithoutTheirEdge :
    let s := transfer 0x5D3C 0x7DC3 7 0
    State.stepWithinSpec { s with input := .frame 0x7DC3 :: [] } ∧
    (0x7DC3 : Frame).extractLsb' 8 7 = (0x7D3C : Frame).extractLsb' 8 7 ∧
    ¬ (s.phase = .arbitration ∧ s.prev.bsy = true ∧ Frame.bsy 0x7DC3 = false) ∧
    ¬ (s.phase = .informationTransfer ∧ s.prev.ack = true ∧ Frame.ack 0x7DC3 = false) := by decide

theorem witness_DecodeInvertsEncode :
    (Instr.unknown 0xFF).wellFormed = true ∧ (Instr.evArbitrationEnd 0xFF).wellFormed = true := by decide

theorem witness_EveryCodeAndOpcodeHasOneRow :
    decode ⟨.selection, false, 0⟩ .event [0x00, 0x19, 0x00, 0x00] = .ok (.evSelectionEnd 5) ∧
    (Instr.sp7.format = .subphaseCode ∧ encode .sp7 = [(7 : Code).setWidth 8]) ∧
    (Instr.unknown 0xFF).format = .cdb ∧ (Instr.unknown 0xFF).wellFormed = true ∧ encode (.unknown 0xFF) = [0xFF] := by
  refine ⟨rfl, by decide, by decide⟩

theorem witness_LunListIsDescending :
    ((bus .arbitration 0x7EFF 0x7C75).withinSpec ∧ (bus .selection 0x7C75 0x79FF).withinSpec) ∧
    (∃ t, exec (.evArbitrationEnd 0x75) (bus .arbitration 0x7EFF 0x7C75) = .next t) ∧
    ∃ t, exec (.evSelectionEnd 5) (bus .selection 0x7C75 0x79FF) = .next t := ⟨by decide, ⟨_, rfl⟩, _, rfl⟩

/-- The hypotheses of the sentence that fails are met by a run that is in its scope: one frame from a configured reset. -/
theorem witness_LatchedByteMeansAckLowInEveryPhase :
    State.runWithinSpec 1 { State.reset with cfg := ⟨true, 0⟩, input := [.frame 0x7FFF] } = true ∧
    ∃ t, stepTimes 1 { State.reset with cfg := ⟨true, 0⟩, input := [.frame 0x7FFF] } = .next t ∧ t.runState = .running :=
  ⟨by decide, _, rfl, rfl⟩

/-- The largest counters from which a step that takes a frame and finalises a byte stays within the bounds. -/
def lastCounters : State :=
  { transfer 0x5D3C 0x7D3C 7 (2 ^ 32 - 2) with samplenum := 2 ^ 64 - 2, latchValid := true, dataLatch := 0x3C }

theorem witness_CountersStayWithinTheirWidths :
    lastCounters.stepWithinSpec ∧
    (∃ t, step lastCounters = .next t ∧ t.samplenum = 2 ^ 64 - 1 ∧ t.byteCount = 2 ^ 32 - 1) ∧
    (2 ^ 32 - 1) < 2 ^ Config.idxW :=
  ⟨by decide, ⟨_, rfl, by decide⟩, by decide⟩

/-- A run of 2^32 - 1 bytes is inside the bounds for every step that finalises no byte, and a 2^32nd byte is outside them. -/
theorem test_bounds_at_the_last_byte_count :
    (transfer 0x7D3C 0x7D3C 7 (2 ^ 32 - 1)).stepWithinSpec ∧
    ¬ State.stepWithinSpec { transfer 0x5D3C 0x7D3C 7 (2 ^ 32 - 1) with latchValid := true } := by decide

/-- Open intervals of which one is closed by the step, without a reset. -/
theorem witness_RecordsCloseTheOpenInterval :
    let s := { transfer 0x5D3C 0x7D3C 7 2 with latchValid := true }
    s.stepWithinSpec ∧ s.openIntervals ∧ (∃ t, step s = .next t ∧ t.out ≠ []) ∧ ∀ rest, s.input ≠ .rst :: rest :=
  ⟨by decide, by unfold State.openIntervals; decide, ⟨_, rfl, by decide⟩, by simp [transfer, bus]⟩

/-- Five frames from reset: the phases, then a byte latched in INFORMATION_TRANSFER. -/
theorem witness_ReachableStatesMeetTheInvariants :
    let s := { State.reset with
      params := defaultParams, cfg := ⟨true, 0⟩
      input := [.frame 0x7FFF, .frame 0x7EFF, .frame 0x7CFB, .frame 0x79FF, .frame 0x5928] }
    Params.wf defaultParams ∧ State.runWithinSpec 5 s = true ∧
    after (stepTimes 5 s) (fun t => t.runState == .running && t.phase == .informationTransfer && t.latchValid) = true := by
  decide

/-- BUS_FREE with every sub-phase field stale: the latch of vector H2, and a run's leftovers. -/
def stale : State :=
  { transfer 0x5F99 0x7F99 7 3 with phase := .busFree, latchValid := true, dataLatch := 0x99 }

theorem witness_SubphaseFieldsMeanNothingOutsideTransfer :
    stale.stepWithinSpec ∧ (bus .busFree 0x5F99 0x7F99).stepWithinSpec ∧ stale.runWithinSpec 1 = true ∧
    (bus .busFree 0x5F99 0x7F99).runWithinSpec 1 = true ∧ stale.meaning = (bus .busFree 0x5F99 0x7F99).meaning ∧
    stale ≠ bus .busFree 0x5F99 0x7F99 ∧ stale.phase ≠ .informationTransfer ∧ (∀ rest, stale.input ≠ .rst :: rest) ∧
    ∃ t, step stale = .next t ∧ t.phase ≠ .informationTransfer :=
  ⟨by decide, by decide, by decide, by decide, by decide, by decide, by decide, by simp [stale, transfer, bus], _, rfl, by decide⟩

end Sys2Proof.Tests
end

section
/-! PROOFS. The LUN set and its record (30_encoding.md R91; 40_phase_fsm.md R122, R123). -/

namespace Sys2Proof.Machine

/-! ### The LUN set -/

/-- The indices that can be in a LUN set, in the display order of `lunSet`: D0 is not among them. -/
theorem mem_lunIndices (i : Nat) : i ∈ [7, 6, 5, 4, 3, 2, 1] ↔ 1 ≤ i ∧ i ≤ 7 := by
  simp only [List.mem_cons, List.not_mem_nil, or_false]
  omega

@[simp] theorem mem_lunSet (pins : Byte) (i : Nat) :
    i ∈ lunSet pins ↔ 1 ≤ i ∧ i ≤ 7 ∧ pins.getLsbD i = false := by
  rw [lunSet, List.mem_filter, mem_lunIndices, Bool.not_eq_true', and_assoc]

/-- Filtering keeps the order of the indices, so only the unfiltered list is looked at. -/
theorem lunSet_pairwise_gt (pins : Byte) : (lunSet pins).Pairwise (· > ·) := by
  have hOrder : [7, 6, 5, 4, 3, 2, 1].Pairwise (· > · : Nat → Nat → Prop) := by decide
  exact hOrder.filter _

/-! ### The LUN record -/

/-- What `State.emitLun` appends is the record over the interval of the phase that ends (D7). -/
theorem recordNow_lun_mem_emitLun (s : State) (pins : Byte) :
    recordNow s s.phaseStart (.lun pins) ∈ (s.emitLun pins).out := by
  rw [State.emitLun_out]
  exact List.mem_append_right _ (List.mem_singleton_self _)

theorem exec_evArbitrationEnd (pins : Byte) (s : State) :
    exec (.evArbitrationEnd pins) s =
      .next ((({ s with arbPins := pins }.emitPhase .arbitration).emitLun pins).enterPhase .selection) := rfl

theorem exec_evSelectionEnd (code : Code) (s : State) :
    exec (.evSelectionEnd code) s =
      .next ((((s.emitPhase .selection).emitLun s.arbPins).initTransfer code).enterPhase .informationTransfer) := rfl

/-- EV_ARBITRATION_END keeps the data levels of its frame and labels them (R122). -/
theorem exec_evArbitrationEnd_lun (s t : State) (pins : Byte) (h : exec (.evArbitrationEnd pins) s = .next t) :
    t.arbPins = pins ∧ recordNow s s.phaseStart (.lun pins) ∈ t.out := by
  rw [exec_evArbitrationEnd] at h
  obtain rfl := Host.Outcome.next.inj h
  constructor
  · simp
  · rw [State.enterPhase_out]
    exact recordNow_lun_mem_emitLun ({ s with arbPins := pins }.emitPhase .arbitration) pins

/-- EV_SELECTION_END repeats the levels that EV_ARBITRATION_END kept (R123). -/
theorem exec_evSelectionEnd_lun (s t : State) (code : Code) (h : exec (.evSelectionEnd code) s = .next t) :
    recordNow s s.phaseStart (.lun s.arbPins) ∈ t.out := by
  rw [exec_evSelectionEnd] at h
  obtain rfl := Host.Outcome.next.inj h
  rw [State.enterPhase_out, State.initTransfer_out]
  exact recordNow_lun_mem_emitLun (s.emitPhase .selection) s.arbPins

/-- The examples of R91, and the empty list of a bus on which no line is asserted. -/
theorem lunList_examples : lunList 0xF7 = "3" ∧ lunList 0x75 = "7,3,1" ∧ lunList 0xFF = "" := by decide

/-- Settles O53. The bounds on the counters are not needed: `exec` of either row emits the record in every state. -/
theorem lunListIsDescending : Obligations.LunListIsDescending := by
  refine ⟨mem_lunSet, lunSet_pairwise_gt, fun _ => rfl, lunList_examples, ?arbitration, ?selection⟩
  case arbitration =>
    intro s t pins _ hExec
    obtain ⟨hPins, hRecord⟩ := exec_evArbitrationEnd_lun s t pins hExec
    exact ⟨hPins, by rwa [hPins]⟩
  case selection =>
    intro s t code _ hExec
    exact exec_evSelectionEnd_lun s t code hExec

end Sys2Proof.Machine
end

section
/-! PROOFS. The phase FSM (40_phase_fsm.md R121, R127): the edge that ends BUS_FREE, and the strict cycle of the phases with
the phase records that tile the samples. -/

namespace Sys2Proof.Machine

/-! ### The event word: a row that awaits a falling edge -/

theorem Controls.toFrame_sel (p : Controls) : p.toFrame.getLsbD 8 = p.sel := by
  simp only [Controls.toFrame, BitVec.getLsbD_append]
  simp

/-- SEL of the current frame stands at its place in the frame word (R80). -/
theorem eventWord_sel (p : Controls) (f : Frame) : (eventWord p f).getLsbD 8 = f.sel := by
  rw [eventWord, BitVec.getLsbD_append, if_pos (by decide), Frame.sel]

/-- SEL of the previous frame stands 15 bits higher. -/
theorem eventWord_prev_sel (p : Controls) (f : Frame) : (eventWord p f).getLsbD 23 = p.sel := by
  rw [eventWord, BitVec.getLsbD_append, if_neg (by decide)]
  exact p.toFrame_sel

/-- A row whose mask has bits `i` and `j` and whose pattern has bit `i` alone fires exactly on the words with bit `i` set
and bit `j` clear. -/
theorem and_twoBits_eq_iff {n i j : Nat} (w : BitVec n) (hi : i < n) (hj : j < n) (hij : i ≠ j) :
    w &&& (BitVec.twoPow n i ||| BitVec.twoPow n j) = BitVec.twoPow n i ↔ w.getLsbD i = true ∧ w.getLsbD j = false := by
  constructor
  · intro h
    have bit (k : Nat) := congrArg (BitVec.getLsbD · k) h
    exact ⟨by simpa [hi] using bit i, by simpa [hj, hij.symm] using bit j⟩
  · rintro ⟨set, clear⟩
    refine BitVec.eq_of_getLsbD_eq fun k hk => ?_
    by_cases hki : i = k
    · subst hki; simp [hi, set]
    · by_cases hkj : j = k
      · subst hkj; simp [hij, clear]
      · simp [hki, hkj]

/-- EV_BUS_FREE_END fires exactly on a falling SEL edge. -/
theorem busFreeEndRow_fires_iff (p : Controls) (f : Frame) :
    busFreeEndRow.fires (eventWord p f) = true ↔ p.sel = true ∧ f.sel = false := by
  have edge := and_twoBits_eq_iff (eventWord p f) (i := 23) (j := 8) (by decide) (by decide) (by decide)
  rw [eventWord_prev_sel, eventWord_sel] at edge
  rw [EventRow.fires, beq_iff_eq, ← edge]
  exact Iff.rfl

/-! ### The rows and a step in RUNNING -/

theorem exec_evBusFreeEnd (s : State) :
    exec .evBusFreeEnd s = .next ((s.emitPhase .busFree).enterPhase .arbitration) := rfl

theorem step_of_running (s : State) (f : Frame) (rest : List Stimulus) (hRun : s.runState = .running)
    (hInput : s.input = .frame f :: rest) : step s = runningStep f (beginStep s rest) := by
  have taken : step s = frameStep f (beginStep s rest) := by
    simp only [step, takeStimulus, hInput]
    rfl
  have running : (beginStep s rest).runState = .running := hRun
  simp only [taken, frameStep, running]

/-- While no previous frame is held, nothing is evaluated (R120). -/
theorem runningStep_of_not_prevValid (f : Frame) (s : State) (h : s.prevValid = false) :
    runningStep f s = .next (s.endFrame f) := by
  simp [runningStep, h]

theorem runningStep_of_prevValid (f : Frame) (s : State) (h : s.prevValid = true) :
    runningStep f s = andThen (phaseStep f s) fun t => .next (t.endFrame f) := by
  simp [runningStep, h]

theorem phaseStep_of_transfer (f : Frame) (s : State) (h : s.phase = .informationTransfer) :
    phaseStep f s = transferStep f s := by
  simp only [phaseStep, h]

theorem phaseStep_of_not_transfer (f : Frame) (s : State) (h : s.phase ≠ .informationTransfer) :
    phaseStep f s = runEvent (decodePhaseEvent s.phase (eventWord s.prev f)) s := by
  cases hp : s.phase <;> simp_all [phaseStep]

/-- A falling SEL edge ends BUS_FREE (R121). -/
theorem phaseStep_of_selFall (f : Frame) (s : State) (hPhase : s.phase = .busFree)
    (edge : s.prev.sel = true ∧ f.sel = false) : phaseStep f s = exec .evBusFreeEnd s := by
  rw [phaseStep_of_not_transfer f s (by simp [hPhase]), hPhase, decodePhaseEvent,
    if_pos ((busFreeEndRow_fires_iff _ _).2 edge), runEvent]

/-- Without that edge BUS_FREE goes on, whatever the other lines show (R121). -/
theorem phaseStep_of_not_selFall (f : Frame) (s : State) (hPhase : s.phase = .busFree)
    (noEdge : ¬(s.prev.sel = true ∧ f.sel = false)) : phaseStep f s = .next s := by
  rw [phaseStep_of_not_transfer f s (by simp [hPhase]), hPhase, decodePhaseEvent,
    if_neg (mt (busFreeEndRow_fires_iff _ _).1 noEdge), runEvent]

/-- Settles O1. The bounds on the counters are not needed. -/
theorem busFreeEndsOnSelFall : Obligations.BusFreeEndsOnSelFall := by
  refine ⟨fun s _ => exec_evBusFreeEnd s, ?step⟩
  case step =>
    intro s f rest _ hRun hPhase hInput
    rw [step_of_running s f rest hRun hInput]
    cases hValid : s.prevValid with
    | false =>
      rw [runningStep_of_not_prevValid f (beginStep s rest) hValid, if_neg (by simp)]
      rfl
    | true =>
      rw [runningStep_of_prevValid f (beginStep s rest) hValid]
      by_cases edge : s.prev.sel = true ∧ f.sel = false
      · rw [phaseStep_of_selFall f (beginStep s rest) hPhase edge, exec_evBusFreeEnd, if_pos ⟨rfl, edge⟩]
        rfl
      · rw [phaseStep_of_not_selFall f (beginStep s rest) hPhase edge, if_neg fun h => edge h.2]
        rfl

/-! ### The phase records of a list -/

@[simp] theorem phaseRecords_nil : phaseRecords [] = [] := rfl

@[simp] theorem phaseRecords_append (l m : List Record) : phaseRecords (l ++ m) = phaseRecords l ++ phaseRecords m :=
  List.filterMap_append

@[simp] theorem phaseRecords_cons_phase (ss es : Nat) (p : Phase) (l : List Record) :
    phaseRecords (⟨ss, es, .phase p⟩ :: l) = (p, ss, es) :: phaseRecords l := rfl

theorem phaseRecords_cons_of_ne_phase (ss es : Nat) (p : Payload) (l : List Record) (h : ∀ q, p ≠ .phase q) :
    phaseRecords (⟨ss, es, p⟩ :: l) = phaseRecords l := by
  cases p
  case phase q => exact absurd rfl (h q)
  all_goals rfl

@[simp] theorem phaseRecords_cons_lun (ss es : Nat) (pins : Byte) (l : List Record) :
    phaseRecords (⟨ss, es, .lun pins⟩ :: l) = phaseRecords l := rfl

theorem bytePayload_ne_phase (s : State) (b : Byte) (q : Phase) : bytePayload s b ≠ .phase q := by
  unfold bytePayload
  split
  · exact Payload.noConfusion
  · split <;> exact Payload.noConfusion

/-! ### The parts of a step that are no phase transition -/

/-- `t` is in the same phase as `s` at the same sample, and no phase record was emitted in between; nor was the input read. -/
structure KeepsPhase (s t : State) : Prop where
  input : t.input = s.input
  samplenum : t.samplenum = s.samplenum
  phase : t.phase = s.phase
  phaseStart : t.phaseStart = s.phaseStart
  records : phaseRecords t.out = phaseRecords s.out

theorem KeepsPhase.refl (s : State) : KeepsPhase s s := ⟨rfl, rfl, rfl, rfl, rfl⟩

theorem KeepsPhase.trans {s t u : State} (hst : KeepsPhase s t) (htu : KeepsPhase t u) : KeepsPhase s u where
  input := htu.input.trans hst.input
  samplenum := htu.samplenum.trans hst.samplenum
  phase := htu.phase.trans hst.phase
  phaseStart := htu.phaseStart.trans hst.phaseStart
  records := htu.records.trans hst.records

theorem KeepsPhase.emit (s : State) (ss : Nat) (p : Payload) (h : ∀ q, p ≠ .phase q) : KeepsPhase s (s.emit ss p) where
  input := rfl
  samplenum := rfl
  phase := rfl
  phaseStart := rfl
  records := by rw [State.emit_out, phaseRecords_append, phaseRecords_cons_of_ne_phase _ _ _ _ h, phaseRecords_nil,
    List.append_nil]

theorem KeepsPhase.countByte (s : State) : KeepsPhase s s.countByte := ⟨rfl, rfl, rfl, rfl, rfl⟩

theorem cdbAccept_keepsPhase (s : State) (idx : Nat) (b : Byte) : KeepsPhase s (cdbAccept s idx b) := by
  constructor <;> simp

/-- The two records of a finalised byte (42_handshake_sampler.md R165), with the byte counted. -/
theorem emitByte_keepsPhase (s : State) (b : Byte) (idx : Nat) :
    KeepsPhase s ((s.emit s.byteRunStart (bytePayload s b)).emit s.byteRunStart (.byteIndex idx)).countByte := by
  have byte := KeepsPhase.emit s s.byteRunStart (bytePayload s b) (bytePayload_ne_phase s b)
  have index := KeepsPhase.emit (s.emit s.byteRunStart (bytePayload s b)) s.byteRunStart (.byteIndex idx)
    fun _ => Payload.noConfusion
  exact byte.trans (index.trans (.countByte _))

theorem finaliseByte_keepsPhase (s : State) : KeepsPhase s (finaliseByte s) := by
  by_cases command : s.subphase = commandCode
  · simp only [finaliseByte, if_pos command]
    exact (cdbAccept_keepsPhase s _ _).trans (emitByte_keepsPhase _ _ _)
  · simp only [finaliseByte, if_neg command]
    exact emitByte_keepsPhase s _ _

theorem handshake_keepsPhase (f : Frame) (s t : State) (h : handshake f s = .next t) : KeepsPhase s t := by
  rcases handshake_cases f s t h with ⟨-, rfl⟩ | ⟨-, -, -, rfl⟩ | ⟨-, -, rfl⟩
  · exact ⟨rfl, rfl, rfl, rfl, rfl⟩
  · exact finaliseByte_keepsPhase s
  · exact .refl _

/-- The flush emits SUBPHASE and CMD records only (41_subphase_tracker.md R146). -/
theorem flushRun_keepsPhase (s t : State) (h : flushRun s = .next t) : KeepsPhase s t := by
  have run : KeepsPhase s (s.emitRun s.subphase) := .emit s _ _ fun _ => Payload.noConfusion
  rcases flushRun_cases s t h with ⟨-, rfl⟩ | ⟨-, -, rfl⟩ | ⟨-, -, info, -, rfl⟩
  · exact .refl _
  · exact run
  · exact run.trans (.emit _ _ _ fun _ => Payload.noConfusion)

theorem debounce_keepsPhase (f : Frame) (s t : State) (h : debounce f s = .next t) : KeepsPhase s t := by
  rcases debounce_cases f s t h with
    ⟨-, -, rfl⟩ | ⟨-, -, -, rfl⟩ | ⟨-, -, -, u, flush, rfl⟩ | ⟨-, -, rfl⟩ | ⟨-, -, rfl⟩
  case inr.inr.inl =>
    have close : KeepsPhase s s.closeWindow := ⟨rfl, rfl, rfl, rfl, rfl⟩
    have start : KeepsPhase u (u.startRun f.code) := ⟨rfl, rfl, rfl, rfl, rfl⟩
    exact close.trans ((flushRun_keepsPhase _ u flush).trans start)
  all_goals exact ⟨rfl, rfl, rfl, rfl, rfl⟩

/-! ### One move of the phase FSM -/

/-- From `s` to `t` the phase FSM stays where it is, or it ends the phase at the current sample with the record of that phase
and enters the next one of the cycle (R127). The sample number of `t` is left open: the bookkeeping of a step advances it. -/
structure AdvancesPhase (s t : State) : Prop where
  input : t.input = s.input
  move :
    (t.phase = s.phase ∧ t.phaseStart = s.phaseStart ∧ phaseRecords t.out = phaseRecords s.out) ∨
    (t.phase = nextPhase s.phase ∧ t.phaseStart = s.samplenum ∧
      phaseRecords t.out = phaseRecords s.out ++ [(s.phase, s.phaseStart, s.samplenum)])

theorem KeepsPhase.advancesPhase {s t : State} (h : KeepsPhase s t) : AdvancesPhase s t :=
  ⟨h.input, .inl ⟨h.phase, h.phaseStart, h.records⟩⟩

theorem KeepsPhase.trans_advancesPhase {s t u : State} (hst : KeepsPhase s t) (htu : AdvancesPhase t u) : AdvancesPhase s u where
  input := htu.input.trans hst.input
  move := by
    rw [← hst.samplenum, ← hst.phase, ← hst.phaseStart, ← hst.records]
    exact htu.move

/-- The bookkeeping at the end of a step does not touch the phase FSM. -/
theorem AdvancesPhase.endFrame {s t : State} (h : AdvancesPhase s t) (f : Frame) : AdvancesPhase s (t.endFrame f) :=
  ⟨h.input, h.move⟩

theorem AdvancesPhase.of_evBusFreeEnd {s t : State} (hPhase : s.phase = .busFree) (h : exec .evBusFreeEnd s = .next t) :
    AdvancesPhase s t := by
  rw [exec_evBusFreeEnd] at h
  obtain rfl := Host.Outcome.next.inj h
  exact ⟨rfl, .inr (by simp [hPhase, nextPhase])⟩

theorem AdvancesPhase.of_evArbitrationEnd {s t : State} {pins : Byte} (hPhase : s.phase = .arbitration)
    (h : exec (.evArbitrationEnd pins) s = .next t) : AdvancesPhase s t := by
  rw [exec_evArbitrationEnd] at h
  obtain rfl := Host.Outcome.next.inj h
  exact ⟨rfl, .inr (by simp [hPhase, nextPhase])⟩

theorem AdvancesPhase.of_evSelectionEnd {s t : State} {code : Code} (hPhase : s.phase = .selection)
    (h : exec (.evSelectionEnd code) s = .next t) : AdvancesPhase s t := by
  rw [exec_evSelectionEnd] at h
  obtain rfl := Host.Outcome.next.inj h
  exact ⟨rfl, .inr (by simp [hPhase, nextPhase])⟩

/-- The exit from INFORMATION_TRANSFER flushes the run before it closes the cycle (R126). -/
theorem AdvancesPhase.of_evInformationTransferEnd {s t : State} (hPhase : s.phase = .informationTransfer)
    (h : exec .evInformationTransferEnd s = .next t) : AdvancesPhase s t := by
  obtain ⟨u, flush, rfl⟩ := execEvInformationTransferEnd_cases s t h
  have flushed := flushRun_keepsPhase s u flush
  refine flushed.trans_advancesPhase ⟨rfl, .inr ?_⟩
  simp [flushed.phase.trans hPhase, nextPhase]

/-! ### What a step does to the phase FSM -/

/-- Each of the first three phases awaits the one row that ends it (R121 to R123). -/
theorem decodePhaseEvent_eq_some (p : Phase) (w : EventWord) (i : Instr) (h : decodePhaseEvent p w = some i) :
    (p = .busFree ∧ i = .evBusFreeEnd) ∨ (p = .arbitration ∧ i = .evArbitrationEnd w.current.d) ∨
    (p = .selection ∧ i = .evSelectionEnd w.current.code) := by
  cases p <;> simp only [decodePhaseEvent, Option.ite_none_right_eq_some, Option.some.injEq, reduceCtorEq] at h
  case busFree => exact .inl ⟨rfl, h.2.symm⟩
  case arbitration => exact .inr (.inl ⟨rfl, h.2.symm⟩)
  case selection => exact .inr (.inr ⟨rfl, h.2.symm⟩)

theorem transferStep_advancesPhase (f : Frame) (s t : State) (hPhase : s.phase = .informationTransfer)
    (h : transferStep f s = .next t) : AdvancesPhase s t := by
  obtain ⟨u, hAck, h⟩ := (andThen_eq_next _ _ _).1 h
  obtain ⟨v, hDebounce, h⟩ := (andThen_eq_next _ _ _).1 h
  have kept : KeepsPhase s v := (handshake_keepsPhase f s u hAck).trans (debounce_keepsPhase f u v hDebounce)
  refine kept.trans_advancesPhase ?_
  rcases bsyFilter_cases f v t h with ⟨-, exit⟩ | ⟨-, rfl⟩
  · exact .of_evInformationTransferEnd (kept.phase.trans hPhase) exit
  · exact ⟨rfl, .inl ⟨rfl, rfl, rfl⟩⟩

theorem phaseStep_advancesPhase (f : Frame) (s t : State) (h : phaseStep f s = .next t) : AdvancesPhase s t := by
  by_cases hPhase : s.phase = .informationTransfer
  · rw [phaseStep_of_transfer f s hPhase] at h
    exact transferStep_advancesPhase f s t hPhase h
  · rw [phaseStep_of_not_transfer f s hPhase] at h
    cases decoded : decodePhaseEvent s.phase (eventWord s.prev f) with
    | none =>
      rw [decoded] at h
      obtain rfl := Host.Outcome.next.inj h
      exact (KeepsPhase.refl s).advancesPhase
    | some i =>
      rw [decoded] at h
      rcases decodePhaseEvent_eq_some _ _ _ decoded with ⟨hp, rfl⟩ | ⟨hp, rfl⟩ | ⟨hp, rfl⟩
      · exact .of_evBusFreeEnd hp h
      · exact .of_evArbitrationEnd hp h
      · exact .of_evSelectionEnd hp h

theorem runningStep_advancesPhase (f : Frame) (s t : State) (h : runningStep f s = .next t) : AdvancesPhase s t := by
  cases hValid : s.prevValid with
  | false =>
    rw [runningStep_of_not_prevValid f s hValid] at h
    obtain rfl := Host.Outcome.next.inj h
    exact (KeepsPhase.refl s).advancesPhase.endFrame f
  | true =>
    rw [runningStep_of_prevValid f s hValid] at h
    obtain ⟨u, hPhase, h⟩ := (andThen_eq_next _ _ _).1 h
    obtain rfl := Host.Outcome.next.inj h
    exact (phaseStep_advancesPhase f s u hPhase).endFrame f

/-- All a frame can do (60_exceptions.md R221 to R223): it is served in RUNNING, entered from IDLE or not; the configuration
error is raised; or it is skipped in HALTED. -/
theorem frameStep_cases (f : Frame) (s t : State) (h : frameStep f s = .next t) :
    (s.runState = .idle ∧ s.cfg.srValid = true ∧ runningStep f { s with runState := .running } = .next t) ∨
    (s.runState = .idle ∧ s.cfg.srValid = false ∧ t = (raiseConfigurationError s).skipFrame) ∨
    (s.runState = .running ∧ runningStep f s = .next t) ∨
    (s.runState = .halted ∧ t = s.skipFrame) := by
  unfold frameStep at h
  cases hRun : s.runState <;> simp only [hRun] at h
  case idle =>
    cases hCfg : s.cfg.srValid <;> simp only [hCfg] at h
    · exact .inr (.inl ⟨rfl, rfl, (Host.Outcome.next.inj h).symm⟩)
    · exact .inl ⟨rfl, rfl, h⟩
  case running => exact .inr (.inr (.inl ⟨rfl, h⟩))
  case halted => exact .inr (.inr (.inr ⟨rfl, (Host.Outcome.next.inj h).symm⟩))

theorem frameStep_advancesPhase (f : Frame) (s t : State) (h : frameStep f s = .next t) : AdvancesPhase s t := by
  rcases frameStep_cases f s t h with ⟨-, -, run⟩ | ⟨-, -, rfl⟩ | ⟨-, run⟩ | ⟨-, rfl⟩
  · have enter : KeepsPhase s { s with runState := .running } := ⟨rfl, rfl, rfl, rfl, rfl⟩
    exact enter.trans_advancesPhase (runningStep_advancesPhase f _ t run)
  · exact ⟨rfl, .inl ⟨rfl, rfl, rfl⟩⟩
  · exact runningStep_advancesPhase f s t run
  · exact ⟨rfl, .inl ⟨rfl, rfl, rfl⟩⟩

/-- A step that takes no reset takes its stimulus from the input, and makes at most one move of the phase FSM. -/
theorem step_advancesPhase (s t : State) (h : step s = .next t) (hReset : ∀ rest, s.input ≠ .rst :: rest) :
    AdvancesPhase (beginStep s s.input.tail) t := by
  rcases step_cases s t h with ⟨hInput, rfl⟩ | ⟨rest, hInput, -⟩ | ⟨c, rest, hInput, rfl⟩ | ⟨f, rest, hInput, frame⟩
  · rw [hInput]
    exact ⟨hInput, .inl ⟨rfl, rfl, rfl⟩⟩
  · exact absurd hInput (hReset rest)
  · rw [hInput]
    exact ⟨rfl, .inl ⟨rfl, rfl, rfl⟩⟩
  · rw [hInput]
    exact frameStep_advancesPhase f _ t frame

/-! ### The chain of the phase records -/

/-- From any state, as long as no reset waits, the phase records continue the cycle at the open phase and its start. -/
theorem phaseRecords_recordsOf_chained (k : Nat) (s : State) (hReset : Stimulus.rst ∉ s.input) :
    chainedFrom s.phase s.phaseStart (phaseRecords (recordsOf k s)) := by
  induction k generalizing s with
  | zero => exact trivial
  | succ k ih =>
    rw [recordsOf]
    cases hStep : step s with
    | fault e => exact trivial
    | refused e => exact trivial
    | next t =>
      have noReset : ∀ rest, s.input ≠ .rst :: rest := fun rest hInput => hReset (by simp [hInput])
      have advance := step_advancesPhase s t hStep noReset
      have taken : t.input = s.input.tail := advance.input
      have next := ih t fun waits => hReset (List.mem_of_mem_tail (taken ▸ waits))
      rw [phaseRecords_append]
      rcases advance.move with ⟨hPhase, hStart, hOut⟩ | ⟨hPhase, hStart, hOut⟩
      · rw [hPhase, hStart] at next
        rw [hOut]
        exact next
      · rw [hPhase, hStart] at next
        rw [hOut]
        exact ⟨rfl, rfl, next⟩

/-- Settles O34, by induction on the number of steps. The bounds on the counters are not needed. -/
theorem phaseRecordsFormStrictCycle : Obligations.PhaseRecordsFormStrictCycle := by
  refine ⟨?step, fun k s _ hReset => phaseRecords_recordsOf_chained k s hReset, ?fromReset⟩
  case step =>
    intro s t _ hStep hReset
    exact (step_advancesPhase s t hStep hReset).move
  case fromReset =>
    intro k p c input hReset _
    exact phaseRecords_recordsOf_chained k { State.reset with params := p, cfg := c, input := input } hReset

end Sys2Proof.Machine
end

section
/-! PROOFS. Runs without bytes (41_subphase_tracker.md R147): the boundary and the exit of an empty run emit no record of the
run, and a stream that holds ACK leaves every run empty. -/

namespace Sys2Proof.Machine

/-! ### The event word: the ACK rows await an edge -/

theorem Controls.toFrame_ack (p : Controls) : p.toFrame.getLsbD 13 = p.ack := by
  simp only [Controls.toFrame, BitVec.getLsbD_append]
  simp

/-- ACK of the current frame stands at its place in the frame word (30_encoding.md R80). -/
theorem eventWord_ack (p : Controls) (f : Frame) : (eventWord p f).getLsbD 13 = f.ack := by
  rw [eventWord, BitVec.getLsbD_append, if_pos (by decide), Frame.ack]

/-- ACK of the previous frame stands 15 bits higher. -/
theorem eventWord_prev_ack (p : Controls) (f : Frame) : (eventWord p f).getLsbD 28 = p.ack := by
  rw [eventWord, BitVec.getLsbD_append, if_neg (by decide)]
  exact p.toFrame_ack

/-- EV_ACK_FALL fires exactly on a falling ACK edge. -/
theorem ackFallRow_fires_iff (p : Controls) (f : Frame) :
    ackFallRow.fires (eventWord p f) = true ↔ p.ack = true ∧ f.ack = false := by
  have edge := and_twoBits_eq_iff (eventWord p f) (i := 28) (j := 13) (by decide) (by decide) (by decide)
  rw [eventWord_prev_ack, eventWord_ack] at edge
  rw [EventRow.fires, beq_iff_eq, ← edge]
  exact Iff.rfl

/-- The word condition of EV_ACK_RISE holds exactly on a rising ACK edge. -/
theorem ackRiseRow_fires_iff (p : Controls) (f : Frame) :
    ackRiseRow.fires (eventWord p f) = true ↔ f.ack = true ∧ p.ack = false := by
  have edge := and_twoBits_eq_iff (eventWord p f) (i := 13) (j := 28) (by decide) (by decide) (by decide)
  rw [eventWord_prev_ack, eventWord_ack] at edge
  rw [EventRow.fires, beq_iff_eq, ← edge]
  exact Iff.rfl

theorem decodeAckEvent_of_ack_held (latchValid : Bool) (p : Controls) (f : Frame) (held : p.ack = f.ack) :
    decodeAckEvent latchValid (eventWord p f) = none := by
  have noFall : ¬ackFallRow.fires (eventWord p f) = true := by simp [ackFallRow_fires_iff, held]
  have noRise : ¬ackRiseRow.fires (eventWord p f) = true := by simp [ackRiseRow_fires_iff, held]
  simp [decodeAckEvent, noFall, noRise]

/-- Without an ACK edge the handshake sampler does nothing (42_handshake_sampler.md R160). -/
theorem handshake_of_ack_held (f : Frame) (s : State) (held : s.prev.ack = f.ack) : handshake f s = .next s := by
  rw [handshake, decodeAckEvent_of_ack_held _ _ _ held, runEvent]

/-! ### The end of an empty run -/

theorem boundary_of_empty (new : Code) (s : State) (empty : s.byteCount = 0) :
    boundary new s = .next (s.startRun new) := by
  rw [boundary, flushRun_empty s empty, andThen_next]

theorem exec_evInformationTransferEnd_of_empty (s : State) (empty : s.byteCount = 0) :
    exec .evInformationTransferEnd s =
      .next ((s.emitPhase .informationTransfer).enterPhase .busFree).clearFilters := by
  change execEvInformationTransferEnd s = _
  rw [execEvInformationTransferEnd, flushRun_empty s empty, andThen_next]

/-! ### The records of a run among the others -/

@[simp] theorem Record.not_ofRun_phase (ss es : Nat) (p : Phase) : ¬Record.ofRun ⟨ss, es, .phase p⟩ := by
  simp [Record.ofRun]

@[simp] theorem Record.not_ofRun_lun (ss es : Nat) (pins : Byte) : ¬Record.ofRun ⟨ss, es, .lun pins⟩ := by
  simp [Record.ofRun]

/-- The open run, if there is one, has no byte, and the step has emitted no record of a run. -/
structure State.Silent (s : State) : Prop where
  emptyRun : s.phase = .informationTransfer → s.byteCount = 0
  noRunRecord : ∀ r ∈ s.out, ¬r.ofRun

theorem State.Silent.emit {s : State} (hs : s.Silent) (ss : Nat) (p : Payload) (hp : ¬Record.ofRun ⟨ss, s.samplenum, p⟩) :
    (s.emit ss p).Silent where
  emptyRun := hs.emptyRun
  noRunRecord := by
    rw [State.emit_out]
    exact List.forall_mem_append.2 ⟨hs.noRunRecord, List.forall_mem_singleton.2 hp⟩

theorem State.Silent.emitPhase {s : State} (hs : s.Silent) (p : Phase) : (s.emitPhase p).Silent :=
  hs.emit _ _ (Record.not_ofRun_phase _ _ p)

theorem State.Silent.emitLun {s : State} (hs : s.Silent) (pins : Byte) : (s.emitLun pins).Silent :=
  hs.emit _ _ (Record.not_ofRun_lun _ _ pins)

/-- Outside INFORMATION_TRANSFER no run is open. -/
theorem State.Silent.enterPhase {s : State} (hs : s.Silent) {p : Phase} (hp : p ≠ .informationTransfer) :
    (s.enterPhase p).Silent :=
  ⟨fun transfer => absurd transfer hp, hs.noRunRecord⟩

/-- The first run of INFORMATION_TRANSFER begins empty (40_phase_fsm.md R124). -/
theorem State.Silent.beginTransfer {s : State} (hs : s.Silent) (code : Code) :
    ((s.initTransfer code).enterPhase .informationTransfer).Silent :=
  ⟨fun _ => rfl, hs.noRunRecord⟩

/-! ### The parts of a step on an empty run -/

theorem debounce_silent (f : Frame) (s t : State) (hs : s.Silent) (hPhase : s.phase = .informationTransfer)
    (h : debounce f s = .next t) : t.Silent := by
  rcases debounce_cases f s t h with
    ⟨-, -, rfl⟩ | ⟨-, -, -, rfl⟩ | ⟨-, -, -, u, flush, rfl⟩ | ⟨-, -, rfl⟩ | ⟨-, -, rfl⟩
  case inr.inr.inl =>
    rw [flushRun_empty s.closeWindow (hs.emptyRun hPhase)] at flush
    obtain rfl := Host.Outcome.next.inj flush
    exact ⟨fun _ => rfl, hs.noRunRecord⟩
  all_goals exact ⟨hs.emptyRun, hs.noRunRecord⟩

theorem bsyFilter_silent (f : Frame) (s t : State) (hs : s.Silent) (hPhase : s.phase = .informationTransfer)
    (h : bsyFilter f s = .next t) : t.Silent := by
  rcases bsyFilter_cases f s t h with ⟨-, exit⟩ | ⟨-, rfl⟩
  · rw [exec_evInformationTransferEnd_of_empty s (hs.emptyRun hPhase)] at exit
    obtain rfl := Host.Outcome.next.inj exit
    have left := (hs.emitPhase .informationTransfer).enterPhase (p := .busFree) Phase.noConfusion
    exact ⟨left.emptyRun, left.noRunRecord⟩
  · exact ⟨hs.emptyRun, hs.noRunRecord⟩

/-- No sub-step of INFORMATION_TRANSFER counts a byte when ACK is held, and so none flushes one (40_phase_fsm.md R125). -/
theorem transferStep_silent (f : Frame) (s t : State) (hs : s.Silent) (held : s.prev.ack = f.ack)
    (hPhase : s.phase = .informationTransfer) (h : transferStep f s = .next t) : t.Silent := by
  rw [transferStep, handshake_of_ack_held f s held, andThen_next] at h
  obtain ⟨u, hDebounce, hFilter⟩ := (andThen_eq_next _ _ _).1 h
  have uPhase : u.phase = .informationTransfer := (debounce_keepsPhase f s u hDebounce).phase.trans hPhase
  exact bsyFilter_silent f u t (debounce_silent f s u hs hPhase hDebounce) uPhase hFilter

/-- The rows of the first three phases emit phase and LUN records, and the last of them opens an empty run. -/
theorem runEvent_decodePhaseEvent_silent (p : Phase) (w : EventWord) (s t : State) (hs : s.Silent)
    (h : runEvent (decodePhaseEvent p w) s = .next t) : t.Silent := by
  cases decoded : decodePhaseEvent p w with
  | none =>
    rw [decoded] at h
    exact Host.Outcome.next.inj h ▸ hs
  | some i =>
    rw [decoded, runEvent] at h
    rcases decodePhaseEvent_eq_some _ _ _ decoded with ⟨-, rfl⟩ | ⟨-, rfl⟩ | ⟨-, rfl⟩
    · rw [exec_evBusFreeEnd] at h
      obtain rfl := Host.Outcome.next.inj h
      exact (hs.emitPhase _).enterPhase Phase.noConfusion
    · rw [exec_evArbitrationEnd] at h
      obtain rfl := Host.Outcome.next.inj h
      have pinned : State.Silent { s with arbPins := w.current.d } := ⟨hs.emptyRun, hs.noRunRecord⟩
      exact ((pinned.emitPhase _).emitLun _).enterPhase Phase.noConfusion
    · rw [exec_evSelectionEnd] at h
      obtain rfl := Host.Outcome.next.inj h
      exact ((hs.emitPhase _).emitLun _).beginTransfer _

theorem phaseStep_silent (f : Frame) (s t : State) (hs : s.Silent) (held : s.prev.ack = f.ack)
    (h : phaseStep f s = .next t) : t.Silent := by
  by_cases hPhase : s.phase = .informationTransfer
  · rw [phaseStep_of_transfer f s hPhase] at h
    exact transferStep_silent f s t hs held hPhase h
  · rw [phaseStep_of_not_transfer f s hPhase] at h
    exact runEvent_decodePhaseEvent_silent _ _ s t hs h

/-! ### A stream that holds ACK -/

/-- No ACK edge lies ahead: the previous frame, if one is held, and every frame that waits show ACK at one level. -/
structure State.HoldsAck (level : Bool) (s : State) : Prop where
  previous : s.prevValid = true → s.prev.ack = level
  waiting : ∀ f, Stimulus.frame f ∈ s.input → f.ack = level

/-- A step in RUNNING on a frame without an ACK edge. The frame itself becomes the previous one. -/
theorem runningStep_silent (f : Frame) (s t : State) (hs : s.Silent) (held : s.prevValid = true → s.prev.ack = f.ack)
    (h : runningStep f s = .next t) : t.Silent ∧ t.prev.ack = f.ack := by
  cases hValid : s.prevValid with
  | false =>
    rw [runningStep_of_not_prevValid f s hValid] at h
    obtain rfl := Host.Outcome.next.inj h
    exact ⟨⟨hs.emptyRun, hs.noRunRecord⟩, rfl⟩
  | true =>
    rw [runningStep_of_prevValid f s hValid] at h
    obtain ⟨u, hPhase, h⟩ := (andThen_eq_next _ _ _).1 h
    obtain rfl := Host.Outcome.next.inj h
    have served := phaseStep_silent f s u hs (held hValid) hPhase
    exact ⟨⟨served.emptyRun, served.noRunRecord⟩, rfl⟩

/-- A frame at the level of ACK that the previous one, if held, shows. -/
theorem frameStep_silent (f : Frame) (s t : State) (hs : s.Silent) (held : s.prevValid = true → s.prev.ack = f.ack)
    (h : frameStep f s = .next t) : t.Silent ∧ (t.prevValid = true → t.prev.ack = f.ack) := by
  rcases frameStep_cases f s t h with ⟨-, -, run⟩ | ⟨-, -, rfl⟩ | ⟨-, run⟩ | ⟨-, rfl⟩
  · obtain ⟨served, ack⟩ := runningStep_silent f { s with runState := .running } t ⟨hs.emptyRun, hs.noRunRecord⟩ held run
    exact ⟨served, fun _ => ack⟩
  · exact ⟨⟨hs.emptyRun, hs.noRunRecord⟩, held⟩
  · obtain ⟨served, ack⟩ := runningStep_silent f s t hs held run
    exact ⟨served, fun _ => ack⟩
  · exact ⟨⟨hs.emptyRun, hs.noRunRecord⟩, held⟩

/-- A step takes at most the next stimulus, a reset included. -/
theorem step_input (s t : State) (h : step s = .next t) : t.input = s.input.tail := by
  by_cases reset : ∃ rest, s.input = .rst :: rest
  · obtain ⟨rest, hInput⟩ := reset
    rw [step, takeStimulus, hInput] at h
    obtain rfl := Host.Outcome.next.inj h
    rw [resetBlock_input, hInput, List.tail_cons]
  · exact (step_advancesPhase s t h (not_exists.1 reset)).input

/-- From a state whose open run is empty, a step on a stream that holds ACK emits no record of a run, and the next state is
again such a state: the invariant of R147. -/
theorem step_silent (level : Bool) (s t : State) (empty : s.phase = .informationTransfer → s.byteCount = 0)
    (held : s.HoldsAck level) (h : step s = .next t) : t.Silent ∧ t.HoldsAck level := by
  have waiting : ∀ f, Stimulus.frame f ∈ t.input → f.ack = level := fun f hf =>
    held.waiting f (List.mem_of_mem_tail (step_input s t h ▸ hf))
  suffices key : t.Silent ∧ (t.prevValid = true → t.prev.ack = level) from ⟨key.1, key.2, waiting⟩
  rcases step_cases s t h with ⟨-, rfl⟩ | ⟨rest, -, rfl⟩ | ⟨c, rest, -, rfl⟩ | ⟨f, rest, hInput, frame⟩
  · exact ⟨⟨empty, List.forall_mem_nil _⟩, held.previous⟩
  · exact ⟨⟨fun _ => rfl, List.forall_mem_nil _⟩, fun valid => absurd valid Bool.false_ne_true⟩
  · exact ⟨⟨empty, List.forall_mem_nil _⟩, held.previous⟩
  · obtain rfl : f.ack = level := held.waiting f (by simp [hInput])
    exact frameStep_silent f (beginStep s rest) t ⟨empty, List.forall_mem_nil _⟩ held.previous frame

theorem recordsOf_not_ofRun (k : Nat) (level : Bool) (s : State)
    (empty : s.phase = .informationTransfer → s.byteCount = 0) (held : s.HoldsAck level) :
    ∀ r ∈ recordsOf k s, ¬r.ofRun := by
  induction k generalizing s with
  | zero => simp [recordsOf]
  | succ k ih =>
    rw [recordsOf]
    cases hStep : step s with
    | fault e => simp
    | refused e => simp
    | next t =>
      obtain ⟨silent, held'⟩ := step_silent level s t empty held hStep
      exact List.forall_mem_append.2 ⟨silent.noRunRecord, ih t silent.emptyRun held'⟩

/-- Settles O25, the stream by induction on the number of steps. The bounds on the counters are not needed. -/
theorem zeroByteRunsAreSilent : Obligations.ZeroByteRunsAreSilent := by
  refine ⟨fun s c _ empty => boundary_of_empty c s empty,
    fun s _ empty => ⟨0, exec_evInformationTransferEnd_of_empty s empty⟩, ?stream⟩
  case stream =>
    intro k s level _ empty previous waiting
    exact ⟨recordsOf_not_ofRun k level s empty ⟨previous, waiting⟩, phaseRecords_recordsOf_chained k s⟩

end Sys2Proof.Machine
end

section
/-! PROOFS. The command interpreter (43_command_interpreter.md R187 to R192, R194, R195): the record that a descriptor row
emits when the descriptor is long enough, its fields as arithmetic on the stored bytes, and its text. -/

namespace Sys2Proof.Machine

/-! ### The fields of a descriptor as arithmetic -/

theorem toNat_append_byte {n : Nat} (x : BitVec n) (b : Byte) : (x ++ b).toNat = x.toNat * 256 + b.toNat := by
  rw [BitVec.toNat_append, ← Nat.shiftLeft_add_eq_or_of_lt b.isLt, Nat.shiftLeft_eq]

/-- The 16-bit field is big-endian (20_memory.md R63). -/
theorem be16_eq_number16 (a b : Byte) : be16 a b = number16 a b := by
  rw [number16, ← toNat_append_byte, BitVec.ofNat_toNat]
  exact (BitVec.setWidth_eq _).symm

/-- The 32-bit field is big-endian (20_memory.md R63). -/
theorem be32_eq_number32 (a b c d : Byte) : be32 a b c d = number32 a b c d := by
  rw [number32, ← toNat_append_byte, ← toNat_append_byte, ← toNat_append_byte, BitVec.ofNat_toNat]
  exact (BitVec.setWidth_eq _).symm

/-- The page control field is bits 7:6 (30_encoding.md R98). -/
theorem pageControl_toNat (b : Byte) : (pageControl b).toNat = b.toNat / 64 := by
  rw [pageControl, BitVec.extractLsb'_toNat, Nat.shiftRight_eq_div_pow]
  exact Nat.mod_eq_of_lt (Nat.div_lt_of_lt_mul b.isLt)

theorem pageControl_eq_ofNat (b : Byte) : pageControl b = BitVec.ofNat 2 (b.toNat / 64) := by
  rw [← pageControl_toNat, BitVec.ofNat_toNat, BitVec.setWidth_eq]

/-- Variant 0 of a row with two variants stands for the condition that selects it. -/
theorem twoVariants_eq_zero_iff (p : Prop) [Decidable p] : (if p then 0 else 1 : BitVec 3) = 0 ↔ p := by
  rw [ite_eq_left_iff, not_imp_comm]
  exact imp_iff_right (by decide)

theorem zeroSelector_eq_zero_iff (b : Byte) : zeroSelector b = 0 ↔ b = 0x00 :=
  twoVariants_eq_zero_iff (b = 0x00)

/-- Every other selector byte means unknown addressing (30_encoding.md R97). -/
theorem addressingMode_of_unknown (b : Byte) (hLba : b ≠ 0x00) (hMsf : b ≠ 0x40) (hTrack : b ≠ 0x80) :
    addressingMode b = 3 := by
  rw [addressingMode, if_neg hLba, if_neg hMsf, if_neg hTrack]

/-! ### The record of a descriptor that is long enough -/

/-- A decoder that reads a byte below `cdb_len` goes on with the stored byte. -/
theorem bind_cdbRead {α : Type} (s : State) (i : Nat) (k : Byte → Except Fault α) (hi : i < s.cdbLen)
    (fits : s.cdbLen ≤ s.params.cdbMax) : (cdbRead s i >>= k) = k (s.cdb.read i) := by
  rw [cdbRead_ok s i hi fits]
  rfl

/-- A row of a known opcode emits, for a descriptor of at least `need` bytes, the record that its own decoder makes of the
common fields (R185, R186). -/
theorem emitsCommand_of_long {i : Instr} {s : State} {m : Mnemonic} {fields : CmdInfo → Except Fault CmdInfo}
    {info : CmdInfo} (row : exec i s = decodeKnown s m fields) (long : needOf m ≤ s.cdbLen)
    (fits : s.cdbLen ≤ s.params.cdbMax) (answer : fields (commonInfo s m) = .ok info) : emitsCommand i s info :=
  calc exec i s = decodeKnown s m fields := row
    _ = emitCommand s (fields (commonInfo s m)) := decodeKnown_long s m fields long fits
    _ = emitCommand s (.ok info) := congrArg _ answer

theorem emitsCommand_testUnitReady (s : State) (long : 1 ≤ s.cdbLen) (fits : s.cdbLen ≤ s.params.cdbMax) :
    emitsCommand .testUnitReady s (commonInfo s .testUnitReady) :=
  emitsCommand_of_long rfl long fits rfl

theorem emitsCommand_requestSense (s : State) (long : 5 ≤ s.cdbLen) (fits : s.cdbLen ≤ s.params.cdbMax) :
    emitsCommand .requestSense s
      { commonInfo s .requestSense with variant := if s.cdb.read 4 = 0x12 then 0 else 1 } :=
  emitsCommand_of_long rfl long fits (by simp (disch := omega) only [bind_cdbRead])

theorem emitsCommand_modeSelect (s : State) (long : 5 ≤ s.cdbLen) (fits : s.cdbLen ≤ s.params.cdbMax) :
    emitsCommand .modeSelect s
      { commonInfo s .modeSelect with variant := zeroSelector (s.cdb.read 1), listlen := some (s.cdb.read 4) } :=
  emitsCommand_of_long rfl long fits (by simp (disch := omega) only [bind_cdbRead])

/-- R190, bytes 1 and 2 both 0x00. -/
theorem emitsCommand_modeSense_vendor (s : State) (long : 5 ≤ s.cdbLen) (fits : s.cdbLen ≤ s.params.cdbMax)
    (vendor : s.cdb.read 1 = 0x00 ∧ s.cdb.read 2 = 0x00) :
    emitsCommand .modeSense s { commonInfo s .modeSense with variant := 0, listlen := some (s.cdb.read 4) } :=
  emitsCommand_of_long rfl long fits (by simp (disch := omega) only [bind_cdbRead, if_pos vendor])

/-- R190, any other bytes 1 and 2. -/
theorem emitsCommand_modeSense_page (s : State) (long : 5 ≤ s.cdbLen) (fits : s.cdbLen ≤ s.params.cdbMax)
    (page : ¬(s.cdb.read 1 = 0x00 ∧ s.cdb.read 2 = 0x00)) :
    emitsCommand .modeSense s
      { commonInfo s .modeSense with
        variant := 1, pc := some (pageControl (s.cdb.read 2)), page := some (pageCode (s.cdb.read 2))
        listlen := some (s.cdb.read 4) } :=
  emitsCommand_of_long rfl long fits (by simp (disch := omega) only [bind_cdbRead, if_neg page])

theorem emitsCommand_preventAllow (s : State) (long : 5 ≤ s.cdbLen) (fits : s.cdbLen ≤ s.params.cdbMax) :
    emitsCommand .preventAllow s { commonInfo s .preventAllow with variant := zeroSelector (s.cdb.read 4) } :=
  emitsCommand_of_long rfl long fits (by simp (disch := omega) only [bind_cdbRead])

theorem emitsCommand_readExt (s : State) (long : 10 ≤ s.cdbLen) (fits : s.cdbLen ≤ s.params.cdbMax) :
    emitsCommand .readExt s (addressFields
      { commonInfo s .readExt with
        lba := some (number32 (s.cdb.read 2) (s.cdb.read 3) (s.cdb.read 4) (s.cdb.read 5))
        count := some (number16 (s.cdb.read 7) (s.cdb.read 8)) }
      (addressingMode (s.cdb.read 9)) (s.cdb.read 2) (s.cdb.read 3) (s.cdb.read 4)) :=
  emitsCommand_of_long rfl long fits
    (by simp (disch := omega) only [bind_cdbRead, be32_eq_number32, be16_eq_number16])

theorem emitsCommand_readHeader (s : State) (long : 9 ≤ s.cdbLen) (fits : s.cdbLen ≤ s.params.cdbMax) :
    emitsCommand .readHeader s
      { commonInfo s .readHeader with
        variant := zeroSelector (s.cdb.read 1)
        lba := some (number32 (s.cdb.read 2) (s.cdb.read 3) (s.cdb.read 4) (s.cdb.read 5))
        count := some (number16 (s.cdb.read 7) (s.cdb.read 8)) } :=
  emitsCommand_of_long rfl long fits
    (by simp (disch := omega) only [bind_cdbRead, be32_eq_number32, be16_eq_number16])

theorem emitsCommand_pauseResume (s : State) (long : 9 ≤ s.cdbLen) (fits : s.cdbLen ≤ s.params.cdbMax) :
    emitsCommand .pauseResume s { commonInfo s .pauseResume with variant := zeroSelector (s.cdb.read 8) } :=
  emitsCommand_of_long rfl long fits (by simp (disch := omega) only [bind_cdbRead])

/-! ### The addressing variants of 0x28 and 0xD8 -/

theorem addressLabel_of_lba (info : CmdInfo) (h : info.variant = 0) :
    addressLabel info = "(LBA) LBA 0x" ++ hex8 (info.lba.getD 0) := by
  rw [addressLabel, if_pos h]

theorem addressLabel_of_msf (info : CmdInfo) (h : info.variant = 1) : addressLabel info = "(MSF) " ++ timeLabel info := by
  rw [addressLabel, h, if_neg (by decide), if_pos rfl]

theorem addressLabel_of_track (info : CmdInfo) (h : info.variant = 2) :
    addressLabel info = "(track) track 0x" ++ hex2 (info.track.getD 0) := by
  rw [addressLabel, h, if_neg (by decide), if_neg (by decide), if_pos rfl]

theorem addressLabel_of_unknown (info : CmdInfo) (h : info.variant = 3) : addressLabel info = "(unknown addressing)" := by
  rw [addressLabel, h, if_neg (by decide), if_neg (by decide), if_neg (by decide)]

/-! ### The text of a complete command -/

theorem commandText_of_complete (info : CmdInfo) (complete : info.short = false) :
    commandText info = mnemonicLabel info.mnem ++ detailLabel info := by
  rw [commandText, complete]
  rfl

theorem commandText_requestSense (info : CmdInfo) (hm : info.mnem = .requestSense) (complete : info.short = false) :
    commandText info = if info.variant = 0 then "REQUEST SENSE (18-byte)" else "REQUEST SENSE (4-byte)" := by
  simp only [commandText_of_complete info complete, hm, mnemonicLabel, detailLabel]
  split <;> simp only [String.reduceAppend]

theorem commandText_modeSelect (info : CmdInfo) (hm : info.mnem = .modeSelect) (complete : info.short = false) :
    commandText info =
      (if info.variant = 0 then "MODE SELECT (vendor-specific), list length "
        else "MODE SELECT (SCSI-2-compliant), list length ") ++ dec (info.listlen.getD 0).toNat := by
  simp only [commandText_of_complete info complete, hm, mnemonicLabel, detailLabel]
  split <;> simp only [← String.append_assoc, String.reduceAppend]

theorem commandText_modeSense_vendor (info : CmdInfo) (hm : info.mnem = .modeSense) (complete : info.short = false)
    (vendor : info.variant = 0) :
    commandText info = "MODE SENSE (vendor-specific), list length " ++ dec (info.listlen.getD 0).toNat := by
  simp only [commandText_of_complete info complete, hm, mnemonicLabel, detailLabel]
  rw [if_pos vendor]
  simp only [← String.append_assoc, String.reduceAppend]

theorem commandText_modeSense_page (info : CmdInfo) (hm : info.mnem = .modeSense) (complete : info.short = false)
    (page : info.variant = 1) :
    commandText info = "MODE SENSE, page control " ++ dec (info.pc.getD 0).toNat ++ ", page code 0x" ++
      hex2 (info.page.getD 0) ++ ", list length " ++ dec (info.listlen.getD 0).toNat := by
  simp only [commandText_of_complete info complete, hm, mnemonicLabel, detailLabel]
  rw [if_neg (by simp [page])]
  simp only [← String.append_assoc, String.reduceAppend]

theorem commandText_preventAllow (info : CmdInfo) (hm : info.mnem = .preventAllow) (complete : info.short = false) :
    commandText info =
      if info.variant = 0 then "PREVENT/ALLOW MEDIUM REMOVAL (allow)" else "PREVENT/ALLOW MEDIUM REMOVAL (prevent)" := by
  simp only [commandText_of_complete info complete, hm, mnemonicLabel, detailLabel]
  split <;> simp only [String.reduceAppend]

/-- The addressing part stands between the mnemonic and the block count, in all four variants (R192). -/
theorem commandText_readExt (info : CmdInfo) (hm : info.mnem = .readExt) (complete : info.short = false) :
    commandText info = "READ " ++ addressLabel info ++ (", blocks " ++ dec (info.count.getD 0).toNat) := by
  simp only [commandText_of_complete info complete, hm, mnemonicLabel, detailLabel,
    ← String.append_assoc, String.reduceAppend]

theorem commandText_readExt_lba (info : CmdInfo) (hm : info.mnem = .readExt) (complete : info.short = false)
    (lba : info.variant = 0) : commandText info =
      "READ (LBA) LBA 0x" ++ hex8 (info.lba.getD 0) ++ (", blocks " ++ dec (info.count.getD 0).toNat) := by
  rw [commandText_readExt info hm complete, addressLabel_of_lba info lba]
  simp only [← String.append_assoc, String.reduceAppend]

theorem commandText_readExt_msf (info : CmdInfo) (hm : info.mnem = .readExt) (complete : info.short = false)
    (msf : info.variant = 1) : commandText info =
      "READ (MSF) " ++ hex2 (info.t0.getD 0) ++ ":" ++ hex2 (info.t1.getD 0) ++ ":" ++ hex2 (info.t2.getD 0) ++
        (", blocks " ++ dec (info.count.getD 0).toNat) := by
  rw [commandText_readExt info hm complete, addressLabel_of_msf info msf, timeLabel]
  simp only [← String.append_assoc, String.reduceAppend]

theorem commandText_readExt_track (info : CmdInfo) (hm : info.mnem = .readExt) (complete : info.short = false)
    (track : info.variant = 2) : commandText info =
      "READ (track) track 0x" ++ hex2 (info.track.getD 0) ++ (", blocks " ++ dec (info.count.getD 0).toNat) := by
  rw [commandText_readExt info hm complete, addressLabel_of_track info track]
  simp only [← String.append_assoc, String.reduceAppend]

theorem commandText_readExt_unknown (info : CmdInfo) (hm : info.mnem = .readExt) (complete : info.short = false)
    (unknown : info.variant = 3) : commandText info =
      "READ (unknown addressing)" ++ (", blocks " ++ dec (info.count.getD 0).toNat) := by
  rw [commandText_readExt info hm complete, addressLabel_of_unknown info unknown]
  simp only [String.reduceAppend]

theorem commandText_readHeader (info : CmdInfo) (hm : info.mnem = .readHeader) (complete : info.short = false) :
    commandText info =
      (if info.variant = 0 then "READ HEADER (LBA), LBA 0x" else "READ HEADER (MSF), LBA 0x") ++
        hex8 (info.lba.getD 0) ++ ", numbytes " ++ dec (info.count.getD 0).toNat := by
  simp only [commandText_of_complete info complete, hm, mnemonicLabel, detailLabel]
  split <;> simp only [← String.append_assoc, String.reduceAppend]

theorem commandText_pauseResume (info : CmdInfo) (hm : info.mnem = .pauseResume) (complete : info.short = false) :
    commandText info = if info.variant = 0 then "PAUSE/RESUME (pause)" else "PAUSE/RESUME (resume)" := by
  simp only [commandText_of_complete info complete, hm, mnemonicLabel, detailLabel]
  split <;> simp only [String.reduceAppend]

/-! ### The obligations; the bounds on the counters are not needed -/

/-- Settles O11. The text looks at the variant, and the variant at byte 4. -/
theorem requestSenseDecodes : Obligations.RequestSenseDecodes := by
  intro s _ long fits
  refine ⟨_, emitsCommand_requestSense s long fits, rfl, ?text⟩
  case text =>
    rw [commandText_requestSense _ rfl rfl]
    simp only [twoVariants_eq_zero_iff]

/-- Settles O12. The text looks at the variant, and the variant at byte 1. -/
theorem modeSelectDecodes : Obligations.ModeSelectDecodes := by
  intro s _ long fits
  refine ⟨_, emitsCommand_modeSelect s long fits, rfl, ?text⟩
  case text =>
    rw [commandText_modeSelect _ rfl rfl]
    simp only [zeroSelector_eq_zero_iff, Option.getD_some]

/-- Settles O13, by cases on the two forms of R190. -/
theorem modeSenseDecodes : Obligations.ModeSenseDecodes := by
  intro s _ long fits
  by_cases vendor : s.cdb.read 1 = 0x00 ∧ s.cdb.read 2 = 0x00
  · exact ⟨_, emitsCommand_modeSense_vendor s long fits vendor,
      fun _ => ⟨rfl, commandText_modeSense_vendor _ rfl rfl rfl⟩, fun page => absurd vendor page⟩
  · refine ⟨_, emitsCommand_modeSense_page s long fits vendor, fun h => absurd h vendor, fun _ => ⟨?fields, ?text⟩⟩
    case fields => rw [pageControl_eq_ofNat, pageCode]
    case text =>
      rw [commandText_modeSense_page _ rfl rfl rfl]
      simp only [Option.getD_some, pageControl_toNat, pageCode]

/-- Settles O14: whatever else than 0x00 byte 4 is, the variant is 1. -/
theorem preventAllowDecodes : Obligations.PreventAllowDecodes := by
  intro s _ long fits
  refine ⟨_, emitsCommand_preventAllow s long fits, rfl, ?text⟩
  case text =>
    rw [commandText_preventAllow _ rfl rfl]
    simp only [zeroSelector_eq_zero_iff]

/-- Settles O15: in each clause byte 9 fixes the addressing mode, and the mode the fields and the text. -/
theorem readExtDecodes : Obligations.ReadExtDecodes := by
  intro s _ long fits b lba count base blocks
  have record : emitsCommand .readExt s (addressFields base (addressingMode (b 9)) (b 2) (b 3) (b 4)) :=
    emitsCommand_readExt s long fits
  refine ⟨_, record, fun h => ?lba, fun h => ?msf, fun h => ?track, fun h0 h40 h80 => ?unknown⟩
  case lba => rw [h]; exact ⟨rfl, commandText_readExt_lba _ rfl rfl rfl⟩
  case msf => rw [h]; exact ⟨rfl, commandText_readExt_msf _ rfl rfl rfl⟩
  case track => rw [h]; exact ⟨rfl, commandText_readExt_track _ rfl rfl rfl⟩
  case unknown =>
    rw [addressingMode_of_unknown _ h0 h40 h80]
    exact ⟨rfl, commandText_readExt_unknown _ rfl rfl rfl⟩

/-- Settles O17. The variant looks at byte 1 alone, the address at bytes 2 to 5 in both. -/
theorem readHeaderDecodes : Obligations.ReadHeaderDecodes := by
  intro s _ long fits
  refine ⟨_, emitsCommand_readHeader s long fits, rfl, ?text⟩
  case text =>
    rw [commandText_readHeader _ rfl rfl]
    simp only [zeroSelector_eq_zero_iff, Option.getD_some]

/-- Settles O18: whatever else than 0x00 byte 8 is, the variant is 1. -/
theorem pauseResumeDecodes : Obligations.PauseResumeDecodes := by
  intro s _ long fits
  refine ⟨_, emitsCommand_pauseResume s long fits, rfl, ?text⟩
  case text =>
    rw [commandText_pauseResume _ rfl rfl]
    simp only [zeroSelector_eq_zero_iff]

/-- Settles O10. The row has no detail after its mnemonic. -/
theorem testUnitReadyDecodes : Obligations.TestUnitReadyDecodes := by
  intro s _ long fits
  refine ⟨emitsCommand_testUnitReady s long fits, ?text⟩
  case text =>
    rw [commandText_of_complete _ rfl]
    exact String.append_empty

end Sys2Proof.Machine
end

section
/-! PROOFS. The encodings (30_encoding.md sections 1, 2 and 4): the EVENT rows as edges of the lines they look at, the round trip
of every well-formed instruction, and the one row of each code and of each opcode. -/

namespace Sys2Proof.Machine

/-! ### The event word: the lines BSY and SEL, and the current frame -/

theorem Controls.toFrame_bsy (p : Controls) : p.toFrame.getLsbD 9 = p.bsy := by
  simp only [Controls.toFrame, BitVec.getLsbD_append]
  simp

/-- BSY of the current frame stands at its place in the frame word (R80). -/
theorem eventWord_bsy (p : Controls) (f : Frame) : (eventWord p f).getLsbD 9 = f.bsy := by
  rw [eventWord, BitVec.getLsbD_append, if_pos (by decide), Frame.bsy]

/-- BSY of the previous frame stands 15 bits higher. -/
theorem eventWord_prev_bsy (p : Controls) (f : Frame) : (eventWord p f).getLsbD 24 = p.bsy := by
  rw [eventWord, BitVec.getLsbD_append, if_neg (by decide)]
  exact p.toFrame_bsy

@[simp] theorem eventWord_current (p : Controls) (f : Frame) : (eventWord p f).current = f :=
  BitVec.setWidth_append_eq_right

/-- EV_ARBITRATION_END fires exactly on a falling BSY edge. -/
theorem arbitrationEndRow_fires_iff (p : Controls) (f : Frame) :
    arbitrationEndRow.fires (eventWord p f) = true ↔ p.bsy = true ∧ f.bsy = false := by
  have edge := and_twoBits_eq_iff (eventWord p f) (i := 24) (j := 9) (by decide) (by decide) (by decide)
  rw [eventWord_prev_bsy, eventWord_bsy] at edge
  rw [EventRow.fires, beq_iff_eq, ← edge]
  exact Iff.rfl

/-- EV_SELECTION_END fires exactly on a rising SEL edge. -/
theorem selectionEndRow_fires_iff (p : Controls) (f : Frame) :
    selectionEndRow.fires (eventWord p f) = true ↔ p.sel = false ∧ f.sel = true := by
  have edge := and_twoBits_eq_iff (eventWord p f) (i := 8) (j := 23) (by decide) (by decide) (by decide)
  rw [eventWord_prev_sel, eventWord_sel] at edge
  rw [EventRow.fires, beq_iff_eq, and_comm, ← edge]
  exact Iff.rfl

/-- A row whose mask and pattern are one bit fires exactly on the words with that bit set. -/
theorem and_twoPow_eq_iff {n i : Nat} (w : BitVec n) (hi : i < n) :
    w &&& BitVec.twoPow n i = BitVec.twoPow n i ↔ w.getLsbD i = true := by
  constructor
  · intro h
    simpa [hi] using congrArg (BitVec.getLsbD · i) h
  · intro set
    refine BitVec.eq_of_getLsbD_eq fun k hk => ?_
    by_cases hki : i = k
    · subst hki; simp [hi, set]
    · simp [hki]

/-- EV_INFORMATION_TRANSFER_END looks at the level of BSY alone. -/
theorem informationTransferEndRow_fires_iff (p : Controls) (f : Frame) :
    informationTransferEndRow.fires (eventWord p f) = true ↔ f.bsy = true := by
  rw [EventRow.fires, beq_iff_eq, ← eventWord_bsy p f, ← and_twoPow_eq_iff _ (by decide)]
  exact Iff.rfl

/-- Settles O51: each row's word condition is the edge, or the level, of its line. -/
theorem eventRowsFireOnTheirEdges : Obligations.EventRowsFireOnTheirEdges := by
  intro p f
  refine ⟨?_, ?_, ?_, ?_, ?_, ?_⟩ <;> rw [Bool.eq_iff_iff]
  · simp [busFreeEndRow_fires_iff, fall]
  · simp [arbitrationEndRow_fires_iff, fall]
  · simp [selectionEndRow_fires_iff, rise]
  · simp [informationTransferEndRow_fires_iff]
  · simp [ackFallRow_fires_iff, fall]
  · simp [ackRiseRow_fires_iff, rise, and_comm]

/-! ### Bytes and words -/

theorem ofBytes_toBytes (n w : Nat) (h : w < 256 ^ n) : ofBytes (toBytes n w) = w := by
  induction n generalizing w with
  | zero => simp only [pow_zero] at h; simp only [toBytes, ofBytes]; omega
  | succ n ih =>
    have high : w / 256 < 256 ^ n := Nat.div_lt_of_lt_mul (by rwa [pow_succ, mul_comm] at h)
    simp only [toBytes, ofBytes, ih _ high, BitVec.toNat_ofNat]
    omega

theorem toBytes_length (n w : Nat) : (toBytes n w).length = n := by
  induction n generalizing w with
  | zero => rfl
  | succ n ih => simp [toBytes, ih]

/-- The four bytes of an event word decode to the first event of the word. -/
theorem decodeEventBytes_toBytes (c : Context) (w : EventWord) (i : Instr) (events : List Instr)
    (fires : decodeEvents c w = i :: events) : decodeEventBytes c (toBytes 4 w.toNat) = .ok i := by
  have hw : ofBytes (toBytes 4 w.toNat) = w.toNat := ofBytes_toBytes 4 _ (lt_of_lt_of_le w.isLt (by decide))
  rw [decodeEventBytes, toBytes_length, if_neg (not_not.2 rfl), hw, if_neg (Nat.not_le.2 w.isLt),
    BitVec.ofNat_toNat, BitVec.setWidth_eq, fires]

/-- The byte of a sub-phase code decodes to the row of the code. -/
theorem decodeSubphaseBytes_setWidth (c : Code) : decodeSubphaseBytes [c.setWidth 8] = .ok (decodeSubphase c) := by
  have hc : ofBytes [c.setWidth 8] = c.toNat := by
    simp only [ofBytes, BitVec.toNat_setWidth]
    omega
  rw [decodeSubphaseBytes, hc, if_neg (by simp), if_neg (by omega), BitVec.ofNat_toNat, BitVec.setWidth_eq]

/-! ### The rows of the opcodes -/

/-- An opcode has its own row in the table, or it is none of the ten and gets the default row (R95, R96). -/
theorem decodeOpcode_row (op : Byte) :
    (op, decodeOpcode op) ∈ opcodeRows ∨ (op ∉ knownOpcodes ∧ decodeOpcode op = .unknown op) := by
  have known : knownOpcodes = opcodeRows.map Prod.fst := rfl
  unfold decodeOpcode
  cases found : opcodeRows.lookup op with
  | none =>
    refine .inr ⟨fun mem => ?_, rfl⟩
    obtain ⟨row, hRow, rfl⟩ := List.mem_map.1 (known ▸ mem)
    simpa using List.lookup_eq_none_iff.1 found row hRow
  | some row =>
    obtain ⟨earlier, later, table, -⟩ := List.lookup_eq_some_iff.1 found
    exact .inl (table ▸ by simp)

theorem encode_unknown (op : Byte) : encode (.unknown op) = [op] := by
  simp [encode, Instr.format, Format.size, toBytes, wordOf]

theorem encode_of_mem_opcodeRows : ∀ row ∈ opcodeRows, encode row.2 = [row.1] := by decide

theorem encode_decodeOpcode (op : Byte) : encode (decodeOpcode op) = [op] := by
  rcases decodeOpcode_row op with row | ⟨-, row⟩
  · exact encode_of_mem_opcodeRows _ row
  · rw [row, encode_unknown]

theorem wellFormed_of_mem_opcodeRows : ∀ row ∈ opcodeRows, row.2.wellFormed = true ∧ row.2.format = .cdb := by decide

theorem decodeOpcode_wellFormed (op : Byte) : (decodeOpcode op).wellFormed = true ∧ (decodeOpcode op).format = .cdb := by
  rcases decodeOpcode_row op with row | ⟨unlisted, row⟩
  · exact wellFormed_of_mem_opcodeRows _ row
  · rw [row]
    exact ⟨by simpa [Instr.wellFormed] using unlisted, rfl⟩

/-- The default row is what a well-formed UNKNOWN decodes to. -/
theorem decodeOpcode_of_unlisted (op : Byte) (unlisted : op ∉ knownOpcodes) : decodeOpcode op = .unknown op := by
  rcases decodeOpcode_row op with row | ⟨-, row⟩
  · exact absurd (List.mem_map.2 ⟨_, row, rfl⟩ : op ∈ opcodeRows.map Prod.fst) unlisted
  · exact row

/-! ### The round trip -/

/-- A data operand sits below the lines of its row's pattern. -/
theorem getLsbD_pattern_or_data (pattern : EventWord) (d : Byte) (i : Nat) (hi : 8 ≤ i) :
    (pattern ||| d.setWidth 30).getLsbD i = pattern.getLsbD i := by
  have above : d.getLsbD i = false := BitVec.getLsbD_of_ge d i hi
  simp [above]

/-- The data lines of a word whose pattern has no data line are its operand. -/
theorem current_d_pattern_or_data (pattern : EventWord) (d : Byte) (clear : pattern.setWidth 8 = 0) :
    (EventWord.current (pattern ||| d.setWidth 30)).d = d := by
  have low (x : EventWord) : (EventWord.current x).d = x.setWidth 8 := BitVec.setWidth_setWidth_of_le x (by decide)
  rw [low, BitVec.setWidth_or, clear, BitVec.setWidth_setWidth_of_le _ (by decide), BitVec.setWidth_eq]
  exact BitVec.zero_or

theorem decodeEvents_arbitrationEnd (pins : Byte) :
    decodeEvents ⟨.arbitration, false, 0⟩ (arbitrationEndRow.pattern ||| pins.setWidth 30) = [.evArbitrationEnd pins] := by
  have fires : arbitrationEndRow.fires (arbitrationEndRow.pattern ||| pins.setWidth 30) = true :=
    beq_iff_eq.2 ((and_twoBits_eq_iff _ (i := 24) (j := 9) (by decide) (by decide) (by decide)).2
      (by simp only [getLsbD_pattern_or_data, Nat.reduceLeDiff]; decide))
  simp only [decodeEvents, decodePhaseEvent, if_pos fires, current_d_pattern_or_data arbitrationEndRow.pattern pins rfl,
    Option.toList_some]

theorem decodeEvents_selectionEnd : ∀ code : Code,
    decodeEvents ⟨.selection, false, 0⟩ (selectionEndRow.pattern ||| codeBits code) = [.evSelectionEnd code] := by decide

/-- BSY is low in the word of EV_ACK_FALL, so that the exit row does not fire with it. -/
theorem decodeEvents_ackFall (d : Byte) :
    decodeEvents ⟨.informationTransfer, false, 0⟩ (ackFallRow.pattern ||| d.setWidth 30) = [.evAckFall d] := by
  have fires : ackFallRow.fires (ackFallRow.pattern ||| d.setWidth 30) = true :=
    beq_iff_eq.2 ((and_twoBits_eq_iff _ (i := 28) (j := 13) (by decide) (by decide) (by decide)).2
      (by simp only [getLsbD_pattern_or_data, Nat.reduceLeDiff]; decide))
  have stays : ((0 : BitVec 2) + 1 == bsyDebounce) = false := by decide
  simp only [decodeEvents, decodeAckEvent, if_pos fires, current_d_pattern_or_data ackFallRow.pattern d rfl,
    decodeExitEvent, stays, Bool.and_false]
  rfl

/-- Settles O49, by cases on the row; the operands of the EVENT rows by the places of their bits. -/
theorem decodeInvertsEncode : Obligations.DecodeInvertsEncode := by
  intro i wf
  cases i with
  | evArbitrationEnd pins => exact decodeEventBytes_toBytes _ _ _ _ (decodeEvents_arbitrationEnd pins)
  | evSelectionEnd code => exact decodeEventBytes_toBytes _ _ _ _ (decodeEvents_selectionEnd code)
  | evAckFall d => exact decodeEventBytes_toBytes _ _ _ _ (decodeEvents_ackFall d)
  | unknown op =>
    have unlisted : op ∉ knownOpcodes := by simpa [Instr.wellFormed] using wf
    rw [encode_unknown]
    exact congrArg Except.ok (decodeOpcode_of_unlisted op unlisted)
  | evBusFreeEnd => decide
  | evInformationTransferEnd => decide
  | evAckRise => decide
  | _ => rfl

/-! ### One row for each word -/

theorem encode_decodeSubphase : ∀ c : Code, encode (decodeSubphase c) = [c.setWidth 8] := by decide

theorem decodeSubphase_wellFormed : ∀ c : Code,
    (decodeSubphase c).wellFormed = true ∧ (decodeSubphase c).format = .subphaseCode := by decide

theorem wellFormed_of_subphaseCode (i : Instr) (h : i.format = .subphaseCode) : i.wellFormed = true := by
  cases i with
  | unknown op => cases h
  | _ => rfl

/-- A word has one row of its format: the round trip gives the row back from the word. -/
theorem eq_of_decode_encode {i row : Instr} {fmt : Format} {bytes : List Byte} (hFormat : i.format = fmt)
    (wf : i.wellFormed = true) (hWord : encode i = bytes) (hRow : ∀ c, decode c fmt bytes = .ok row) : i = row := by
  have trip := decodeInvertsEncode i wf
  rw [hFormat, hWord, hRow] at trip
  exact (Except.ok.inj trip).symm

/-- Only the rows of the EVENT format answer an event. -/
theorem wellFormed_of_mem_decodeEvents (c : Context) (w : EventWord) (i : Instr) (h : i ∈ decodeEvents c w) :
    i.wellFormed = true ∧ i.format = .event := by
  have phase : ∀ p, i ∈ (decodePhaseEvent p w).toList → i.wellFormed = true ∧ i.format = .event := by
    intro p hi
    rcases decodePhaseEvent_eq_some p w i (Option.mem_toList.1 hi) with ⟨-, rfl⟩ | ⟨-, rfl⟩ | ⟨-, rfl⟩ <;> exact ⟨rfl, rfl⟩
  have ack : i ∈ (decodeAckEvent c.latchValid w).toList → i.wellFormed = true ∧ i.format = .event := by
    intro hi
    rw [decodeAckEvent] at hi
    split_ifs at hi
    · rw [List.mem_singleton.1 hi]; exact ⟨rfl, rfl⟩
    · rw [List.mem_singleton.1 hi]; exact ⟨rfl, rfl⟩
    · cases hi
  have exit : i ∈ (decodeExitEvent c.bsyHighCnt w).toList → i.wellFormed = true ∧ i.format = .event := by
    intro hi
    rw [decodeExitEvent] at hi
    split_ifs at hi
    · rw [List.mem_singleton.1 hi]; exact ⟨rfl, rfl⟩
    · cases hi
  cases hPhase : c.phase <;> simp only [decodeEvents, hPhase] at h
  case informationTransfer => exact (List.mem_append.1 h).elim ack exit
  all_goals exact phase _ h

theorem wellFormed_of_decode (c : Context) (fmt : Format) (bytes : List Byte) (i : Instr) (h : decode c fmt bytes = .ok i) :
    i.wellFormed = true ∧ i.format = fmt := by
  cases fmt with
  | event =>
    simp only [decode, decodeEventBytes] at h
    split_ifs at h
    split at h
    · cases h
    · rename_i j events fires
      obtain rfl := Except.ok.inj h
      exact wellFormed_of_mem_decodeEvents c _ j (fires ▸ List.mem_cons_self)
  | subphaseCode =>
    simp only [decode, decodeSubphaseBytes] at h
    split_ifs at h
    obtain rfl := Except.ok.inj h
    exact decodeSubphase_wellFormed _
  | cdb =>
    cases bytes with
    | nil => cases h
    | cons op rest =>
      obtain rfl := Except.ok.inj h
      exact decodeOpcode_wellFormed op

/-- Two rows that look at one bit and want it at different levels exclude each other. -/
theorem not_fires_both (r q : EventRow) (w : EventWord) (i : Nat) (looked : r.mask.getLsbD i = true ∧ q.mask.getLsbD i = true)
    (differ : r.pattern.getLsbD i ≠ q.pattern.getLsbD i) : ¬(r.fires w = true ∧ q.fires w = true) := by
  rintro ⟨hr, hq⟩
  have hr : w.getLsbD i = r.pattern.getLsbD i := by
    simpa [looked.1] using congrArg (BitVec.getLsbD · i) (beq_iff_eq.1 hr)
  have hq : w.getLsbD i = q.pattern.getLsbD i := by
    simpa [looked.2] using congrArg (BitVec.getLsbD · i) (beq_iff_eq.1 hq)
  exact differ (hr.symm.trans hq)

/-- Settles O50. A second row of a word would decode to the first, by the round trip. -/
theorem everyCodeAndOpcodeHasOneRow : Obligations.EveryCodeAndOpcodeHasOneRow := by
  refine ⟨fun c => ⟨encode_decodeSubphase c, fun i hFormat hWord => ?code⟩,
    fun op => ⟨encode_decodeOpcode op, fun i hFormat wf hWord => ?opcode⟩, wellFormed_of_decode, fun w => ⟨?ack, ?sel, ?bsy⟩⟩
  case code =>
    exact eq_of_decode_encode hFormat (wellFormed_of_subphaseCode i hFormat) hWord
      fun _ => decodeSubphaseBytes_setWidth c
  case opcode => exact eq_of_decode_encode hFormat wf hWord fun _ => rfl
  case ack => exact not_fires_both _ _ w 13 (by decide) (by decide)
  case sel => exact not_fires_both _ _ w 8 (by decide) (by decide)
  case bsy => exact not_fires_both _ _ w 9 (by decide) (by decide)

/-- Settles O52, by running the decoder on the six words. -/
theorem sampleWordsDecode : Obligations.SampleWordsDecode := by
  unfold Obligations.SampleWordsDecode
  decide

end Sys2Proof.Machine
end

section
/-! PROOFS. The command interpreter (43_command_interpreter.md R186, R193, R196 to R198): the rows of READ TOC and AUDIO TRACK
SEARCH, short and unknown descriptors, what a CDB row looks at, and that every opcode has a record. -/

namespace Sys2Proof.Machine

/-! ### READ TOC and AUDIO TRACK SEARCH -/

theorem emitsCommand_readToc (s : State) (long : 9 ≤ s.cdbLen) (fits : s.cdbLen ≤ s.params.cdbMax) :
    emitsCommand .readToc s
      { commonInfo s .readToc with
        variant := zeroSelector (s.cdb.read 1), start := some (s.cdb.read 6)
        count := some (number16 (s.cdb.read 7) (s.cdb.read 8))
        ntracks := some (trackCount (number16 (s.cdb.read 7) (s.cdb.read 8))) } :=
  emitsCommand_of_long rfl long fits (by simp (disch := omega) only [bind_cdbRead, be16_eq_number16])

theorem emitsCommand_audioTrackSearch (s : State) (long : 10 ≤ s.cdbLen) (fits : s.cdbLen ≤ s.params.cdbMax) :
    emitsCommand .audioTrackSearch s (addressFields
      { commonInfo s .audioTrackSearch with
        op := some (operationOf (s.cdb.read 1))
        lba := some (number32 (s.cdb.read 2) (s.cdb.read 3) (s.cdb.read 4) (s.cdb.read 5)) }
      (addressingMode (s.cdb.read 9)) (s.cdb.read 2) (s.cdb.read 3) (s.cdb.read 4)) :=
  emitsCommand_of_long rfl long fits (by simp (disch := omega) only [bind_cdbRead, be32_eq_number32])

/-- The track count is the quotient rounded down, also for a count below 4 (D22). -/
theorem trackCount_floor (count : BitVec 16) :
    8 * trackCount count ≤ count.toNat - 4 ∧ (count.toNat : Int) - 4 < 8 * trackCount count + 8 := by
  rw [trackCount, Int.fdiv_eq_ediv_of_nonneg _ (by decide)]
  omega

theorem trackCount_bounds (count : BitVec 16) : -1 ≤ trackCount count ∧ trackCount count ≤ 8191 := by
  have floor := trackCount_floor count
  have := count.isLt
  omega

theorem commandText_readToc (info : CmdInfo) (hm : info.mnem = .readToc) (complete : info.short = false) :
    commandText info =
      (if info.variant = 0 then "READ TOC (LBA)" else "READ TOC (MSF)") ++ ", start track " ++
        dec (info.start.getD 0).toNat ++ ", numbytes " ++ dec (info.count.getD 0).toNat ++ ", tracks " ++
        decInt (info.ntracks.getD 0) := by
  simp only [commandText_of_complete info complete, hm, mnemonicLabel, detailLabel]
  split <;> simp only [← String.append_assoc, String.reduceAppend]

/-- Settles O16. The text looks at the variant, and the variant at byte 1. -/
theorem readTocDecodes : Obligations.ReadTocDecodes := by
  intro s _ long fits b count
  obtain ⟨floor, ceil⟩ := trackCount_floor count
  obtain ⟨low, high⟩ := trackCount_bounds count
  refine ⟨_, trackCount count, emitsCommand_readToc s long fits, rfl, floor, ceil, low, high, ?text⟩
  case text =>
    rw [commandText_readToc _ rfl rfl]
    simp only [zeroSelector_eq_zero_iff, Option.getD_some]
    rfl

/-- The operation and the addressing part follow the mnemonic (R196). -/
theorem commandText_audioTrackSearch (info : CmdInfo) (hm : info.mnem = .audioTrackSearch) (complete : info.short = false) :
    commandText info =
      (if info.op = some 0 then "AUDIO TRACK SEARCH (pause) " else "AUDIO TRACK SEARCH (play) ") ++ addressLabel info := by
  simp only [commandText_of_complete info complete, hm, mnemonicLabel, detailLabel]
  split <;> simp only [← String.append_assoc, String.reduceAppend]

theorem operationOf_eq_zero_iff (b : Byte) : some (operationOf b) = some 0 ↔ b = 0x00 := by
  rw [Option.some_inj, operationOf, ite_eq_left_iff, not_imp_comm]
  exact imp_iff_right (by decide)

/-- Settles O19: byte 1 fixes the operation, and byte 9 the addressing mode with its fields and its text. -/
theorem audioTrackSearchDecodes : Obligations.AudioTrackSearchDecodes := by
  intro s _ long fits b lba base head
  have record : emitsCommand .audioTrackSearch s (addressFields base (addressingMode (b 9)) (b 2) (b 3) (b 4)) :=
    emitsCommand_audioTrackSearch s long fits
  have text (info : CmdInfo) (hm : info.mnem = .audioTrackSearch) (complete : info.short = false)
      (hop : info.op = some (operationOf (b 1))) : commandText info = head ++ addressLabel info := by
    rw [commandText_audioTrackSearch info hm complete, hop]
    simp only [operationOf_eq_zero_iff]
    rfl
  refine ⟨_, record, fun h => ?lba, fun h => ?msf, fun h => ?track, fun h0 h40 h80 => ?unknown⟩
  case lba =>
    rw [h]
    refine ⟨rfl, (text _ rfl rfl rfl).trans ?_⟩
    rw [addressLabel_of_lba _ rfl, String.append_assoc]
    rfl
  case msf =>
    rw [h]
    refine ⟨rfl, (text _ rfl rfl rfl).trans ?_⟩
    rw [addressLabel_of_msf _ rfl, timeLabel]
    simp only [String.append_assoc]
    rfl
  case track =>
    rw [h]
    refine ⟨rfl, (text _ rfl rfl rfl).trans ?_⟩
    rw [addressLabel_of_track _ rfl, String.append_assoc]
    rfl
  case unknown =>
    rw [addressingMode_of_unknown _ h0 h40 h80]
    exact ⟨rfl, (text _ rfl rfl rfl).trans (by rw [addressLabel_of_unknown _ rfl])⟩

/-! ### Short and unknown descriptors -/

theorem emitsCommand_of_short {i : Instr} {s : State} {m : Mnemonic} {fields : CmdInfo → Except Fault CmdInfo}
    (row : exec i s = decodeKnown s m fields) (short : s.cdbLen < needOf m) (fits : s.cdbLen ≤ s.params.cdbMax) :
    emitsCommand i s { commonInfo s m with short := true } :=
  row.trans (decodeKnown_short s m fields short fits)

theorem commandText_of_short (info : CmdInfo) (short : info.short = true) :
    commandText info = mnemonicLabel info.mnem ++ " (short)" := by
  rw [commandText, if_pos short]

/-- Settles O21: each of the ten rows tests the length before it looks at a parameter byte. -/
theorem shortDescriptorsAreReported : Obligations.ShortDescriptorsAreReported := by
  intro s i m need text table _ short fits
  have row : ∃ fields, exec i s = decodeKnown s m fields ∧ need = needOf m ∧ text = mnemonicLabel m := by
    simp only [List.mem_cons, Prod.mk.injEq, List.not_mem_nil, or_false] at table
    rcases table with ⟨rfl, rfl, rfl, rfl⟩ | ⟨rfl, rfl, rfl, rfl⟩ | ⟨rfl, rfl, rfl, rfl⟩ | ⟨rfl, rfl, rfl, rfl⟩ |
      ⟨rfl, rfl, rfl, rfl⟩ | ⟨rfl, rfl, rfl, rfl⟩ | ⟨rfl, rfl, rfl, rfl⟩ | ⟨rfl, rfl, rfl, rfl⟩ | ⟨rfl, rfl, rfl, rfl⟩ |
      ⟨rfl, rfl, rfl, rfl⟩ <;> exact ⟨_, rfl, rfl, rfl⟩
  obtain ⟨fields, hExec, rfl, rfl⟩ := row
  exact ⟨emitsCommand_of_short hExec short fits, commandText_of_short _ rfl⟩

theorem emitsCommand_unknown (s : State) (opcode : Byte) (fits : s.cdbLen ≤ s.params.cdbMax) :
    emitsCommand (.unknown opcode) s
      { commonInfo s .unknown with len := min 6 s.cdbLen, raw := storedBytes s (min 6 s.cdbLen) } :=
  congrArg (emitCommand s) (commandBase_ok s .unknown (min 6 s.cdbLen) (Nat.min_le_right _ _) fits)

/-- Settles O20. The row reads no parameter, so that no descriptor is short for it. -/
theorem unknownOpcodeEchoesSixBytes : Obligations.UnknownOpcodeEchoesSixBytes := by
  intro s opcode _ fits
  refine ⟨_, emitsCommand_unknown s opcode fits, rfl, ?text⟩
  case text =>
    rw [commandText_of_complete _ rfl]
    exact String.append_empty

/-! ### What a CDB row looks at -/

/-- The two states hold the same descriptor, of runs with the same number of bytes. -/
structure SameDescriptor (s t : State) : Prop where
  cdb : t.cdb = s.cdb
  cdbLen : t.cdbLen = s.cdbLen
  cdbOverflow : t.cdbOverflow = s.cdbOverflow
  byteCount : t.byteCount = s.byteCount
  cdbMax : t.params.cdbMax = s.params.cdbMax

theorem SameDescriptor.cdbRead_eq {s t : State} (same : SameDescriptor s t) (i : Nat) : cdbRead t i = cdbRead s i := by
  simp only [cdbRead, same.cdbMax, same.cdbLen, same.cdb]

theorem SameDescriptor.cdbSlice_eq {s t : State} (same : SameDescriptor s t) (i k : Nat) :
    cdbSlice t i k = cdbSlice s i k := by
  induction k generalizing i with
  | zero => rfl
  | succ k ih => simp only [cdbSlice, same.cdbRead_eq, ih]

theorem SameDescriptor.commandBase_eq {s t : State} (same : SameDescriptor s t) (m : Mnemonic) (k : Nat) :
    commandBase t m k = commandBase s m k := by
  simp only [commandBase, same.cdbSlice_eq, same.cdbOverflow, same.byteCount]

/-- What a CDB row emits is a function of the descriptor alone (R185, R198): on two states that hold the same one it has the
same answer. -/
theorem exec_cdb_of_sameDescriptor {i : Instr} {s t : State} (hFormat : i.format = .cdb) (same : SameDescriptor s t) :
    ∃ r, exec i s = emitCommand s r ∧ exec i t = emitCommand t r := by
  cases i with
  | unknown op => exact ⟨_, rfl, by simp only [exec, execUnknown, same.commandBase_eq, same.cdbLen]⟩
  | testUnitReady =>
    exact ⟨_, rfl, by simp only [exec, execTestUnitReady, decodeKnown, same.commandBase_eq, same.cdbLen]⟩
  | requestSense =>
    exact ⟨_, rfl, by simp only [exec, execRequestSense, decodeKnown, same.commandBase_eq, same.cdbLen, same.cdbRead_eq]⟩
  | modeSelect =>
    exact ⟨_, rfl, by simp only [exec, execModeSelect, decodeKnown, same.commandBase_eq, same.cdbLen, same.cdbRead_eq]⟩
  | modeSense =>
    exact ⟨_, rfl, by simp only [exec, execModeSense, decodeKnown, same.commandBase_eq, same.cdbLen, same.cdbRead_eq]⟩
  | preventAllow =>
    exact ⟨_, rfl, by simp only [exec, execPreventAllow, decodeKnown, same.commandBase_eq, same.cdbLen, same.cdbRead_eq]⟩
  | readExt =>
    exact ⟨_, rfl, by simp only [exec, execReadExt, decodeKnown, same.commandBase_eq, same.cdbLen, same.cdbRead_eq]⟩
  | readToc =>
    exact ⟨_, rfl, by simp only [exec, execReadToc, decodeKnown, same.commandBase_eq, same.cdbLen, same.cdbRead_eq]⟩
  | readHeader =>
    exact ⟨_, rfl, by simp only [exec, execReadHeader, decodeKnown, same.commandBase_eq, same.cdbLen, same.cdbRead_eq]⟩
  | pauseResume =>
    exact ⟨_, rfl, by simp only [exec, execPauseResume, decodeKnown, same.commandBase_eq, same.cdbLen, same.cdbRead_eq]⟩
  | audioTrackSearch =>
    exact ⟨_, rfl, by simp only [exec, execAudioTrackSearch, decodeKnown, same.commandBase_eq, same.cdbLen, same.cdbRead_eq]⟩
  | _ => cases hFormat

/-- A CDB row that completes on one state emits the same record payload on every state with the same descriptor. -/
theorem emitsCommand_of_sameDescriptor {i : Instr} {s t : State} {info : CmdInfo} (hFormat : i.format = .cdb)
    (same : SameDescriptor s t) (emits : emitsCommand i s info) : emitsCommand i t info := by
  obtain ⟨r, hs, ht⟩ := exec_cdb_of_sameDescriptor hFormat same
  obtain ⟨info', rfl, hOut⟩ := emitCommand_eq_next s _ r (hs.symm.trans emits)
  have hRecord : info = info' := by
    have := congrArg State.out hOut
    simpa [recordNow] using this
  exact ht.trans (by rw [hRecord]; rfl)

/-- Settles O22: neither the class table nor the class is part of the descriptor. -/
theorem commandRowsWriteOnlyTheirRecord : Obligations.CommandRowsWriteOnlyTheirRecord := by
  intro i s t _ hFormat hExec
  obtain ⟨r, hs, -⟩ := exec_cdb_of_sameDescriptor hFormat (⟨rfl, rfl, rfl, rfl, rfl⟩ : SameDescriptor s s)
  obtain ⟨info, rfl, rfl⟩ := emitCommand_eq_next s t r (hs.symm.trans hExec)
  refine ⟨⟨info, rfl⟩, fun cls table => ?_⟩
  have same : SameDescriptor s { s with cmdClass := cls, params := { s.params with cmdClass := table } } :=
    ⟨rfl, rfl, rfl, rfl, rfl⟩
  exact emitsCommand_of_sameDescriptor hFormat same hs

/-! ### Every opcode has a record -/

/-- The mnemonic under which a CDB row reports (30_encoding.md R95). -/
def mnemonicOf : Instr → Mnemonic
  | .testUnitReady => .testUnitReady
  | .requestSense => .requestSense
  | .modeSelect => .modeSelect
  | .modeSense => .modeSense
  | .preventAllow => .preventAllow
  | .readExt => .readExt
  | .readToc => .readToc
  | .readHeader => .readHeader
  | .pauseResume => .pauseResume
  | .audioTrackSearch => .audioTrackSearch
  | _ => .unknown

/-- The fields that every record of a known opcode takes from the run, beside the row's own. -/
structure CmdInfo.HasCommon (info : CmdInfo) (s : State) (m : Mnemonic) : Prop where
  mnem : info.mnem = m
  nbytes : info.nbytes = s.byteCount
  overflow : info.overflow = s.cdbOverflow
  len : info.len = s.cdbLen
  raw : info.raw = storedBytes s s.cdbLen

theorem addressFields_hasCommon {info : CmdInfo} {s : State} {m : Mnemonic} (common : info.HasCommon s m)
    (mode : BitVec 3) (b2 b3 b4 : Byte) : (addressFields info mode b2 b3 b4).HasCommon s m := by
  obtain ⟨mnem, nbytes, overflow, len, raw⟩ := common
  unfold addressFields
  split_ifs <;> exact ⟨mnem, nbytes, overflow, len, raw⟩

/-- A row of a known opcode reports short descriptors by itself, so that only the long ones are left to show. -/
theorem emits_hasCommon_of_long {i : Instr} {s : State} {m : Mnemonic} {fields : CmdInfo → Except Fault CmdInfo}
    (row : exec i s = decodeKnown s m fields) (fits : s.cdbLen ≤ s.params.cdbMax)
    (long : needOf m ≤ s.cdbLen → ∃ info, emitsCommand i s info ∧ info.HasCommon s m) :
    ∃ info, emitsCommand i s info ∧ info.HasCommon s m := by
  by_cases short : s.cdbLen < needOf m
  · exact ⟨_, emitsCommand_of_short row short fits, rfl, rfl, rfl, rfl, rfl⟩
  · exact long (Nat.not_lt.1 short)

/-- Each of the ten rows completes on every stored descriptor, under its own mnemonic. -/
theorem knownRow_emits (s : State) (i : Instr) (row : i ∈ opcodeRows.map Prod.snd) (fits : s.cdbLen ≤ s.params.cdbMax) :
    ∃ info, emitsCommand i s info ∧ info.HasCommon s (mnemonicOf i) := by
  simp only [opcodeRows, List.map_cons, List.map_nil, List.mem_cons, List.not_mem_nil, or_false] at row
  rcases row with rfl | rfl | rfl | rfl | rfl | rfl | rfl | rfl | rfl | rfl
  · exact emits_hasCommon_of_long rfl fits fun long => ⟨_, emitsCommand_testUnitReady s long fits, rfl, rfl, rfl, rfl, rfl⟩
  · exact emits_hasCommon_of_long rfl fits fun long => ⟨_, emitsCommand_requestSense s long fits, rfl, rfl, rfl, rfl, rfl⟩
  · exact emits_hasCommon_of_long rfl fits fun long => ⟨_, emitsCommand_modeSelect s long fits, rfl, rfl, rfl, rfl, rfl⟩
  · refine emits_hasCommon_of_long rfl fits fun long => ?_
    by_cases vendor : s.cdb.read 1 = 0x00 ∧ s.cdb.read 2 = 0x00
    · exact ⟨_, emitsCommand_modeSense_vendor s long fits vendor, rfl, rfl, rfl, rfl, rfl⟩
    · exact ⟨_, emitsCommand_modeSense_page s long fits vendor, rfl, rfl, rfl, rfl, rfl⟩
  · exact emits_hasCommon_of_long rfl fits fun long => ⟨_, emitsCommand_preventAllow s long fits, rfl, rfl, rfl, rfl, rfl⟩
  · exact emits_hasCommon_of_long rfl fits fun long =>
      ⟨_, emitsCommand_readExt s long fits, addressFields_hasCommon ⟨rfl, rfl, rfl, rfl, rfl⟩ _ _ _ _⟩
  · exact emits_hasCommon_of_long rfl fits fun long => ⟨_, emitsCommand_readToc s long fits, rfl, rfl, rfl, rfl, rfl⟩
  · exact emits_hasCommon_of_long rfl fits fun long => ⟨_, emitsCommand_readHeader s long fits, rfl, rfl, rfl, rfl, rfl⟩
  · exact emits_hasCommon_of_long rfl fits fun long => ⟨_, emitsCommand_pauseResume s long fits, rfl, rfl, rfl, rfl, rfl⟩
  · exact emits_hasCommon_of_long rfl fits fun long =>
      ⟨_, emitsCommand_audioTrackSearch s long fits, addressFields_hasCommon ⟨rfl, rfl, rfl, rfl, rfl⟩ _ _ _ _⟩

/-- The mnemonic ids of R95 by opcode. -/
def mnemonicIds : List (Byte × BitVec 4) :=
  [(0x00, 0), (0x03, 1), (0x15, 2), (0x1A, 3), (0x1E, 4), (0x28, 5), (0x43, 6), (0x44, 7), (0x4B, 8), (0xD8, 9)]

theorem mnemonicOf_knownRow : ∀ row ∈ opcodeRows, mnemonicOf row.2 ≠ .unknown ∧ row.1 ∈ knownOpcodes ∧
    mnemonicId (mnemonicOf row.2) = (mnemonicIds.lookup row.1).getD 15 := by decide

theorem mnemonicIds_lookup_of_unlisted (op : Byte) (unlisted : op ∉ knownOpcodes) : mnemonicIds.lookup op = none := by
  have keys : mnemonicIds.map Prod.fst = knownOpcodes := rfl
  refine List.lookup_eq_none_iff.2 fun row hRow => ?_
  have differ : op ≠ row.1 := fun same => unlisted (same ▸ keys ▸ List.mem_map_of_mem hRow)
  simpa using differ

theorem storedBytes_length (s : State) (k : Nat) : (storedBytes s k).length = k := by simp [storedBytes]

/-- Settles O23: the opcode has a row of its own, or it is unknown. -/
theorem everyOpcodeCompletes : Obligations.EveryOpcodeCompletes := by
  intro s op _ fits
  rcases decodeOpcode_row op with row | ⟨unlisted, row⟩
  · obtain ⟨info, emits, common⟩ := knownRow_emits s _ (List.mem_map_of_mem row) fits
    obtain ⟨known, listed, id⟩ := mnemonicOf_knownRow _ row
    refine ⟨info, emits, common.nbytes, common.overflow, ?_, ?_, ?_⟩
    · rw [common.len, common.raw, storedBytes_length]
    · rw [common.mnem]
      exact iff_of_false known (not_not.2 listed)
    · rw [common.mnem]
      exact id
  · rw [row]
    refine ⟨_, emitsCommand_unknown s op fits, rfl, rfl, (storedBytes_length _ _).symm, iff_of_true rfl unlisted, ?_⟩
    exact (congrArg (Option.getD · 15) (mnemonicIds_lookup_of_unlisted op unlisted)).symm

end Sys2Proof.Machine
end

section
/-! PROOFS. The meanings of the rows (40_phase_fsm.md R122 to R126; 41_subphase_tracker.md R146, R151; 42_handshake_sampler.md R161 to
R165; 43_command_interpreter.md R181 to R183), each as one record update. -/

namespace Sys2Proof.Machine

/-! ### The rows that end ARBITRATION and SELECTION -/

theorem State.emit_emit (s : State) (a b : Nat) (p q : Payload) :
    (s.emit a p).emit b q = { s with out := s.out ++ [recordNow s a p, recordNow s b q] } := by
  simp [State.emit, recordNow]

theorem exec_evArbitrationEnd_eq (s : State) (pins : Byte) :
    exec (.evArbitrationEnd pins) s = .next
      { s with
        out := s.out ++ [recordNow s s.phaseStart (.phase .arbitration), recordNow s s.phaseStart (.lun pins)]
        arbPins := pins, phase := .selection, phaseStart := s.samplenum } := by
  rw [exec_evArbitrationEnd, State.emitLun, State.emitPhase, State.emit_emit]
  rfl

theorem exec_evSelectionEnd_eq (s : State) (code : Code) :
    exec (.evSelectionEnd code) s = .next
      { s with
        out := s.out ++ [recordNow s s.phaseStart (.phase .selection), recordNow s s.phaseStart (.lun s.arbPins)]
        phase := .informationTransfer, phaseStart := s.samplenum, subphase := code, runStart := s.samplenum, byteCount := 0
        byteRunStart := s.samplenum, latchValid := false, dbPending := false, dbCnt := 0, bsyHighCnt := 0 } := by
  rw [exec_evSelectionEnd, State.emitLun, State.emitPhase, State.emit_emit]
  rfl

/-! ### The handshake rows -/

/-- The state with the latched byte accepted by the descriptor, in a COMMAND run (42_handshake_sampler.md R162). -/
def State.storeByte (s : State) : State :=
  if s.subphase = commandCode then cdbAccept s s.byteCount s.dataLatch else s

/-- The byte record and the byte-index record of a finalised byte (R165). -/
def byteRecords (s : State) : List Record :=
  [recordNow s s.byteRunStart (bytePayload s.storeByte s.dataLatch), recordNow s s.byteRunStart (.byteIndex s.byteCount)]

theorem State.storeByte_of_command (s : State) (h : s.subphase = commandCode) :
    s.storeByte = cdbAccept s s.byteCount s.dataLatch := if_pos h

theorem State.storeByte_of_not_command (s : State) (h : s.subphase ≠ commandCode) : s.storeByte = s := if_neg h

/-- Beside the descriptor nothing is written when a byte is stored. -/
theorem State.storeByte_frame (s : State) :
    s.storeByte =
      { s with
        cdb := s.storeByte.cdb, cdbLen := s.storeByte.cdbLen, cdbOverflow := s.storeByte.cdbOverflow
        cmdClass := s.storeByte.cmdClass } := by
  by_cases h : s.subphase = commandCode
  · rw [s.storeByte_of_command h, cdbAccept_spec]
  · rw [s.storeByte_of_not_command h]

/-- All that a finalisation writes: the descriptor, the two records, the count and the start of the next byte (R162, R165). -/
theorem finaliseByte_eq (s : State) :
    finaliseByte s =
      { s.storeByte with
        out := s.out ++ byteRecords s, byteCount := s.byteCount + 1, byteRunStart := s.samplenum, latchValid := false } := by
  have frame := s.storeByte_frame
  have start : finaliseByte s = ((s.storeByte.emit s.storeByte.byteRunStart (bytePayload s.storeByte s.dataLatch)).emit
      s.storeByte.byteRunStart (.byteIndex s.byteCount)).countByte := rfl
  have hOut : s.storeByte.out = s.out := (congrArg State.out frame :)
  have hCount : s.storeByte.byteCount = s.byteCount := (congrArg State.byteCount frame :)
  have hStart : s.storeByte.byteRunStart = s.byteRunStart := (congrArg State.byteRunStart frame :)
  have hSample : s.storeByte.samplenum = s.samplenum := (congrArg State.samplenum frame :)
  rw [start, State.emit_emit, hStart, hOut]
  simp only [State.countByte, recordNow, hCount, hSample, byteRecords]

@[simp] theorem finaliseByte_out (s : State) : (finaliseByte s).out = s.out ++ byteRecords s := by rw [finaliseByte_eq]

@[simp] theorem finaliseByte_byteCount (s : State) : (finaliseByte s).byteCount = s.byteCount + 1 := by rw [finaliseByte_eq]

@[simp] theorem finaliseByte_byteRunStart (s : State) : (finaliseByte s).byteRunStart = s.samplenum := by
  rw [finaliseByte_eq]

@[simp] theorem finaliseByte_latchValid (s : State) : (finaliseByte s).latchValid = false := by rw [finaliseByte_eq]

@[simp] theorem finaliseByte_runStart (s : State) : (finaliseByte s).runStart = s.runStart := by
  rw [finaliseByte_eq, s.storeByte_frame]

theorem exec_evAckRise_of_latched (s : State) (latched : s.latchValid = true) :
    exec .evAckRise s = .next (finaliseByte s) :=
  congrArg Host.Outcome.next (if_pos latched)

theorem exec_evAckRise_of_not_latched (s : State) (unlatched : s.latchValid = false) : exec .evAckRise s = .next s :=
  congrArg Host.Outcome.next (if_neg (by simp [unlatched]))

theorem bytePayload_of_command (s : State) (b : Byte) (h : s.subphase = commandCode) :
    bytePayload s b = .cmdByte s.cmdClass b := if_pos h

/-- Bit 0 of the code, the IO level, is the direction (30_encoding.md R85). -/
theorem bytePayload_of_not_command (s : State) (b : Byte) (h : s.subphase ≠ commandCode) :
    bytePayload s b = if s.subphase.getLsbD 0 then .toTarget b else .fromTarget b := by
  rw [bytePayload, if_neg h, directionOf]
  cases s.subphase.getLsbD 0 <;> rfl

/-- Settles O6. -/
theorem ackRiseFinalisesByte : Obligations.AckRiseFinalisesByte := by
  intro s _ latched hCode
  rw [exec_evAckRise_of_latched s latched, finaliseByte_eq, byteRecords, s.storeByte_of_not_command hCode,
    bytePayload_of_not_command s _ hCode]

/-- Settles O8: the row is tested for a latched value by the decoder and again by its meaning. -/
theorem ackRiseWithoutLatchDoesNothing : Obligations.AckRiseWithoutLatchDoesNothing := by
  intro s _ unlatched
  refine ⟨exec_evAckRise_of_not_latched s unlatched, fun w => ?decoder⟩
  case decoder =>
    rw [decodeAckEvent, unlatched]
    split_ifs with fall rise
    · simp
    · simp at rise
    · simp

/-- Where the accumulator stores the byte with a run index: at 0 for the first, else at `cdb_len` (43_command_interpreter.md R181,
R182). -/
def State.storeIndex (s : State) : Nat := if s.byteCount = 0 then 0 else s.cdbLen

/-- In a COMMAND run that meets the invariant the byte with run index `i` has the place `i` in the store, while there is room. -/
theorem State.storeIndex_eq_byteCount (s : State) (inv : s.Inv) (hPhase : s.phase = .informationTransfer)
    (hCode : s.subphase = commandCode) (room : s.byteCount < s.params.cdbMax) : s.storeIndex = s.byteCount := by
  rw [State.storeIndex]
  split
  · omega
  · obtain ⟨hLen, -⟩ := inv.descriptorOk.2 hPhase hCode (by omega)
    omega

theorem finaliseByte_of_command (s : State) (hCode : s.subphase = commandCode) :
    finaliseByte s =
      { s with
        cmdClass := if s.byteCount = 0 then classOf s.params s.dataLatch else s.cmdClass
        cdb := if s.storeIndex < s.params.cdbMax then s.cdb.write s.storeIndex s.dataLatch else s.cdb
        cdbLen := if s.storeIndex < s.params.cdbMax then s.storeIndex + 1 else s.storeIndex
        cdbOverflow := if s.storeIndex < s.params.cdbMax then (if s.byteCount = 0 then false else s.cdbOverflow) else true
        out := s.out ++ [
          recordNow s s.byteRunStart
            (.cmdByte (if s.byteCount = 0 then classOf s.params s.dataLatch else s.cmdClass) s.dataLatch),
          recordNow s s.byteRunStart (.byteIndex s.byteCount)]
        byteCount := s.byteCount + 1, byteRunStart := s.samplenum, latchValid := false } := by
  rw [finaliseByte_eq, byteRecords, s.storeByte_of_command hCode, bytePayload_of_command _ _ (by simpa using hCode),
    cdbAccept_spec]
  rfl

/-- Settles O7, by cases on whether the byte is the first of its run. -/
theorem ackRiseInCommandStoresByte : Obligations.AckRiseInCommandStoresByte := by
  constructor
  · intro s _ latched hCode
    refine ⟨s.storeIndex, if s.byteCount = 0 then false else s.cdbOverflow,
      if s.byteCount = 0 then classOf s.params s.dataLatch else s.cmdClass, fun first => ?first, fun later => ?later, ?exec⟩
    case first => exact ⟨if_pos first, if_pos first, if_pos first⟩
    case later =>
      have notFirst : s.byteCount ≠ 0 := by omega
      exact ⟨if_neg notFirst, if_neg notFirst, if_neg notFirst⟩
    case exec => rw [exec_evAckRise_of_latched s latched, finaliseByte_of_command s hCode]
  · intro s t _ inv hPhase latched hCode hExec room
    rw [exec_evAckRise_of_latched s latched] at hExec
    obtain rfl := Host.Outcome.next.inj hExec
    have stored : (finaliseByte s).cdb = s.cdb.write s.byteCount s.dataLatch := by
      rw [finaliseByte_of_command s hCode, s.storeIndex_eq_byteCount inv hPhase hCode room]
      exact if_pos room
    rw [stored]
    exact ⟨Memory.read_write_same _ _ _ inv.storeOk.1, fun i other => Memory.read_write_other _ _ _ _ other⟩

/-! ### The flush and the exit row -/

theorem exec_decodeSubphase (s : State) (c : Code) : exec (decodeSubphase c) s = .next (s.emitRun c) := by
  rw [← execSubphaseRow_eq_exec, execSubphaseRow_next]

/-- Settles O9. -/
theorem subphaseRowsEmitTheRunRecord : Obligations.SubphaseRowsEmitTheRunRecord := by
  refine ⟨fun s _ => ⟨rfl, rfl, rfl, rfl, rfl, rfl, rfl, rfl⟩, fun s c _ => exec_decodeSubphase s c, ?names⟩
  case names => decide

/-- With bytes outside COMMAND the flush is the SUBPHASE_CODE row (41_subphase_tracker.md R146). -/
theorem flushRun_of_not_command (s : State) (bytes : 1 ≤ s.byteCount) (hCode : s.subphase ≠ commandCode) :
    flushRun s = .next (s.emitRun s.subphase) := by
  rw [flushRun, if_pos bytes, execSubphaseRow_next, andThen_next, if_neg hCode]

/-- In COMMAND the flush goes on with the CDB row of the opcode (R146, 43_command_interpreter.md R185). -/
theorem flushRun_of_command (s : State) (op : Byte) (bytes : 1 ≤ s.byteCount) (hCode : s.subphase = commandCode)
    (hOp : cdbRead s 0 = .ok op) : flushRun s = exec (decodeOpcode op) (s.emitRun commandCode) := by
  have hOp : cdbRead (s.emitRun commandCode) 0 = .ok op := hOp
  rw [flushRun, if_pos bytes, execSubphaseRow_next, andThen_next, if_pos hCode, hCode, decodeDescriptor, hOp,
    ← execCommandRow_eq_exec]

/-- The record of the opcode does not depend on the records before it. -/
theorem flushRun_of_stored_command (s : State) (bytes : 1 ≤ s.byteCount) (hCode : s.subphase = commandCode)
    (stored : 1 ≤ s.cdbLen) (fits : s.cdbLen ≤ s.params.cdbMax) :
    ∃ info, emitsCommand (decodeOpcode (s.cdb.read 0)) s info ∧
      flushRun s = .next
        { s with
          out := s.out ++ [recordNow s s.runStart (.subphase commandCode s.byteCount), recordNow s s.runStart (.cmd info)] } := by
  obtain ⟨info, hInfo⟩ := execCommandRow_completes (s.cdb.read 0) s fits
  have emits : emitsCommand (decodeOpcode (s.cdb.read 0)) s info := by
    rw [execCommandRow_eq_exec] at hInfo
    exact hInfo
  have same : SameDescriptor s (s.emitRun commandCode) := ⟨rfl, rfl, rfl, rfl, rfl⟩
  have afterRun := emitsCommand_of_sameDescriptor (decodeOpcode_wellFormed _).2 same emits
  refine ⟨info, emits, ?_⟩
  rw [flushRun_of_command s _ bytes hCode (cdbRead_ok s 0 stored fits), afterRun]
  exact congrArg Host.Outcome.next (State.emit_emit s s.runStart s.runStart _ _)

/-- Settles O24. -/
theorem flushRunExecutesDecodedRows : Obligations.FlushRunExecutesDecodedRows := by
  refine ⟨fun s _ empty => flushRun_empty s empty, fun s _ bytes hCode => ?row, fun s op _ bytes hCode hOp => ?rows⟩
  case row => rw [flushRun_of_not_command s bytes hCode, exec_decodeSubphase]
  case rows => exact flushRun_of_command s op bytes hCode hOp

/-- The exit goes on from what the flush of the last run answers (40_phase_fsm.md R126). -/
theorem exec_evInformationTransferEnd_of_flush (s : State) (records : List Record)
    (flush : flushRun s = .next { s with out := s.out ++ records }) :
    exec .evInformationTransferEnd s = .next
      { s with
        out := s.out ++ (records ++ [recordNow s s.phaseStart (.phase .informationTransfer)])
        phase := .busFree, phaseStart := s.samplenum, dbPending := false, dbCnt := 0, bsyHighCnt := 0 } := by
  have hExec : exec .evInformationTransferEnd s = andThen (flushRun s) fun t =>
    .next ((t.emitPhase .informationTransfer).enterPhase .busFree).clearFilters := rfl
  rw [hExec, flush, andThen_next, ← List.append_assoc]
  rfl

/-- Settles O4, by cases on the run that the exit flushes. -/
theorem transferExitFlushesAndReturnsToBusFree : Obligations.TransferExitFlushesAndReturnsToBusFree := by
  intro s _
  refine ⟨fun empty => ?empty, fun bytes hCode => ?data, fun bytes hCode stored fits => ?command⟩
  case empty => exact exec_evInformationTransferEnd_of_empty s empty
  case data => exact exec_evInformationTransferEnd_of_flush s [_] (flushRun_of_not_command s bytes hCode)
  case command =>
    obtain ⟨info, emits, flush⟩ := flushRun_of_stored_command s bytes hCode stored fits
    exact ⟨info, emits, exec_evInformationTransferEnd_of_flush s [_, _] flush⟩

end Sys2Proof.Machine
end

section
/-! PROOFS. One step, equation by equation (40_phase_fsm.md R120, R125; 41_subphase_tracker.md R141 to R148; 42_handshake_sampler.md
R160; 60_exceptions.md R221 to R223, R229, R233): what it is for each stimulus, and in RUNNING for each phase and each edge. -/

namespace Sys2Proof.Machine

/-! ### The rows that an event word decodes to, as edges -/

theorem decodePhaseEvent_arbitration (p : Controls) (f : Frame) :
    decodePhaseEvent .arbitration (eventWord p f) =
      if p.bsy = true ∧ f.bsy = false then some (.evArbitrationEnd f.d) else none := by
  simp only [decodePhaseEvent, arbitrationEndRow_fires_iff, eventWord_current]

theorem decodePhaseEvent_selection (p : Controls) (f : Frame) :
    decodePhaseEvent .selection (eventWord p f) =
      if p.sel = false ∧ f.sel = true then some (.evSelectionEnd f.code) else none := by
  simp only [decodePhaseEvent, selectionEndRow_fires_iff, eventWord_current]

theorem decodePhaseEvent_busFree (p : Controls) (f : Frame) :
    decodePhaseEvent .busFree (eventWord p f) = if p.sel = true ∧ f.sel = false then some .evBusFreeEnd else none := by
  simp only [decodePhaseEvent, busFreeEndRow_fires_iff]

/-- A falling edge latches; a rising one finalises, if a byte is latched (R160 to R163). -/
theorem decodeAckEvent_eventWord (latchValid : Bool) (p : Controls) (f : Frame) :
    decodeAckEvent latchValid (eventWord p f) =
      if p.ack = true ∧ f.ack = false then some (.evAckFall f.d)
      else if (f.ack = true ∧ p.ack = false) ∧ latchValid = true then some .evAckRise else none := by
  simp only [decodeAckEvent, ackFallRow_fires_iff, Bool.and_eq_true, ackRiseRow_fires_iff, eventWord_current]

theorem succ_eq_bsyDebounce_iff : ∀ cnt : BitVec 2, (cnt + 1 == bsyDebounce) = true ↔ cnt = 1 := by decide

/-- The exit row awaits the second high sample of BSY (R148). -/
theorem decodeExitEvent_eventWord (cnt : BitVec 2) (p : Controls) (f : Frame) :
    decodeExitEvent cnt (eventWord p f) =
      if f.bsy = true ∧ cnt = 1 then some .evInformationTransferEnd else none := by
  simp only [decodeExitEvent, Bool.and_eq_true, informationTransferEndRow_fires_iff, succ_eq_bsyDebounce_iff]

/-! ### A step for each stimulus -/

theorem step_of_no_input (s : State) (hInput : s.input = []) : step s = .next s.clearPorts := by
  simp only [step, takeStimulus, hInput]

theorem step_of_rst (s : State) (rest : List Stimulus) (hInput : s.input = .rst :: rest) :
    step s = .next (resetBlock { s with input := rest }) := by
  simp only [step, takeStimulus, hInput]

theorem step_of_writeCfg (s : State) (c : Cfg) (rest : List Stimulus) (hInput : s.input = .writeCfg c :: rest) :
    step s = .next ((beginStep s rest).writeCfg c) := by
  simp only [step, takeStimulus, hInput]
  rfl

theorem step_of_frame (s : State) (f : Frame) (rest : List Stimulus) (hInput : s.input = .frame f :: rest) :
    step s = frameStep f (beginStep s rest) := by
  simp only [step, takeStimulus, hInput]
  rfl

/-- A frame in IDLE with a sample rate configured is served as in RUNNING (60_exceptions.md R221). -/
theorem frameStep_of_configured (f : Frame) (s : State) (hRun : s.runState = .idle) (hCfg : s.cfg.srValid = true) :
    frameStep f s = runningStep f { s with runState := .running } := by
  simp only [frameStep, hRun, if_pos hCfg]

/-- A frame in IDLE without one raises ConfigurationError (R222). -/
theorem frameStep_of_not_configured (f : Frame) (s : State) (hRun : s.runState = .idle) (hCfg : s.cfg.srValid = false) :
    frameStep f s = .next (raiseConfigurationError s).skipFrame := by
  simp [frameStep, hRun, hCfg]

theorem frameStep_of_halted (f : Frame) (s : State) (hRun : s.runState = .halted) : frameStep f s = .next s.skipFrame := by
  simp only [frameStep, hRun]

/-- The state in which a frame is served: the stimulus taken, the ports clear, the block in RUNNING, which a frame in IDLE enters. -/
def beginRunning (s : State) (rest : List Stimulus) : State := { beginStep s rest with runState := .running }

/-- The two ways in which a frame is served (R221). -/
theorem step_of_served (s : State) (f : Frame) (rest : List Stimulus) (hInput : s.input = .frame f :: rest)
    (hStart : s.runState = .running ∨ (s.runState = .idle ∧ s.cfg.srValid = true)) :
    step s = runningStep f (beginRunning s rest) := by
  rcases hStart with hRun | ⟨hRun, hCfg⟩
  · have same : beginRunning s rest = beginStep s rest := by rw [beginRunning, ← hRun]; rfl
    rw [step_of_running s f rest hRun hInput, same]
  · rw [step_of_frame s f rest hInput]
    exact frameStep_of_configured f (beginStep s rest) hRun hCfg

/-- Settles O44. -/
theorem holdsStateWithoutStimulus : Obligations.HoldsStateWithoutStimulus :=
  fun s _ hInput => step_of_no_input s hInput

/-- Settles O45. -/
theorem firstFrameOnlyLoadsPrev : Obligations.FirstFrameOnlyLoadsPrev := by
  intro s f rest _ hStart hValid hInput
  rw [step_of_served s f rest hInput hStart]
  exact runningStep_of_not_prevValid f (beginRunning s rest) hValid

/-- Settles O40: the configuration test; what follows it when a rate is configured is the first frame of O45. -/
theorem firstFrameTestsConfiguration : Obligations.FirstFrameTestsConfiguration := by
  intro s f rest within hRun hInput
  refine ⟨fun hCfg => ?error, fun hCfg hValid => ?start⟩
  case error =>
    rw [step_of_frame s f rest hInput]
    exact frameStep_of_not_configured f (beginStep s rest) hRun hCfg
  case start => exact firstFrameOnlyLoadsPrev s f rest within (.inr ⟨hRun, hCfg⟩) hValid hInput

/-- Settles O42. -/
theorem resetRestoresGivenValues : Obligations.ResetRestoresGivenValues := by
  intro s rest _ hInput
  exact ⟨_, step_of_rst s rest hInput, rfl, rfl, rfl, rfl, rfl, rfl, rfl, rfl, rfl, rfl, rfl, rfl, rfl, rfl, rfl, rfl, rfl, rfl⟩

/-- The lowest bits of a concatenation are its last part. -/
theorem extractLsb'_append_right {m n : Nat} (x : BitVec m) (y : BitVec n) : (x ++ y).extractLsb' 0 n = y := by
  rw [← BitVec.setWidth_eq_extractLsb' (Nat.le_add_left n m)]
  exact BitVec.setWidth_append_eq_right

/-- A field of a concatenation that starts above its last part. -/
theorem extractLsb'_append_left {m n k w : Nat} (x : BitVec m) (y : BitVec n) :
    (x ++ y).extractLsb' (n + k) w = x.extractLsb' k w := by
  refine BitVec.eq_of_getLsbD_eq fun i hi => ?_
  have above : ¬n + k + i < n := by omega
  have shift : n + k + i - n = k + i := by omega
  simp only [BitVec.getLsbD_extractLsb', BitVec.getLsbD_append, if_neg above, shift]

/-- Settles O43: a CFG write is a step of its own, and STATUS is read field by field. -/
theorem hostRegisters : Obligations.HostRegisters := by
  refine ⟨fun s c rest _ hInput => step_of_writeCfg s c rest hInput, fun s => ⟨?errCfg, ?runState, ?phase, fun _ => ?subphase⟩⟩
  case errCfg =>
    rw [statusRegister, BitVec.getLsbD_append, if_pos (by decide)]
    cases s.errCfg <;> rfl
  case runState =>
    refine (extractLsb'_append_left (k := 0) _ _).trans ((extractLsb'_append_right _ _).trans ?_)
    cases s.runState <;> rfl
  case phase =>
    refine (extractLsb'_append_left (k := 2) _ _).trans
      ((extractLsb'_append_left (k := 0) _ _).trans ((extractLsb'_append_right _ _).trans ?_))
    cases s.phase <;> rfl
  case subphase =>
    exact (extractLsb'_append_left (k := 4) _ _).trans ((extractLsb'_append_left (k := 2) _ _).trans
      ((extractLsb'_append_left (k := 0) _ _).trans BitVec.extractLsb'_eq_self))

/-! ### A step in RUNNING outside INFORMATION_TRANSFER -/

theorem step_of_not_prevValid (s : State) (f : Frame) (rest : List Stimulus) (hRun : s.runState = .running)
    (hInput : s.input = .frame f :: rest) (hValid : s.prevValid = false) : step s = .next (afterFrame s f rest) := by
  rw [step_of_running s f rest hRun hInput, runningStep_of_not_prevValid f (beginStep s rest) hValid]
  rfl

theorem step_of_phaseEvent (s : State) (f : Frame) (rest : List Stimulus) (hRun : s.runState = .running)
    (hInput : s.input = .frame f :: rest) (hValid : s.prevValid = true) (hPhase : s.phase ≠ .informationTransfer) :
    step s = andThen (runEvent (decodePhaseEvent s.phase (eventWord s.prev f)) (beginStep s rest)) fun t =>
      .next (t.endFrame f) := by
  rw [step_of_running s f rest hRun hInput, runningStep_of_prevValid f (beginStep s rest) hValid,
    phaseStep_of_not_transfer f (beginStep s rest) hPhase]
  rfl

/-- Settles O2. The bounds on the counters are not needed. -/
theorem arbitrationEndsOnBsyFall : Obligations.ArbitrationEndsOnBsyFall := by
  refine ⟨fun s pins _ => exec_evArbitrationEnd_eq s pins, fun s f rest _ hRun hPhase hInput => ?step⟩
  case step =>
    cases hValid : s.prevValid with
    | false => rw [step_of_not_prevValid s f rest hRun hInput hValid, if_neg (by simp)]
    | true =>
      rw [step_of_phaseEvent s f rest hRun hInput hValid (by simp [hPhase]), hPhase, decodePhaseEvent_arbitration]
      by_cases edge : s.prev.bsy = true ∧ f.bsy = false
      · rw [if_pos edge, if_pos ⟨rfl, edge⟩, runEvent, exec_evArbitrationEnd_eq]
        rfl
      · rw [if_neg edge, if_neg fun h => edge h.2]
        rfl

/-- The code as a number of its three levels (30_encoding.md R83). -/
theorem codeOf_eq_ofNat : ∀ msg cd io : Bool,
    codeOf msg cd io = BitVec.ofNat 3 (4 * msg.toNat + 2 * cd.toNat + io.toNat) := by decide

/-- Settles O3. The bounds on the counters are not needed. -/
theorem selectionEndsOnSelRise : Obligations.SelectionEndsOnSelRise := by
  refine ⟨fun s code _ => exec_evSelectionEnd_eq s code, fun s f rest _ hRun hPhase hInput => ?step⟩
  case step =>
    cases hValid : s.prevValid with
    | false => rw [step_of_not_prevValid s f rest hRun hInput hValid, if_neg (by simp)]
    | true =>
      rw [step_of_phaseEvent s f rest hRun hInput hValid (by simp [hPhase]), hPhase, decodePhaseEvent_selection]
      by_cases edge : s.prev.sel = false ∧ f.sel = true
      · rw [if_pos edge, if_pos ⟨rfl, edge⟩, runEvent, exec_evSelectionEnd_eq, ← codeOf_eq_ofNat]
        rfl
      · rw [if_neg edge, if_neg fun h => edge h.2]
        rfl

/-- Settles O29: outside INFORMATION_TRANSFER the decoder answers at most one row. -/
theorem stepExecutesDecodedPhaseEvent : Obligations.StepExecutesDecodedPhaseEvent := by
  intro s f rest _ hRun hValid hPhase hInput decoded
  have rows : decoded = (decodePhaseEvent s.phase (eventWord s.prev f)).toList := by
    cases hp : s.phase <;> simp_all [decoded, decodeEvents]
  have taken := step_of_phaseEvent s f rest hRun hInput hValid hPhase
  refine ⟨fun none => ?none, fun i one => ?one⟩
  case none =>
    rw [taken, Option.toList_eq_nil_iff.1 (rows.symm.trans none)]
    rfl
  case one => rw [taken, Option.toList_eq_singleton_iff.1 (rows.symm.trans one), runEvent]

/-! ### The sub-steps of INFORMATION_TRANSFER -/

theorem step_of_transfer (s : State) (f : Frame) (rest : List Stimulus) (hRun : s.runState = .running)
    (hInput : s.input = .frame f :: rest) (hValid : s.prevValid = true) (hPhase : s.phase = .informationTransfer) :
    step s = andThen (transferStep f (beginStep s rest)) fun t => .next (t.endFrame f) := by
  rw [step_of_running s f rest hRun hInput, runningStep_of_prevValid f (beginStep s rest) hValid,
    phaseStep_of_transfer f (beginStep s rest) hPhase]

theorem handshake_of_ack_fall (f : Frame) (s : State) (fall : s.prev.ack = true ∧ f.ack = false) :
    handshake f s = .next (s.latch f.d) := by
  rw [handshake, decodeAckEvent_eventWord, if_pos fall]
  rfl

theorem codeOf_eq_iff : ∀ msg cd io msg' cd' io' : Bool,
    codeOf msg cd io = codeOf msg' cd' io' ↔ msg = msg' ∧ cd = cd' ∧ io = io' := by decide

/-- The candidate edge of R141 is a change of the code. -/
theorem candidate_eq_true_iff (s : State) (f : Frame) (hValid : s.prevValid = true) :
    candidate s f = true ↔ f.code ≠ s.prev.code := by
  rw [Frame.code, Controls.code, Ne, codeOf_eq_iff]
  simp only [candidate, either, hValid, Bool.true_and, Bool.or_eq_true, bne_iff_ne]
  grind

theorem debounce_of_edge (f : Frame) (s : State) (closed : s.dbPending = false) (hValid : s.prevValid = true)
    (edge : f.code ≠ s.prev.code) : debounce f s = .next s.openWindow := by
  rw [debounce, if_neg (by simp [closed]), if_pos ((candidate_eq_true_iff s f hValid).2 edge)]

theorem debounce_of_no_edge (f : Frame) (s : State) (closed : s.dbPending = false) (hValid : s.prevValid = true)
    (noEdge : f.code = s.prev.code) : debounce f s = .next s := by
  rw [debounce, if_neg (by simp [closed]), if_neg fun edge => (candidate_eq_true_iff s f hValid).1 edge noEdge]

theorem debounce_of_counting (f : Frame) (s : State) (pending : s.dbPending = true) (left : 1 < s.dbCnt) :
    debounce f s = .next s.countWindow := by
  rw [debounce, if_pos pending, if_neg (by omega)]

theorem debounce_of_glitch (f : Frame) (s : State) (pending : s.dbPending = true) (last : s.dbCnt ≤ 1)
    (back : f.code = s.subphase) : debounce f s = .next s.closeWindow := by
  rw [debounce, if_pos pending, if_pos (by omega), if_pos back]

theorem debounce_of_boundary (f : Frame) (s : State) (pending : s.dbPending = true) (last : s.dbCnt ≤ 1)
    (other : f.code ≠ s.subphase) : debounce f s = boundary f.code s.closeWindow := by
  rw [debounce, if_pos pending, if_pos (by omega), if_neg other]

theorem bsyFilter_of_exit (f : Frame) (s : State) (second : f.bsy = true ∧ s.bsyHighCnt = 1) :
    bsyFilter f s = exec .evInformationTransferEnd s := by
  simp only [bsyFilter, decodeExitEvent_eventWord, if_pos second]

theorem bsyFilter_of_not_exit (f : Frame) (s : State) (notSecond : ¬(f.bsy = true ∧ s.bsyHighCnt = 1)) :
    bsyFilter f s = .next (s.countBsy f.bsy) := by
  simp only [bsyFilter, decodeExitEvent_eventWord, if_neg notSecond]

/-- Settles O5. No window is open and the code does not change, so that only the latch and the BSY count are written. -/
theorem ackFallLatchesDataLevels : Obligations.AckFallLatchesDataLevels := by
  refine ⟨fun s d _ => rfl, fun s f rest _ hRun hValid hPhase closed hInput high low bsy noEdge => ?step⟩
  case step =>
    have low : ¬(f.bsy = true ∧ ((beginStep s rest).latch f.d).bsyHighCnt = 1) := by simp [bsy]
    rw [step_of_transfer s f rest hRun hInput hValid hPhase, transferStep,
      handshake_of_ack_fall f (beginStep s rest) ⟨high, ‹f.ack = false›⟩, andThen_next,
      debounce_of_no_edge f ((beginStep s rest).latch f.d) closed hValid noEdge, andThen_next,
      bsyFilter_of_not_exit f _ low, bsy]
    rfl

/-- The sampler writes the latch, the descriptor, the records, the count and the start of the next byte, and no other field. -/
theorem handshake_frame (f : Frame) (s t : State) (h : handshake f s = .next t) :
    t = { s with
      dataLatch := t.dataLatch, latchValid := t.latchValid, cdb := t.cdb, cdbLen := t.cdbLen, cdbOverflow := t.cdbOverflow
      cmdClass := t.cmdClass, out := t.out, byteCount := t.byteCount, byteRunStart := t.byteRunStart } := by
  rcases handshake_cases f s t h with ⟨-, rfl⟩ | ⟨-, -, -, rfl⟩ | ⟨-, -, rfl⟩
  · rfl
  · rw [finaliseByte_eq, s.storeByte_frame]
  · rfl

/-- The debouncer writes the window, the records, and at a boundary the code, the count and the start of the run. -/
theorem debounce_frame (f : Frame) (s t : State) (h : debounce f s = .next t) :
    t = { s with
      dbPending := t.dbPending, dbCnt := t.dbCnt, out := t.out, subphase := t.subphase, byteCount := t.byteCount
      runStart := t.runStart } := by
  rcases debounce_cases f s t h with
    ⟨-, -, rfl⟩ | ⟨-, -, -, rfl⟩ | ⟨-, -, -, u, flush, rfl⟩ | ⟨-, -, rfl⟩ | ⟨-, -, rfl⟩
  case inr.inr.inl => rw [flushRun_frame _ u flush]; rfl
  all_goals rfl

theorem andThen_assoc (r : Result) (k l : State → Result) :
    andThen (andThen r k) l = andThen r fun t => andThen (k t) l := by
  cases r <;> rfl

theorem andThen_congr (r : Result) (k l : State → Result) (h : ∀ t, r = .next t → k t = l t) : andThen r k = andThen r l := by
  cases r with
  | next t => exact h t rfl
  | fault e => rfl
  | refused e => rfl

theorem bsyFilter_eq_elim (f : Frame) (s : State) :
    bsyFilter f s = (decodeExitEvent s.bsyHighCnt (eventWord s.prev f)).elim (.next (s.countBsy f.bsy)) (exec · s) := by
  rw [bsyFilter]
  cases decodeExitEvent s.bsyHighCnt (eventWord s.prev f) <;> rfl

/-- The exit row is decoded from levels and a count that the sub-steps before it leave alone. -/
theorem transferStep_eq (f : Frame) (s : State) :
    transferStep f s =
      andThen (runEvent (decodeAckEvent s.latchValid (eventWord s.prev f)) s) fun t =>
      andThen (debounce f t) fun u =>
      (decodeExitEvent s.bsyHighCnt (eventWord s.prev f)).elim (.next (u.countBsy f.bsy)) (exec · u) := by
  refine andThen_congr _ _ _ fun t hAck => andThen_congr _ _ _ fun u hDebounce => ?_
  have tFrame := handshake_frame f s t hAck
  have uFrame := debounce_frame f t u hDebounce
  have hPrev : u.prev = s.prev := (congrArg State.prev uFrame :).trans (congrArg State.prev tFrame :)
  have hCount : u.bsyHighCnt = s.bsyHighCnt := (congrArg State.bsyHighCnt uFrame :).trans (congrArg State.bsyHighCnt tFrame :)
  rw [bsyFilter_eq_elim, hPrev, hCount]

/-- Settles O30. -/
theorem stepExecutesDecodedTransferRows : Obligations.StepExecutesDecodedTransferRows := by
  intro s f rest _ hRun hValid hPhase hInput w ack exit
  refine ⟨by rw [hPhase]; rfl, ?step⟩
  case step =>
    rw [step_of_transfer s f rest hRun hInput hValid hPhase, transferStep_eq]
    simp only [andThen_assoc]
    change andThen (runEvent ack (beginStep s rest)) (fun t => andThen (debounce f t) fun u =>
      andThen (exit.elim (.next (u.countBsy f.bsy)) (exec · u)) fun v => .next (v.endFrame f)) = _
    clear_value ack exit
    cases ack <;> cases exit <;> rfl

end Sys2Proof.Machine
end

section
/-! PROOFS. All that a step can answer (40_phase_fsm.md R120, R125; 60_exceptions.md R221 to R223), said once: the records of a run,
the sampler, the two filters after it, the rows of a served frame, and the step. What a step counts and what it keeps. -/

namespace Sys2Proof.Machine

/-! ### The flush -/

/-- What the flush emits for a run with a code, a number of bytes and a start (41_subphase_tracker.md R146, R147). -/
inductive RunRecords (code : Code) (bytes start now : Nat) : List Record → Prop
  | empty (none : bytes = 0) : RunRecords code bytes start now []
  | data (some : 1 ≤ bytes) (other : code ≠ commandCode) :
    RunRecords code bytes start now [⟨start, now, .subphase code bytes⟩]
  | command (some : 1 ≤ bytes) (hCode : code = commandCode) (info : CmdInfo) (hBytes : info.nbytes = bytes) :
    RunRecords code bytes start now [⟨start, now, .subphase code bytes⟩, ⟨start, now, .cmd info⟩]

/-- The records of the open run, should it be flushed now. -/
abbrev State.RunRecords (s : State) (l : List Record) : Prop :=
  Machine.RunRecords s.subphase s.byteCount s.runStart s.samplenum l

theorem flushRun_records (s t : State) (h : flushRun s = .next t) : ∃ l, s.RunRecords l ∧ t = { s with out := s.out ++ l } := by
  rcases flushRun_cases s t h with ⟨empty, rfl⟩ | ⟨bytes, other, rfl⟩ | ⟨bytes, hCode, info, hBytes, rfl⟩
  · exact ⟨[], .empty empty, by rw [List.append_nil]⟩
  · exact ⟨_, .data bytes other, rfl⟩
  · exact ⟨_, .command bytes hCode info hBytes, State.emit_emit s s.runStart s.runStart _ _⟩

/-! ### The sub-steps of INFORMATION_TRANSFER -/

/-- All the sampler can do to a state: write the latch, or finalise the latched byte on a rising ACK edge (42_handshake_sampler.md
R160 to R163). -/
inductive Sampled (f : Frame) (s : State) : State → Prop
  | latch (d : Byte) (valid : Bool) : Sampled f s { s with dataLatch := d, latchValid := valid }
  | byte (latched : s.latchValid = true) (high : f.ack = true) (low : s.prev.ack = false) : Sampled f s (finaliseByte s)

theorem handshake_sampled (f : Frame) (s t : State) (h : handshake f s = .next t) : Sampled f s t := by
  rcases handshake_cases f s t h with ⟨-, rfl⟩ | ⟨-, rise, latched, rfl⟩ | ⟨-, -, rfl⟩
  · exact .latch _ _
  · obtain ⟨high, low⟩ := (ackRiseRow_fires_iff _ _).1 rise
    exact .byte latched high low
  · exact .latch t.dataLatch t.latchValid

/-- All the debouncer and the BSY filter can do to a state in one frame: go on with the run; confirm a boundary, which flushes it and
begins another one; end the phase, which flushes it; or both, of which the second flushes an empty run (R141 to R148, 40_phase_fsm.md
R126). -/
inductive Filtered (f : Frame) (s : State) : State → Prop
  | goesOn (pending : Bool) (left : Nat) (high : BitVec 2) :
    Filtered f s { s with dbPending := pending, dbCnt := left, bsyHighCnt := high }
  | newRun (high : BitVec 2) (l : List Record) (run : s.RunRecords l)
    (expired : s.dbPending = true ∧ s.dbCnt ≤ 1 ∧ f.code ≠ s.subphase) :
    Filtered f s
      { s with
        out := s.out ++ l, subphase := f.code, byteCount := 0, runStart := s.samplenum, dbPending := false
        bsyHighCnt := high }
  | exit (l : List Record) (run : s.RunRecords l) :
    Filtered f s
      { s with
        out := s.out ++ (l ++ [recordNow s s.phaseStart (.phase .informationTransfer)])
        phase := .busFree, phaseStart := s.samplenum, dbPending := false, dbCnt := 0, bsyHighCnt := 0 }
  | newRunExit (l : List Record) (run : s.RunRecords l)
    (expired : s.dbPending = true ∧ s.dbCnt ≤ 1 ∧ f.code ≠ s.subphase) :
    Filtered f s
      { s with
        out := s.out ++ (l ++ [recordNow s s.phaseStart (.phase .informationTransfer)])
        subphase := f.code, byteCount := 0, runStart := s.samplenum
        phase := .busFree, phaseStart := s.samplenum, dbPending := false, dbCnt := 0, bsyHighCnt := 0 }

/-- What the debouncer does to a state without a boundary is to write the window. -/
theorem bsyFilter_filtered_of_window (f : Frame) (s u t : State) (pending : Bool) (left : Nat)
    (hu : u = { s with dbPending := pending, dbCnt := left }) (h : bsyFilter f u = .next t) : Filtered f s t := by
  subst hu
  rcases bsyFilter_cases f _ t h with ⟨-, exit⟩ | ⟨-, rfl⟩
  · obtain ⟨v, flush, rfl⟩ := execEvInformationTransferEnd_cases _ t exit
    obtain ⟨l, run, rfl⟩ := flushRun_records _ v flush
    have exited := Filtered.exit (f := f) (s := s) l run
    rw [← List.append_assoc] at exited
    exact exited
  · exact .goesOn _ _ _

/-- After a boundary the run is empty, so that the exit in the same frame flushes nothing. -/
theorem bsyFilter_filtered_of_boundary (f : Frame) (s u t : State) (l : List Record) (run : s.RunRecords l)
    (expired : s.dbPending = true ∧ s.dbCnt ≤ 1 ∧ f.code ≠ s.subphase)
    (hu : u = { s with
      out := s.out ++ l, subphase := f.code, byteCount := 0, runStart := s.samplenum, dbPending := false })
    (h : bsyFilter f u = .next t) : Filtered f s t := by
  subst hu
  rcases bsyFilter_cases f _ t h with ⟨-, exit⟩ | ⟨-, rfl⟩
  · rw [exec_evInformationTransferEnd_of_empty _ rfl] at exit
    obtain rfl := Host.Outcome.next.inj exit
    have exited := Filtered.newRunExit (f := f) (s := s) l run expired
    rw [← List.append_assoc] at exited
    exact exited
  · exact .newRun _ l run expired

theorem debounce_bsyFilter_filtered (f : Frame) (s u t : State) (hDebounce : debounce f s = .next u)
    (hFilter : bsyFilter f u = .next t) : Filtered f s t := by
  rcases debounce_cases f s u hDebounce with
    ⟨-, -, hu⟩ | ⟨-, -, -, hu⟩ | ⟨pending, last, other, v, flush, hu⟩ | ⟨-, -, hu⟩ | ⟨-, -, hu⟩
  · exact bsyFilter_filtered_of_window f s u t s.dbPending (s.dbCnt - 1) hu hFilter
  · exact bsyFilter_filtered_of_window f s u t false s.dbCnt hu hFilter
  · obtain ⟨l, run, rfl⟩ := flushRun_records _ v flush
    exact bsyFilter_filtered_of_boundary f s u t l run ⟨pending, last, other⟩ hu hFilter
  · exact bsyFilter_filtered_of_window f s u t true s.params.debounceWindow hu hFilter
  · exact bsyFilter_filtered_of_window f s u t s.dbPending s.dbCnt hu hFilter

/-! ### A served frame -/

/-- All that serving a frame can do to a state in RUNNING, before the bookkeeping (R120): nothing; the row that ends one of the first
three phases; or the sub-steps of INFORMATION_TRANSFER. -/
inductive Served (f : Frame) (s : State) : State → Prop
  | ignored : Served f s s
  | busFreeEnd (hPhase : s.phase = .busFree) (hValid : s.prevValid = true) :
    Served f s
      { s with
        out := s.out ++ [recordNow s s.phaseStart (.phase .busFree)], phase := .arbitration, phaseStart := s.samplenum }
  | arbitrationEnd (hPhase : s.phase = .arbitration) (hValid : s.prevValid = true) :
    Served f s
      { s with
        out := s.out ++ [recordNow s s.phaseStart (.phase .arbitration), recordNow s s.phaseStart (.lun f.d)]
        arbPins := f.d, phase := .selection, phaseStart := s.samplenum }
  | selectionEnd (hPhase : s.phase = .selection) (hValid : s.prevValid = true) :
    Served f s
      { s with
        out := s.out ++ [recordNow s s.phaseStart (.phase .selection), recordNow s s.phaseStart (.lun s.arbPins)]
        phase := .informationTransfer, phaseStart := s.samplenum, subphase := f.code, runStart := s.samplenum, byteCount := 0
        byteRunStart := s.samplenum, latchValid := false, dbPending := false, dbCnt := 0, bsyHighCnt := 0 }
  | transfer {u t : State} (hPhase : s.phase = .informationTransfer) (hValid : s.prevValid = true) (sampled : Sampled f s u)
    (filtered : Filtered f u t) : Served f s t

theorem phaseStep_served (f : Frame) (s t : State) (hValid : s.prevValid = true) (h : phaseStep f s = .next t) :
    Served f s t := by
  by_cases hPhase : s.phase = .informationTransfer
  · rw [phaseStep_of_transfer f s hPhase] at h
    obtain ⟨u, hAck, h⟩ := (andThen_eq_next _ _ _).1 h
    obtain ⟨v, hDebounce, hFilter⟩ := (andThen_eq_next _ _ _).1 h
    exact .transfer hPhase hValid (handshake_sampled f s u hAck) (debounce_bsyFilter_filtered f u v t hDebounce hFilter)
  · rw [phaseStep_of_not_transfer f s hPhase] at h
    cases decoded : decodePhaseEvent s.phase (eventWord s.prev f) with
    | none =>
      rw [decoded] at h
      obtain rfl := Host.Outcome.next.inj h
      exact .ignored
    | some i =>
      rw [decoded, runEvent] at h
      rcases decodePhaseEvent_eq_some _ _ _ decoded with ⟨hp, rfl⟩ | ⟨hp, rfl⟩ | ⟨hp, rfl⟩
      · obtain rfl := Host.Outcome.next.inj h
        exact .busFreeEnd hp hValid
      · rw [exec_evArbitrationEnd_eq, eventWord_current] at h
        obtain rfl := Host.Outcome.next.inj h
        exact .arbitrationEnd hp hValid
      · rw [exec_evSelectionEnd_eq, eventWord_current] at h
        obtain rfl := Host.Outcome.next.inj h
        exact .selectionEnd hp hValid

theorem runningStep_served (f : Frame) (s t : State) (h : runningStep f s = .next t) :
    ∃ u, Served f s u ∧ t = u.endFrame f := by
  cases hValid : s.prevValid with
  | false =>
    rw [runningStep_of_not_prevValid f s hValid] at h
    exact ⟨s, .ignored, (Host.Outcome.next.inj h).symm⟩
  | true =>
    rw [runningStep_of_prevValid f s hValid] at h
    obtain ⟨u, hPhase, h⟩ := (andThen_eq_next _ _ _).1 h
    exact ⟨u, phaseStep_served f s u hValid hPhase, (Host.Outcome.next.inj h).symm⟩

/-! ### A step -/

/-- All that a step can answer, by the stimulus it takes and the run state (60_exceptions.md R221 to R223). -/
inductive StepOutcome (s : State) : State → Prop
  | hold (hInput : s.input = []) : StepOutcome s s.clearPorts
  | reset (rest : List Stimulus) (hInput : s.input = .rst :: rest) : StepOutcome s (resetBlock { s with input := rest })
  | writeCfg (c : Cfg) (rest : List Stimulus) (hInput : s.input = .writeCfg c :: rest) :
    StepOutcome s ((beginStep s rest).writeCfg c)
  | error (f : Frame) (rest : List Stimulus) (hInput : s.input = .frame f :: rest) (hRun : s.runState = .idle) :
    StepOutcome s (raiseConfigurationError (beginStep s rest)).skipFrame
  | skip (f : Frame) (rest : List Stimulus) (hInput : s.input = .frame f :: rest) (hRun : s.runState = .halted) :
    StepOutcome s (beginStep s rest).skipFrame
  | serve (f : Frame) (rest : List Stimulus) (u : State) (hInput : s.input = .frame f :: rest) (hRun : s.runState ≠ .halted)
    (served : Served f (beginRunning s rest) u) : StepOutcome s (u.endFrame f)

theorem step_outcome (s t : State) (h : step s = .next t) : StepOutcome s t := by
  rcases step_cases s t h with ⟨hInput, rfl⟩ | ⟨rest, hInput, rfl⟩ | ⟨c, rest, hInput, rfl⟩ | ⟨f, rest, hInput, frame⟩
  · exact .hold hInput
  · exact .reset rest hInput
  · exact .writeCfg c rest hInput
  · have serve (hStart : s.runState = .running ∨ (s.runState = .idle ∧ s.cfg.srValid = true)) : StepOutcome s t := by
      rw [step_of_served s f rest hInput hStart] at h
      obtain ⟨u, served, rfl⟩ := runningStep_served f _ t h
      refine .serve f rest u hInput (fun halted => ?_) served
      rw [halted] at hStart
      rcases hStart with hRun | ⟨hRun, -⟩ <;> cases hRun
    rcases frameStep_cases f _ t frame with ⟨hRun, hCfg, -⟩ | ⟨hRun, -, rfl⟩ | ⟨hRun, -⟩ | ⟨hRun, rfl⟩
    · exact serve (.inr ⟨hRun, hCfg⟩)
    · exact .error f rest hInput hRun
    · exact serve (.inl hRun)
    · exact .skip f rest hInput hRun

/-! ### What a step leaves unchanged -/

theorem Sampled.frame {f : Frame} {s t : State} (h : Sampled f s t) :
    t = { s with
      dataLatch := t.dataLatch, latchValid := t.latchValid, cdb := t.cdb, cdbLen := t.cdbLen, cdbOverflow := t.cdbOverflow
      cmdClass := t.cmdClass, out := t.out, byteCount := t.byteCount, byteRunStart := t.byteRunStart } := by
  cases h with
  | latch d valid => rfl
  | byte latched high low => rw [finaliseByte_eq, s.storeByte_frame]

/-- Serving a frame leaves the run state, the previous frame, the sample number and what the outside owns. -/
structure Served.Keeps (s t : State) : Prop where
  runState : t.runState = s.runState
  errCfg : t.errCfg = s.errCfg
  samplenum : t.samplenum = s.samplenum
  prev : t.prev = s.prev
  prevValid : t.prevValid = s.prevValid
  cfg : t.cfg = s.cfg
  params : t.params = s.params
  input : t.input = s.input

theorem Sampled.keeps {f : Frame} {s t : State} (h : Sampled f s t) : Served.Keeps s t := by
  rw [h.frame]
  exact ⟨rfl, rfl, rfl, rfl, rfl, rfl, rfl, rfl⟩

theorem Filtered.keeps {f : Frame} {s t : State} (h : Filtered f s t) : Served.Keeps s t := by
  cases h <;> exact ⟨rfl, rfl, rfl, rfl, rfl, rfl, rfl, rfl⟩

theorem Served.Keeps.trans {s t u : State} (hst : Served.Keeps s t) (htu : Served.Keeps t u) : Served.Keeps s u where
  runState := htu.runState.trans hst.runState
  errCfg := htu.errCfg.trans hst.errCfg
  samplenum := htu.samplenum.trans hst.samplenum
  prev := htu.prev.trans hst.prev
  prevValid := htu.prevValid.trans hst.prevValid
  cfg := htu.cfg.trans hst.cfg
  params := htu.params.trans hst.params
  input := htu.input.trans hst.input

theorem Served.keeps {f : Frame} {s t : State} (h : Served f s t) : Served.Keeps s t := by
  cases h
  case transfer sampled filtered => exact sampled.keeps.trans filtered.keeps
  all_goals exact ⟨rfl, rfl, rfl, rfl, rfl, rfl, rfl, rfl⟩

/-- Settles O46, by cases on the stimulus. -/
theorem sampleNumberCountsFramesAndHostOwnsCfg : Obligations.SampleNumberCountsFramesAndHostOwnsCfg := by
  intro s t _ h
  cases step_outcome s t h with
  | hold hInput => rw [hInput]; exact ⟨rfl, rfl, rfl, hInput⟩
  | reset rest hInput => rw [hInput]; exact ⟨rfl, rfl, rfl, rfl⟩
  | writeCfg c rest hInput => rw [hInput]; exact ⟨rfl, rfl, rfl, rfl⟩
  | error f rest hInput _ => rw [hInput]; exact ⟨rfl, rfl, rfl, rfl⟩
  | skip f rest hInput _ => rw [hInput]; exact ⟨rfl, rfl, rfl, rfl⟩
  | serve f rest u hInput _ served =>
    rw [hInput]
    exact ⟨served.keeps.params, congrArg (· + 1) served.keeps.samplenum, served.keeps.cfg, served.keeps.input⟩

/-! ### The committed code -/

theorem Filtered.subphase {f : Frame} {s t : State} (h : Filtered f s t) :
    t.subphase = s.subphase ∨
    (s.dbPending = true ∧ s.dbCnt ≤ 1 ∧ t.subphase = f.code ∧ t.runStart = s.samplenum ∧ t.byteCount = 0 ∧
      t.dbPending = false) := by
  cases h with
  | goesOn => exact .inl rfl
  | newRun high l run expired => exact .inr ⟨expired.1, expired.2.1, rfl, rfl, rfl, rfl⟩
  | exit => exact .inl rfl
  | newRunExit l run expired => exact .inr ⟨expired.1, expired.2.1, rfl, rfl, rfl, rfl⟩

/-- Settles O28: among all that a step can do, only the entry, a boundary and reset write the code. -/
theorem subphaseChangesOnlyAtEntryOrBoundary : Obligations.SubphaseChangesOnlyAtEntryOrBoundary := by
  intro s t _ h changed
  cases step_outcome s t h with
  | hold => exact absurd rfl changed
  | reset rest hInput => exact .inl ⟨rest, hInput⟩
  | writeCfg => exact absurd rfl changed
  | error => exact absurd rfl changed
  | skip => exact absurd rfl changed
  | serve f rest u hInput _ served =>
    refine .inr ⟨f, rest, hInput, ?_⟩
    cases served with
    | ignored => exact absurd rfl changed
    | busFreeEnd => exact absurd rfl changed
    | arbitrationEnd => exact absurd rfl changed
    | selectionEnd hPhase => exact ⟨rfl, rfl, rfl, .inl ⟨hPhase, rfl⟩⟩
    | @transfer v _ hPhase _ sampled filtered =>
      have frame := sampled.frame
      have hCode : v.subphase = s.subphase := (congrArg State.subphase frame :)
      have hPending : v.dbPending = s.dbPending := (congrArg State.dbPending frame :)
      have hLeft : v.dbCnt = s.dbCnt := (congrArg State.dbCnt frame :)
      have hSample : v.samplenum = s.samplenum := (congrArg State.samplenum frame :)
      rcases filtered.subphase with kept | ⟨pending, last, new, start, empty, closed⟩
      · exact absurd (kept.trans hCode) changed
      · exact ⟨new, start.trans hSample, empty, .inr ⟨hPhase, hPending ▸ pending, hLeft ▸ last, closed⟩⟩

end Sys2Proof.Machine
end

section
/-! PROOFS. The records of a step and of a run (30_encoding.md section 3; 95_test_vectors.md T1, Q1, Q2, Q5, Q6): each closes the
open interval of its category. The invariant of the open intervals, and the order of the records over a run. -/

namespace Sys2Proof.Machine

/-! ### The category of a record -/

@[simp] theorem Record.cat_mk (ss es : Nat) (p : Payload) : (⟨ss, es, p⟩ : Record).cat = p.cat := rfl
@[simp] theorem recordNow_cat (s : State) (ss : Nat) (p : Payload) : (recordNow s ss p).cat = p.cat := rfl
@[simp] theorem Payload.cat_phase (p : Phase) : (Payload.phase p).cat = 0 := rfl
@[simp] theorem Payload.cat_lun (pins : Byte) : (Payload.lun pins).cat = 1 := rfl
@[simp] theorem Payload.cat_subphase (c : Code) (n : Nat) : (Payload.subphase c n).cat = 2 := rfl
@[simp] theorem Payload.cat_cmd (info : CmdInfo) : (Payload.cmd info).cat = 3 := rfl
@[simp] theorem Payload.cat_byteIndex (k : Nat) : (Payload.byteIndex k).cat = 6 := rfl

/-! ### The open interval of a category -/

theorem State.openStart_of_le_one (s : State) {cat : Nat} (h : cat ≤ 1) : s.openStart cat = s.phaseStart := by
  simp [State.openStart, h]

theorem State.openStart_of_not_transfer (s : State) (hPhase : s.phase ≠ .informationTransfer) (cat : Nat) :
    s.openStart cat = s.phaseStart := if_neg hPhase

theorem State.openStart_of_run (s : State) (hPhase : s.phase = .informationTransfer) {cat : Nat} (h : 2 ≤ cat ∧ cat ≤ 3) :
    s.openStart cat = s.runStart := by
  rw [State.openStart, if_pos hPhase, if_neg (by omega), if_pos h.2]

theorem State.openStart_of_byte (s : State) (hPhase : s.phase = .informationTransfer) {cat : Nat} (h : 4 ≤ cat) :
    s.openStart cat = s.byteRunStart := by
  rw [State.openStart, if_pos hPhase, if_neg (by omega), if_neg (by omega)]

/-- Every open interval begins at one of the three starts. -/
theorem State.openStart_cases (s : State) (cat : Nat) :
    s.openStart cat = s.phaseStart ∨
    (s.phase = .informationTransfer ∧ (s.openStart cat = s.runStart ∨ s.openStart cat = s.byteRunStart)) := by
  unfold State.openStart
  split_ifs <;> simp_all

/-- The open intervals are a function of the phase and of the starts. -/
theorem State.openStart_congr {s t : State} {cat : Nat} (phase : t.phase = s.phase) (phaseStart : t.phaseStart = s.phaseStart)
    (run : 2 ≤ cat → cat ≤ 3 → t.runStart = s.runStart) (byte : 4 ≤ cat → t.byteRunStart = s.byteRunStart) :
    t.openStart cat = s.openStart cat := by
  unfold State.openStart
  rw [phase, phaseStart]
  split_ifs with _ hPhase hRun
  · rfl
  · exact run (by omega) hRun
  · exact byte (by omega)
  · rfl

theorem Payload.four_le_cat_byte (s : State) (b : Byte) : 4 ≤ (bytePayload s b).cat ∧ (bytePayload s b).cat ≠ 6 := by
  by_cases hCode : s.subphase = commandCode
  · rw [bytePayload_of_command s b hCode, Payload.cat]
    omega
  · rw [bytePayload_of_not_command s b hCode]
    cases s.subphase.getLsbD 0 <;> simp [Payload.cat]

theorem RunRecords.record {code : Code} {bytes start now : Nat} {l : List Record} (h : RunRecords code bytes start now l) :
    ∀ r ∈ l, r.ss = start ∧ r.es = now ∧ 2 ≤ r.cat ∧ r.cat ≤ 3 := by
  cases h <;> simp

theorem RunRecords.distinct {code : Code} {bytes start now : Nat} {l : List Record} (h : RunRecords code bytes start now l) :
    l.Pairwise fun r q => r.cat ≠ q.cat := by
  cases h <;> simp

theorem RunRecords.length_le {code : Code} {bytes start now : Nat} {l : List Record} (h : RunRecords code bytes start now l) :
    l.length ≤ 2 := by
  cases h <;> simp

/-! ### Records that close the open intervals -/

/-- From `s` to `t`, at one sample, the records `l` are emitted. Each closes the open interval of its category, and the next interval
of the category begins at the sample; no category has two records; a phase that ends closes every interval. -/
structure Closes (s t : State) (l : List Record) : Prop where
  out : t.out = s.out ++ l
  samplenum : t.samplenum = s.samplenum
  record : ∀ r ∈ l, r.ss = s.openStart r.cat ∧ r.es = s.samplenum ∧ t.openStart r.cat = s.samplenum
  distinct : l.Pairwise fun r q => r.cat ≠ q.cat
  openStart : ∀ cat, t.openStart cat = s.openStart cat ∨ t.openStart cat = s.samplenum
  phase : t.phaseStart = s.phaseStart ∨ ∀ cat, t.openStart cat = s.samplenum

/-- Records of other categories, whose intervals the first part left open. -/
theorem Closes.trans {s u t : State} {l m : List Record} (hsu : Closes s u l) (hut : Closes u t m)
    (other : ∀ q ∈ m, u.openStart q.cat = s.openStart q.cat ∧ ∀ r ∈ l, r.cat ≠ q.cat) : Closes s t (l ++ m) where
  out := by rw [hut.out, hsu.out, List.append_assoc]
  samplenum := hut.samplenum.trans hsu.samplenum
  record := by
    have sample := hsu.samplenum
    refine List.forall_mem_append.2 ⟨fun r hr => ?_, fun q hq => ?_⟩
    · obtain ⟨hss, hes, next⟩ := hsu.record r hr
      refine ⟨hss, hes, ?_⟩
      rcases hut.openStart r.cat with kept | moved
      · exact kept.trans next
      · exact moved.trans sample
    · obtain ⟨hss, hes, next⟩ := hut.record q hq
      exact ⟨hss.trans (other q hq).1, hes.trans sample, next.trans sample⟩
  distinct := List.pairwise_append.2 ⟨hsu.distinct, hut.distinct, fun r hr q hq => (other q hq).2 r hr⟩
  openStart := fun cat => by
    rcases hut.openStart cat with kept | moved
    · rw [kept]
      exact hsu.openStart cat
    · exact .inr (moved.trans hsu.samplenum)
  phase := by
    rcases hut.phase with kept | all
    · rcases hsu.phase with kept' | all
      · exact .inl (kept.trans kept')
      · refine .inr fun cat => ?_
        rcases hut.openStart cat with same | moved
        · exact same.trans (all cat)
        · exact moved.trans hsu.samplenum
    · exact .inr fun cat => (all cat).trans hsu.samplenum

/-- Nothing is emitted, and no start is written. -/
theorem Closes.nil {s t : State} (out : t.out = s.out) (samplenum : t.samplenum = s.samplenum)
    (openStart : ∀ cat, t.openStart cat = s.openStart cat) (phaseStart : t.phaseStart = s.phaseStart) : Closes s t [] where
  out := by rw [out, List.append_nil]
  samplenum := samplenum
  record := List.forall_mem_nil _
  distinct := .nil
  openStart := fun cat => .inl (openStart cat)
  phase := .inl phaseStart

/-- A phase ends with records of phase or LUN, which begin where the phase began (D7). -/
theorem Closes.phaseEnd {s t : State} {l : List Record} (out : t.out = s.out ++ l) (samplenum : t.samplenum = s.samplenum)
    (record : ∀ r ∈ l, r.ss = s.phaseStart ∧ r.es = s.samplenum ∧ r.cat ≤ 1)
    (distinct : l.Pairwise fun r q => r.cat ≠ q.cat) (all : ∀ cat, t.openStart cat = s.samplenum) : Closes s t l where
  out := out
  samplenum := samplenum
  record := fun r hr => by
    obtain ⟨hss, hes, hcat⟩ := record r hr
    exact ⟨hss.trans (s.openStart_of_le_one hcat).symm, hes, all _⟩
  distinct := distinct
  openStart := fun cat => .inr (all cat)
  phase := .inr all

/-! ### The sub-steps of INFORMATION_TRANSFER -/

theorem byteRecords_record (s : State) : ∀ r ∈ byteRecords s, r.ss = s.byteRunStart ∧ r.es = s.samplenum ∧ 4 ≤ r.cat := by
  obtain ⟨byte, -⟩ := Payload.four_le_cat_byte s.storeByte s.dataLatch
  intro r hr
  rcases List.mem_pair.1 hr with rfl | rfl
  · exact ⟨rfl, rfl, byte⟩
  · exact ⟨rfl, rfl, by simp⟩

theorem byteRecords_distinct (s : State) : (byteRecords s).Pairwise fun r q => r.cat ≠ q.cat := by
  simpa [byteRecords] using (Payload.four_le_cat_byte s.storeByte s.dataLatch).2

/-- The sampler emits the records of one byte or none; only the interval of the bytes is closed. -/
theorem Sampled.closes {f : Frame} {s t : State} (h : Sampled f s t) (hPhase : s.phase = .informationTransfer) :
    ∃ l, (l = [] ∨ l = byteRecords s) ∧ Closes s t l ∧ ∀ cat, cat ≤ 3 → t.openStart cat = s.openStart cat := by
  cases h with
  | latch d valid => exact ⟨[], .inl rfl, .nil rfl rfl (fun _ => rfl) rfl, fun _ _ => rfl⟩
  | byte latched high low =>
    have kept := finaliseByte_keepsPhase s
    have hPhase' : (finaliseByte s).phase = .informationTransfer := kept.phase.trans hPhase
    have others : ∀ cat, cat ≤ 3 → (finaliseByte s).openStart cat = s.openStart cat := fun cat hcat =>
      State.openStart_congr kept.phase kept.phaseStart (fun _ _ => finaliseByte_runStart s) (by omega)
    have next : ∀ cat, 4 ≤ cat → (finaliseByte s).openStart cat = s.samplenum := fun cat hcat =>
      (State.openStart_of_byte _ hPhase' hcat).trans (finaliseByte_byteRunStart s)
    refine ⟨byteRecords s, .inr rfl,
      ⟨finaliseByte_out s, kept.samplenum, fun r hr => ?record, byteRecords_distinct s, fun cat => ?openStart,
        .inl kept.phaseStart⟩, others⟩
    case record =>
      obtain ⟨hss, hes, hcat⟩ := byteRecords_record s r hr
      exact ⟨hss.trans (s.openStart_of_byte hPhase hcat).symm, hes, next _ hcat⟩
    case openStart => exact (Nat.lt_or_ge cat 4).imp (fun h => others cat (by omega)) (next cat)

/-- The flush of a run closes the interval of the runs. -/
theorem RunRecords.closes {s t : State} {l : List Record} (run : s.RunRecords l) (hPhase : s.phase = .informationTransfer)
    (out : t.out = s.out ++ l) (samplenum : t.samplenum = s.samplenum) (phase : t.phase = s.phase)
    (phaseStart : t.phaseStart = s.phaseStart) (runStart : t.runStart = s.samplenum)
    (byteRunStart : t.byteRunStart = s.byteRunStart) : Closes s t l where
  out := out
  samplenum := samplenum
  record := fun r hr => by
    obtain ⟨hss, hes, hcat⟩ := run.record r hr
    exact ⟨hss.trans (s.openStart_of_run hPhase hcat).symm, hes,
      (t.openStart_of_run (phase.trans hPhase) hcat).trans runStart⟩
  distinct := run.distinct
  openStart := fun cat => by
    by_cases hcat : 2 ≤ cat ∧ cat ≤ 3
    · exact .inr ((t.openStart_of_run (phase.trans hPhase) hcat).trans runStart)
    · exact .inl (State.openStart_congr phase phaseStart (fun low high => absurd ⟨low, high⟩ hcat) fun _ => byteRunStart)
  phase := .inl phaseStart

/-- The record of INFORMATION_TRANSFER follows the records of its last run. -/
theorem RunRecords.closes_exit {s t : State} {l : List Record} (run : s.RunRecords l)
    (hPhase : s.phase = .informationTransfer)
    (out : t.out = s.out ++ (l ++ [recordNow s s.phaseStart (.phase .informationTransfer)]))
    (samplenum : t.samplenum = s.samplenum) (phase : t.phase = .busFree) (phaseStart : t.phaseStart = s.samplenum) :
    Closes s t (l ++ [recordNow s s.phaseStart (.phase .informationTransfer)]) := by
  have all : ∀ cat, t.openStart cat = s.samplenum := fun cat =>
    (t.openStart_of_not_transfer (by simp [phase]) cat).trans phaseStart
  refine ⟨out, samplenum, List.forall_mem_append.2 ⟨fun r hr => ?run, List.forall_mem_singleton.2 ?phase⟩,
    List.pairwise_append.2 ⟨run.distinct, List.pairwise_singleton _ _, fun r hr q hq => ?distinct⟩,
    fun cat => .inr (all cat), .inr all⟩
  case run =>
    obtain ⟨hss, hes, hcat⟩ := run.record r hr
    exact ⟨hss.trans (s.openStart_of_run hPhase hcat).symm, hes, all _⟩
  case phase => exact ⟨(s.openStart_of_le_one (by simp)).symm, rfl, all _⟩
  case distinct =>
    obtain ⟨-, -, low, -⟩ := run.record r hr
    rw [List.mem_singleton.1 hq]
    exact Nat.ne_of_gt (Nat.lt_of_lt_of_le (by decide : (0 : Nat) < 2) low)

/-- The filters emit the records of a run or none, and then that of the phase or none. -/
theorem Filtered.closes {f : Frame} {s t : State} (h : Filtered f s t) (hPhase : s.phase = .informationTransfer) :
    ∃ l e, (l = [] ∨ s.RunRecords l) ∧ (e = [] ∨ e = [recordNow s s.phaseStart (.phase .informationTransfer)]) ∧
      Closes s t (l ++ e) := by
  cases h with
  | goesOn pending left high => exact ⟨[], [], .inl rfl, .inl rfl, .nil rfl rfl (fun _ => rfl) rfl⟩
  | newRun high l run expired =>
    exact ⟨l, [], .inr run, .inl rfl, (List.append_nil l).symm ▸ run.closes hPhase rfl rfl rfl rfl rfl rfl⟩
  | exit l run => exact ⟨l, _, .inr run, .inr rfl, run.closes_exit hPhase rfl rfl rfl rfl⟩
  | newRunExit l run expired => exact ⟨l, _, .inr run, .inr rfl, run.closes_exit hPhase rfl rfl rfl rfl⟩

/-! ### A served frame -/

/-- The records of one step (60_exceptions.md R229): those that end one of the first three phases; or in INFORMATION_TRANSFER those of a
byte, of a run and of the phase, in this order. -/
inductive StepRecords (s : State) : List Record → Prop
  | phases (l : List Record) (length : l.length ≤ 2) (cat : ∀ r ∈ l, r.cat ≤ 1) : StepRecords s l
  | transfer (b l e : List Record) (byte : b = [] ∨ b = byteRecords s)
    (run : l = [] ∨ ∃ bytes, RunRecords s.subphase bytes s.runStart s.samplenum l)
    (exit : e = [] ∨ e = [recordNow s s.phaseStart (.phase .informationTransfer)]) : StepRecords s (b ++ (l ++ e))

/-- The two records that end ARBITRATION or SELECTION. -/
theorem Closes.phaseAndLun {s t : State} {p : Phase} {pins : Byte}
    (out : t.out = s.out ++ [recordNow s s.phaseStart (.phase p), recordNow s s.phaseStart (.lun pins)])
    (samplenum : t.samplenum = s.samplenum) (all : ∀ cat, t.openStart cat = s.samplenum) :
    Closes s t [recordNow s s.phaseStart (.phase p), recordNow s s.phaseStart (.lun pins)] := by
  refine .phaseEnd out samplenum (fun r hr => ?_) ?_ all
  · rcases List.mem_pair.1 hr with rfl | rfl <;> exact ⟨rfl, rfl, by simp⟩
  · simp

theorem Served.closes {f : Frame} {s t : State} (h : Served f s t) :
    ∃ l, StepRecords s l ∧ Closes s t l ∧ (l ≠ [] → s.prevValid = true) := by
  cases h with
  | ignored => exact ⟨[], .phases [] (by simp) (by simp), .nil rfl rfl (fun _ => rfl) rfl, fun some => absurd rfl some⟩
  | busFreeEnd hPhase hValid =>
    exact ⟨_, .phases _ (by simp) (by simp),
      .phaseEnd rfl rfl (List.forall_mem_singleton.2 ⟨rfl, rfl, by simp⟩) (List.pairwise_singleton _ _) fun _ => rfl,
      fun _ => hValid⟩
  | arbitrationEnd hPhase hValid =>
    exact ⟨_, .phases _ (by simp) (by simp),
      .phaseAndLun rfl rfl fun _ => rfl, fun _ => hValid⟩
  | selectionEnd hPhase hValid =>
    refine ⟨_, .phases _ (by simp) (by simp),
      .phaseAndLun rfl rfl fun cat => ?_, fun _ => hValid⟩
    rcases State.openStart_cases _ cat with h | ⟨-, h | h⟩ <;> exact h
  | @transfer u _ hPhase hValid sampled filtered =>
    obtain ⟨b, hb, sampledCloses, others⟩ := sampled.closes hPhase
    have frame := sampled.frame
    have uPhase : u.phase = .informationTransfer := (congrArg State.phase frame :).trans hPhase
    obtain ⟨l, e, hl, he, filteredCloses⟩ := filtered.closes uPhase
    have hCode : u.subphase = s.subphase := (congrArg State.subphase frame :)
    have hRunStart : u.runStart = s.runStart := (congrArg State.runStart frame :)
    have hPhaseStart : u.phaseStart = s.phaseStart := (congrArg State.phaseStart frame :)
    have hSample : u.samplenum = s.samplenum := sampledCloses.samplenum
    have low : ∀ q ∈ l ++ e, q.cat ≤ 3 := by
      refine List.forall_mem_append.2 ⟨fun q hq => ?_, fun q hq => ?_⟩
      · rcases hl with rfl | run
        · cases hq
        · exact (run.record q hq).2.2.2
      · rcases he with rfl | rfl
        · cases hq
        · rw [List.mem_singleton.1 hq]; simp
    have high : ∀ r ∈ b, 4 ≤ r.cat := fun r hr => by
      rcases hb with rfl | rfl
      · cases hr
      · exact (byteRecords_record s r hr).2.2
    refine ⟨b ++ (l ++ e), .transfer b l e hb ?run ?exit,
      sampledCloses.trans filteredCloses fun q hq => ⟨others _ (low q hq), fun r hr => ?distinct⟩, fun _ => hValid⟩
    case run => exact hl.imp_right fun run => ⟨u.byteCount, hCode ▸ hRunStart ▸ hSample ▸ run⟩
    case exit =>
      have hRecord : recordNow u u.phaseStart (.phase .informationTransfer) =
          recordNow s s.phaseStart (.phase .informationTransfer) := by rw [recordNow, recordNow, hPhaseStart, hSample]
      exact hRecord ▸ he
    case distinct =>
      have := low q hq
      have := high r hr
      omega

end Sys2Proof.Machine
end

section
/-! PROOFS. What the records of a step have in common (30_encoding.md section 3; 95_test_vectors.md T1, Q1, Q2, Q5, Q6), and their
order over a run. -/

namespace Sys2Proof.Machine

/-! ### The open intervals -/

/-- The invariant of the open intervals says that none begins before the phase or after the current sample; once a frame is held, each
began earlier. -/
theorem State.openIntervals.openStart {s : State} (h : s.openIntervals) (cat : Nat) :
    s.phaseStart ≤ s.openStart cat ∧ s.openStart cat ≤ s.samplenum ∧ (s.prevValid = true → s.openStart cat < s.samplenum) := by
  obtain ⟨hPhase, hHeld, hTransfer⟩ := h
  rcases s.openStart_cases cat with hs | ⟨transfer, hs⟩
  · rw [hs]
    exact ⟨le_rfl, hPhase, hHeld⟩
  · obtain ⟨run, run', byte, byte'⟩ := hTransfer transfer
    rcases hs with hs | hs <;> rw [hs]
    · exact ⟨run, run'.le, fun _ => run'⟩
    · exact ⟨byte, byte'.le, fun _ => byte'⟩

/-- After a served frame the intervals began no later than its sample, which then is in the past. -/
theorem openIntervals_endFrame {s u : State} {l : List Record} (closes : Closes s u l) (hs : s.openIntervals) (f : Frame) :
    (u.endFrame f).openIntervals := by
  have past : ∀ cat, u.openStart cat ≤ s.samplenum := fun cat =>
    (closes.openStart cat).elim (fun kept => kept ▸ (hs.openStart cat).2.1) fun moved => moved.le
  have order : ∀ cat, u.phaseStart ≤ u.openStart cat := fun cat => by
    rcases closes.phase with kept | all
    · rcases closes.openStart cat with kept' | moved
      · rw [kept, kept']; exact (hs.openStart cat).1
      · rw [kept, moved]; exact hs.1
    · rw [← u.openStart_of_le_one (Nat.zero_le 1), all, all]
  have phasePast : u.phaseStart ≤ s.samplenum := (order 0).trans (past 0)
  have hSample : (u.endFrame f).samplenum = s.samplenum + 1 := congrArg (· + 1) closes.samplenum
  refine ⟨?_, fun _ => ?_, fun transfer => ?_⟩
  · rw [hSample]; exact Nat.le_succ_of_le phasePast
  · rw [hSample]; exact Nat.lt_succ_of_le phasePast
  · have run := u.openStart_of_run transfer (cat := 2) (by decide)
    have byte := u.openStart_of_byte transfer (cat := 4) (by decide)
    rw [hSample]
    exact ⟨run ▸ order 2, Nat.lt_succ_of_le (run ▸ past 2), byte ▸ order 4, Nat.lt_succ_of_le (byte ▸ past 4)⟩

/-- One more sample, or a CFG write, leaves the open intervals where they are. -/
theorem State.openIntervals.mono {s t : State} (hs : s.openIntervals) (phase : t.phase = s.phase)
    (phaseStart : t.phaseStart = s.phaseStart) (runStart : t.runStart = s.runStart) (byteRunStart : t.byteRunStart = s.byteRunStart)
    (prevValid : t.prevValid = s.prevValid) (later : s.samplenum ≤ t.samplenum) : t.openIntervals := by
  obtain ⟨hPhase, hHeld, hTransfer⟩ := hs
  unfold State.openIntervals
  rw [phase, phaseStart, runStart, byteRunStart, prevValid]
  refine ⟨hPhase.trans later, fun held => (hHeld held).trans_le later, fun transfer => ?_⟩
  obtain ⟨run, run', byte, byte'⟩ := hTransfer transfer
  exact ⟨run, run'.trans_le later, byte, byte'.trans_le later⟩

theorem openIntervals_reset (s : State) : (resetBlock s).openIntervals :=
  ⟨le_rfl, fun held => absurd held Bool.false_ne_true, fun transfer => Phase.noConfusion transfer⟩

/-- A step without a reset, at sample `n`: it serves a frame, or it emits nothing and writes neither the phase nor a start. -/
theorem step_closes (s t : State) (h : step s = .next t) (noReset : ∀ rest, s.input ≠ .rst :: rest) :
    (∃ f rest u, t = u.endFrame f ∧ StepRecords (beginRunning s rest) t.out ∧ Closes (beginRunning s rest) u t.out ∧
      (t.out ≠ [] → s.prevValid = true)) ∨
    (t.out = [] ∧ t.phase = s.phase ∧ t.phaseStart = s.phaseStart ∧ t.runStart = s.runStart ∧
      t.byteRunStart = s.byteRunStart ∧ t.prevValid = s.prevValid ∧ s.samplenum ≤ t.samplenum) := by
  cases step_outcome s t h with
  | hold => exact .inr ⟨rfl, rfl, rfl, rfl, rfl, rfl, le_rfl⟩
  | reset rest hInput => exact absurd hInput (noReset rest)
  | writeCfg => exact .inr ⟨rfl, rfl, rfl, rfl, rfl, rfl, le_rfl⟩
  | error => exact .inr ⟨rfl, rfl, rfl, rfl, rfl, rfl, Nat.le_succ _⟩
  | skip => exact .inr ⟨rfl, rfl, rfl, rfl, rfl, rfl, Nat.le_succ _⟩
  | serve f rest u _ _ served =>
    obtain ⟨l, records, closes, held⟩ := served.closes
    obtain rfl : (u.endFrame f).out = l := closes.out
    exact .inl ⟨f, rest, u, rfl, records, closes, held⟩

/-- The open intervals are kept by every step. -/
theorem step_openIntervals (s t : State) (hs : s.openIntervals) (h : step s = .next t) : t.openIntervals := by
  by_cases reset : ∃ rest, s.input = .rst :: rest
  · obtain ⟨rest, hInput⟩ := reset
    rw [step_of_rst s rest hInput] at h
    exact Host.Outcome.next.inj h ▸ openIntervals_reset _
  · rcases step_closes s t h (not_exists.1 reset) with
      ⟨f, rest, u, rfl, -, closes, -⟩ | ⟨-, phase, phaseStart, runStart, byteRunStart, prevValid, later⟩
    · exact openIntervals_endFrame closes hs f
    · exact hs.mono phase phaseStart runStart byteRunStart prevValid later

/-- Each record of a step without a reset begins where the open interval of its category began and ends at the sample of the step. -/
theorem step_record (s t : State) (h : step s = .next t) (noReset : ∀ rest, s.input ≠ .rst :: rest) (r : Record)
    (hr : r ∈ t.out) :
    r.ss = s.openStart r.cat ∧ r.es = s.samplenum ∧ t.openStart r.cat = s.samplenum ∧ s.prevValid = true := by
  rcases step_closes s t h noReset with ⟨f, rest, u, rfl, -, closes, held⟩ | ⟨out, -⟩
  · obtain ⟨hss, hes, next⟩ := closes.record r hr
    exact ⟨hss, hes, next, held (List.ne_nil_of_mem hr)⟩
  · rw [out] at hr
    cases hr

/-- Settles O56: what a served frame emits closes open intervals, and every other step emits nothing. -/
theorem recordsCloseTheOpenInterval : Obligations.RecordsCloseTheOpenInterval := by
  refine ⟨fun p c input => openIntervals_reset { State.reset with params := p, cfg := c, input := input },
    fun s t _ hs h => ⟨step_openIntervals s t hs h, fun noReset => ⟨fun r hr => ?record, ?distinct, fun cat => ?later⟩⟩⟩
  case record =>
    obtain ⟨hss, hes, next, held⟩ := step_record s t h noReset r hr
    rw [hss, hes, next]
    exact ⟨rfl, (hs.openStart r.cat).2.2 held, le_rfl⟩
  case distinct =>
    rcases step_closes s t h noReset with ⟨f, rest, u, -, -, closes, -⟩ | ⟨out, -⟩
    · exact closes.distinct
    · exact out ▸ .nil
  case later =>
    rcases step_closes s t h noReset with
      ⟨f, rest, u, rfl, -, closes, -⟩ | ⟨-, phase, phaseStart, runStart, byteRunStart, -⟩
    · rcases closes.openStart cat with kept | moved
      · exact kept.ge
      · exact ((hs.openStart cat).2.1).trans moved.ge
    · exact (State.openStart_congr phase phaseStart (fun _ _ => runStart) fun _ => byteRunStart).ge

/-- Settles O35. A start sample of a state that meets the invariant is not after the current sample. -/
theorem recordsEndAtTheCurrentSample : Obligations.RecordsEndAtTheCurrentSample := by
  intro s t _ inv h r hr
  by_cases reset : ∃ rest, s.input = .rst :: rest
  · obtain ⟨rest, hInput⟩ := reset
    rw [step_of_rst s rest hInput] at h
    obtain rfl := Host.Outcome.next.inj h
    cases hr
  · obtain ⟨hss, hes, -, -⟩ := step_record s t h (not_exists.1 reset) r hr
    obtain ⟨hPhase, hTransfer⟩ := inv.startsOk
    refine ⟨hes, ?_⟩
    rw [hss, hes]
    rcases s.openStart_cases r.cat with start | ⟨transfer, start⟩
    · exact start ▸ hPhase
    · obtain ⟨-, run, -, byte⟩ := hTransfer transfer
      rcases start with start | start
      · exact start ▸ run
      · exact start ▸ byte

/-! ### The order of the records over a run -/

/-- Over any number of steps without a reset: a record of a category begins not before the interval that was open for the category, and
each next one not before the end of the one before. -/
theorem recordsOf_ordered (k : Nat) (s : State) (within : s.runWithinSpec k = true) (hs : s.openIntervals)
    (noReset : Stimulus.rst ∉ s.input) :
    (∀ r ∈ recordsOf k s, s.openStart r.cat ≤ r.ss ∧ r.ss ≤ r.es) ∧
    (recordsOf k s).Pairwise fun r q => r.cat = q.cat → r.ss < q.ss ∧ r.es ≤ q.ss := by
  induction k generalizing s with
  | zero => exact ⟨List.forall_mem_nil _, .nil⟩
  | succ k ih =>
    obtain ⟨stepWithin, runWithin⟩ := (State.runWithinSpec_succ k s).1 within
    rw [recordsOf]
    cases hStep : step s with
    | fault e => exact ⟨List.forall_mem_nil _, .nil⟩
    | refused e => exact ⟨List.forall_mem_nil _, .nil⟩
    | next t =>
      have waiting : Stimulus.rst ∉ t.input := fun waits => noReset (List.mem_of_mem_tail (step_input s t hStep ▸ waits))
      obtain ⟨ht, closes⟩ := recordsCloseTheOpenInterval.2 s t stepWithin hs hStep
      obtain ⟨record, distinct, grows⟩ := closes fun rest hInput => noReset (by simp [hInput])
      obtain ⟨later, ordered⟩ := ih t (runWithin t hStep) ht waiting
      refine ⟨List.forall_mem_append.2 ⟨fun r hr => ?now, fun r hr => ?later⟩,
        List.pairwise_append.2 ⟨distinct.imp fun differ same => absurd same differ, ordered, fun r hr q hq same => ?across⟩⟩
      case now =>
        obtain ⟨hss, hlt, -⟩ := record r hr
        exact ⟨hss.ge, hlt.le⟩
      case later =>
        obtain ⟨hss, hle⟩ := later r hr
        exact ⟨(grows r.cat).trans hss, hle⟩
      case across =>
        obtain ⟨-, hlt, hes⟩ := record r hr
        have next : r.es ≤ q.ss := hes.trans (same ▸ (later q hq).1)
        exact ⟨hlt.trans_le next, next⟩

/-- Settles O37, by induction on the number of steps with the one step of O56. -/
theorem recordsOfOneCategoryNeverOverlap : Obligations.RecordsOfOneCategoryNeverOverlap := by
  intro k p c input _ noReset within records
  obtain ⟨later, ordered⟩ := recordsOf_ordered k _ within (recordsCloseTheOpenInterval.1 p c input) noReset
  exact ⟨fun r hr => (later r hr).2, ordered⟩

/-! ### How many records, and in which order -/

theorem byteRecords_length (s : State) : (byteRecords s).length = 2 := rfl

theorem StepRecords.length_le {s : State} {l : List Record} (h : StepRecords s l) : l.length ≤ 5 := by
  cases h with
  | phases _ length _ => exact length.trans (by decide)
  | transfer b l e byte run exit =>
    have hb : b.length ≤ 2 := by rcases byte with rfl | rfl <;> simp [byteRecords_length]
    have hl : l.length ≤ 2 := by
      rcases run with rfl | ⟨bytes, run⟩
      · simp
      · exact run.length_le
    have he : e.length ≤ 1 := by rcases exit with rfl | rfl <;> simp
    simp only [List.length_append]
    omega

/-- The records of a step are those of a served frame, or there are none. -/
theorem step_records (s t : State) (h : step s = .next t) : t.out = [] ∨ ∃ u, StepRecords u t.out := by
  by_cases reset : ∃ rest, s.input = .rst :: rest
  · obtain ⟨rest, hInput⟩ := reset
    rw [step_of_rst s rest hInput] at h
    exact .inl (Host.Outcome.next.inj h ▸ rfl)
  · rcases step_closes s t h (not_exists.1 reset) with ⟨f, rest, u, -, records, -, -⟩ | ⟨out, -⟩
    · exact .inr ⟨_, records⟩
    · exact .inl out

/-- Settles O36: two of a byte, two of a run, and one of the phase. -/
theorem atMostFiveRecordsPerStep : Obligations.AtMostFiveRecordsPerStep := by
  intro s t _ h
  rcases step_records s t h with out | ⟨u, records⟩
  · simp [out]
  · exact records.length_le

/-- Just before each CMD record of a list stands the SUBPHASE record of a COMMAND run with the same interval. -/
def CommandsFollowRuns (l : List Record) : Prop :=
  ∀ (before after : List Record) (ss es : Nat) (info : CmdInfo), l = before ++ ⟨ss, es, .cmd info⟩ :: after →
    ∃ (start : List Record) (n : Nat), before = start ++ [⟨ss, es, .subphase 5 n⟩]

theorem CommandsFollowRuns.of_no_command {l : List Record} (h : ∀ r ∈ l, r.cat ≠ 3) : CommandsFollowRuns l :=
  fun _ _ ss es info split => absurd rfl (h ⟨ss, es, .cmd info⟩ (split ▸ by simp))

/-- A CMD record of the second list has its SUBPHASE record in the second list. -/
theorem CommandsFollowRuns.append {l m : List Record} (hl : CommandsFollowRuns l) (hm : CommandsFollowRuns m) :
    CommandsFollowRuns (l ++ m) := by
  intro before after ss es info split
  rcases List.append_eq_append_iff.1 split with ⟨mid, hBefore, hm'⟩ | ⟨mid, hl', hAfter⟩
  · obtain ⟨start, n, rfl⟩ := hm mid after ss es info hm'
    exact ⟨l ++ start, n, by rw [hBefore, List.append_assoc]⟩
  · cases mid with
    | nil =>
      obtain ⟨start, n, split'⟩ := hm [] after ss es info hAfter.symm
      simp at split'
    | cons r mid =>
      obtain ⟨rfl, -⟩ := List.cons_eq_cons.1 hAfter
      exact hl before mid ss es info hl'

theorem RunRecords.commandsFollowRuns {code : Code} {bytes start now : Nat} {l : List Record}
    (h : RunRecords code bytes start now l) : CommandsFollowRuns l := by
  cases h with
  | empty => exact .of_no_command (List.forall_mem_nil _)
  | data => exact .of_no_command (by simp)
  | command some hCode info hBytes =>
    subst hCode
    intro before after ss es info' split
    obtain ⟨first, rest⟩ | ⟨tail, rfl, rest⟩ := List.cons_eq_append_iff.1 split
    · simp at rest
    · cases tail with
      | nil =>
        simp only [List.nil_append, List.cons.injEq, Record.mk.injEq] at rest
        obtain ⟨⟨rfl, rfl, -⟩, -⟩ := rest
        exact ⟨[], bytes, rfl⟩
      | cons r tail => simp at rest

theorem RunRecords.one_le_bytes {code : Code} {bytes start now : Nat} {l : List Record}
    (h : RunRecords code bytes start now l) (ss es : Nat) (c : Code) (n : Nat) (hr : (⟨ss, es, .subphase c n⟩ : Record) ∈ l) :
    1 ≤ n := by
  cases h <;> simp_all

theorem StepRecords.commandsFollowRuns {s : State} {l : List Record} (h : StepRecords s l) : CommandsFollowRuns l := by
  cases h with
  | phases _ _ cat => exact .of_no_command fun r hr => by have := cat r hr; omega
  | transfer b l e byte run exit =>
    refine .append ?byte (.append ?run ?exit)
    case byte =>
      rcases byte with rfl | rfl
      · exact .of_no_command (List.forall_mem_nil _)
      · exact .of_no_command fun r hr => by have := (byteRecords_record s r hr).2.2; omega
    case run =>
      rcases run with rfl | ⟨bytes, run⟩
      · exact .of_no_command (List.forall_mem_nil _)
      · exact run.commandsFollowRuns
    case exit => rcases exit with rfl | rfl <;> exact .of_no_command (by simp)

theorem StepRecords.one_le_bytes {s : State} {l : List Record} (h : StepRecords s l) (ss es : Nat) (c : Code) (n : Nat)
    (hr : (⟨ss, es, .subphase c n⟩ : Record) ∈ l) : 1 ≤ n := by
  cases h with
  | phases _ _ cat => exact absurd (cat _ hr) (by simp)
  | transfer b l e byte run exit =>
    rcases List.mem_append.1 hr with hb | hr
    · rcases byte with rfl | rfl
      · cases hb
      · exact absurd (byteRecords_record s _ hb).2.2 (by simp)
    · rcases List.mem_append.1 hr with hl | he
      · rcases run with rfl | ⟨bytes, run⟩
        · cases hl
        · exact run.one_le_bytes ss es c n hl
      · rcases exit with rfl | rfl <;> simp [recordNow] at he

/-- Settles O38. The two records of a COMMAND run are emitted together, by one flush. -/
theorem commandRecordFollowsItsRunRecord : Obligations.CommandRecordFollowsItsRunRecord := by
  intro s t _ h
  rcases step_records s t h with out | ⟨u, records⟩
  · rw [out]
    exact ⟨CommandsFollowRuns.of_no_command (List.forall_mem_nil _), fun ss es c n hr => by cases hr⟩
  · exact ⟨records.commandsFollowRuns, records.one_le_bytes⟩

end Sys2Proof.Machine
end

section
/-! PROOFS. What a step counts: the byte indices of a run (42_handshake_sampler.md section 2), and the widths of the counters in the
state and in the records (70_reset_and_hazards.md R250). -/

namespace Sys2Proof.Machine

/-! ### The bytes of a run -/

/-- A sampled byte is counted, with its two records; without one nothing is emitted. -/
theorem Sampled.bytes {f : Frame} {s t : State} (h : Sampled f s t) :
    (t.byteCount = s.byteCount ∧ t.out = s.out) ∨
    ((s.latchValid = true ∧ f.ack = true ∧ s.prev.ack = false) ∧
      t.byteCount = s.byteCount + 1 ∧ t.out = s.out ++ byteRecords s) := by
  cases h with
  | latch d valid => exact .inl ⟨rfl, rfl⟩
  | byte latched high low => exact .inr ⟨⟨latched, high, low⟩, finaliseByte_byteCount s, finaliseByte_out s⟩

/-- The boundary that a window confirms when it expires: a run of the code of the frame begins, without a byte (R145). -/
def ConfirmsBoundary (f : Frame) (s t : State) : Prop :=
  s.dbPending = true ∧ s.dbCnt ≤ 1 ∧ f.code ≠ s.subphase ∧ t.subphase = f.code ∧ t.runStart = s.samplenum ∧ t.byteCount = 0

/-- After the sampler only a boundary writes the count, and no byte record is emitted. -/
theorem Filtered.bytes {f : Frame} {s t : State} (h : Filtered f s t) :
    (∃ l, t.out = s.out ++ l ∧ ∀ r ∈ l, r.cat ≤ 3) ∧ (ConfirmsBoundary f s t ∨ t.byteCount = s.byteCount) := by
  have low {l : List Record} (run : s.RunRecords l) : ∀ r ∈ l, r.cat ≤ 3 := fun r hr => (run.record r hr).2.2.2
  have low' {l : List Record} (run : s.RunRecords l) :
      ∀ r ∈ l ++ [recordNow s s.phaseStart (.phase .informationTransfer)], r.cat ≤ 3 :=
    List.forall_mem_append.2 ⟨low run, by simp⟩
  cases h with
  | goesOn => exact ⟨⟨[], (List.append_nil _).symm, List.forall_mem_nil _⟩, .inr rfl⟩
  | newRun high l run expired => exact ⟨⟨l, rfl, low run⟩, .inl ⟨expired.1, expired.2.1, expired.2.2, rfl, rfl, rfl⟩⟩
  | exit l run => exact ⟨⟨_, rfl, low' run⟩, .inr rfl⟩
  | newRunExit l run expired => exact ⟨⟨_, rfl, low' run⟩, .inl ⟨expired.1, expired.2.1, expired.2.2, rfl, rfl, rfl⟩⟩

theorem byteIndex_mem_byteRecords (s : State) (ss es k : Nat) (h : (⟨ss, es, .byteIndex k⟩ : Record) ∈ byteRecords s) :
    k = s.byteCount ∧ ss = s.byteRunStart := by
  rcases List.mem_pair.1 h with same | same
  · have notIndex := (Payload.four_le_cat_byte s.storeByte s.dataLatch).2
    rw [recordNow, Record.mk.injEq] at same
    rw [← same.2.2] at notIndex
    exact absurd rfl notIndex
  · simp only [recordNow, Record.mk.injEq, Payload.byteIndex.injEq] at same
    exact ⟨same.2.2, same.1⟩

/-- Of the records of a step in INFORMATION_TRANSFER only those of the sampled byte can be index records. -/
theorem byteIndex_mem_transfer {b l : List Record} (low : ∀ r ∈ l, r.cat ≤ 3) (ss es k : Nat) :
    (⟨ss, es, .byteIndex k⟩ : Record) ∈ b ++ l ↔ (⟨ss, es, .byteIndex k⟩ : Record) ∈ b := by
  rw [List.mem_append, or_iff_left]
  exact fun hl => absurd (low _ hl) (by simp)

theorem byteIndex_transfer {f : Frame} {s u t : State} (sampled : Sampled f s u) (filtered : Filtered f u t) (noRecord : s.out = []) :
    (∀ ss es k, (⟨ss, es, .byteIndex k⟩ : Record) ∈ t.out → k = s.byteCount ∧ ss = s.byteRunStart) ∧
    (ConfirmsBoundary f s t ∨
      (t.byteCount = s.byteCount + 1 ∧ ∃ ss es, (⟨ss, es, .byteIndex s.byteCount⟩ : Record) ∈ t.out) ∨
      (t.byteCount = s.byteCount ∧ ∀ ss es k, (⟨ss, es, .byteIndex k⟩ : Record) ∉ t.out)) := by
  obtain ⟨⟨l, out, low⟩, count⟩ := filtered.bytes
  have boundary (h : ConfirmsBoundary f u t) : ConfirmsBoundary f s t := by
    have frame := sampled.frame
    rw [frame] at h
    exact h
  rcases sampled.bytes with ⟨hCount, hOut⟩ | ⟨-, hCount, hOut⟩
  · have none : ∀ ss es k, (⟨ss, es, .byteIndex k⟩ : Record) ∉ t.out := fun ss es k => by
      rw [out, byteIndex_mem_transfer low, hOut, noRecord]
      exact List.not_mem_nil
    refine ⟨fun ss es k hr => absurd hr (none ss es k), ?_⟩
    rcases count with confirmed | kept
    · exact .inl (boundary confirmed)
    · exact .inr (.inr ⟨kept.trans hCount, none⟩)
  · have index : ∀ ss es k, (⟨ss, es, .byteIndex k⟩ : Record) ∈ t.out ↔
        (⟨ss, es, .byteIndex k⟩ : Record) ∈ byteRecords s := fun ss es k => by
      rw [out, byteIndex_mem_transfer low, hOut, noRecord, List.nil_append]
    refine ⟨fun ss es k hr => byteIndex_mem_byteRecords s ss es k ((index ss es k).1 hr), ?_⟩
    rcases count with confirmed | kept
    · exact .inl (boundary confirmed)
    · refine .inr (.inl ⟨kept.trans hCount, s.byteRunStart, s.samplenum, (index _ _ _).2 ?_⟩)
      exact List.mem_cons_of_mem _ (List.mem_singleton_self _)

/-- Outside INFORMATION_TRANSFER a served frame emits no byte record, and the entry begins with no byte. -/
theorem Served.bytes_of_not_transfer {f : Frame} {s t : State} (h : Served f s t) (hPhase : s.phase ≠ .informationTransfer)
    (noRecord : s.out = []) :
    (∀ r ∈ t.out, r.cat ≤ 1) ∧ (t.phase = .informationTransfer → t.byteCount = 0) := by
  cases h with
  | ignored => exact ⟨by simp [noRecord], fun transfer => absurd transfer hPhase⟩
  | busFreeEnd => exact ⟨by simp [noRecord], fun transfer => Phase.noConfusion transfer⟩
  | arbitrationEnd => exact ⟨by simp [noRecord], fun transfer => Phase.noConfusion transfer⟩
  | selectionEnd => exact ⟨by simp [noRecord], fun _ => rfl⟩
  | transfer transfer => exact absurd transfer hPhase

/-- Settles O39: the index record is that of the sampled byte, and only a boundary begins to count anew. -/
theorem byteIndicesCountUpFromZero : Obligations.ByteIndicesCountUpFromZero := by
  constructor
  · intro s t f rest _ h hInput hPhase
    have silent (out : t.out = []) (kept : t.byteCount = s.byteCount) :
        (∀ ss es k, (⟨ss, es, .byteIndex k⟩ : Record) ∈ t.out → k = s.byteCount ∧ ss = s.byteRunStart) ∧
        (ConfirmsBoundary f s t ∨
          (t.byteCount = s.byteCount + 1 ∧ ∃ ss es, (⟨ss, es, .byteIndex s.byteCount⟩ : Record) ∈ t.out) ∨
          (t.byteCount = s.byteCount ∧ ∀ ss es k, (⟨ss, es, .byteIndex k⟩ : Record) ∉ t.out)) := by
      rw [out]
      exact ⟨fun ss es k hr => absurd hr List.not_mem_nil, .inr (.inr ⟨kept, fun ss es k => List.not_mem_nil⟩)⟩
    cases step_outcome s t h with
    | hold other => rw [hInput] at other; cases other
    | reset _ other => rw [hInput] at other; cases other
    | writeCfg _ _ other => rw [hInput] at other; cases other
    | error => exact silent rfl rfl
    | skip => exact silent rfl rfl
    | serve g rest' u taken _ served =>
      rw [hInput] at taken
      obtain ⟨⟨rfl⟩, rfl⟩ := List.cons_eq_cons.1 taken
      cases served with
      | ignored => exact silent rfl rfl
      | busFreeEnd other => exact Phase.noConfusion (hPhase.symm.trans other)
      | arbitrationEnd other => exact Phase.noConfusion (hPhase.symm.trans other)
      | selectionEnd other => exact Phase.noConfusion (hPhase.symm.trans other)
      | transfer _ _ sampled filtered =>
        have bytes := byteIndex_transfer sampled filtered rfl
        exact bytes
  · intro s t _ h hPhase
    suffices key : (∀ r ∈ t.out, r.cat ≤ 1) ∧ (t.phase = .informationTransfer → t.byteCount = 0) from
      ⟨fun ss es k hr => absurd (key.1 _ hr) (by simp), key.2⟩
    cases step_outcome s t h with
    | reset => exact ⟨List.forall_mem_nil _, fun _ => rfl⟩
    | serve f rest u _ _ served => exact served.bytes_of_not_transfer hPhase rfl
    | _ => exact ⟨List.forall_mem_nil _, fun transfer => absurd transfer hPhase⟩

/-! ### The widths of the counters -/

/-- The counter that a payload carries: a byte index, or the byte count of a run. -/
def Payload.counter : Payload → Nat
  | .byteIndex k => k
  | .subphase _ n => n
  | .cmd info => info.nbytes
  | _ => 0

theorem Record.fitsWidths_iff (r : Record) :
    r.fitsWidths ↔ r.ss < 2 ^ Config.sampleW ∧ r.es < 2 ^ Config.sampleW ∧ r.payload.counter < 2 ^ Config.idxW := by
  obtain ⟨ss, es, p⟩ := r
  cases p <;> simp [Record.fitsWidths, Payload.counter]

theorem RunRecords.counter {code : Code} {bytes start now : Nat} {l : List Record} (h : RunRecords code bytes start now l) :
    ∀ r ∈ l, r.payload.counter = bytes := by
  cases h <;> simp_all [Payload.counter]

theorem counter_of_cat_le_one (r : Record) (h : r.cat ≤ 1) : r.payload.counter = 0 := by
  obtain ⟨ss, es, p⟩ := r
  cases p <;> simp_all [Payload.counter]

theorem bytePayload_counter (s : State) (b : Byte) : (bytePayload s b).counter = 0 := by
  by_cases hCode : s.subphase = commandCode
  · rw [bytePayload_of_command s b hCode]
    rfl
  · rw [bytePayload_of_not_command s b hCode]
    cases s.subphase.getLsbD 0 <;> rfl

/-- The count after a byte, if the step finalises one. -/
def State.bytesAfter (s : State) : Nat := if s.finalisesByte then s.byteCount + 1 else s.byteCount

theorem State.byteCount_le_bytesAfter (s : State) : s.byteCount ≤ s.bytesAfter := by
  unfold State.bytesAfter
  split <;> omega

theorem Sampled.counter {f : Frame} {s t : State} (h : Sampled f s t) (noRecord : s.out = []) :
    ∀ r ∈ t.out, r.payload.counter ≤ s.byteCount := by
  rcases h.bytes with ⟨-, out⟩ | ⟨-, -, out⟩
  · simp [out, noRecord]
  · rw [out, noRecord, List.nil_append]
    intro r hr
    rcases List.mem_pair.1 hr with rfl | rfl
    · exact (bytePayload_counter _ _).trans_le (Nat.zero_le _)
    · exact le_rfl

theorem Filtered.counter {f : Frame} {s t : State} (h : Filtered f s t) (before : ∀ r ∈ s.out, r.payload.counter ≤ s.byteCount) :
    t.byteCount ≤ s.byteCount ∧ ∀ r ∈ t.out, r.payload.counter ≤ s.byteCount := by
  have run {l : List Record} (run : s.RunRecords l) : ∀ r ∈ s.out ++ l, r.payload.counter ≤ s.byteCount :=
    List.forall_mem_append.2 ⟨before, fun r hr => (run.counter r hr).le⟩
  have exit {l : List Record} (hl : s.RunRecords l) :
      ∀ r ∈ s.out ++ (l ++ [recordNow s s.phaseStart (.phase .informationTransfer)]), r.payload.counter ≤ s.byteCount := by
    rw [← List.append_assoc]
    exact List.forall_mem_append.2 ⟨run hl, List.forall_mem_singleton.2 (Nat.zero_le _)⟩
  cases h with
  | goesOn => exact ⟨le_rfl, before⟩
  | newRun high l hl => exact ⟨Nat.zero_le _, run hl⟩
  | exit l hl => exact ⟨le_rfl, exit hl⟩
  | newRunExit l hl => exact ⟨Nat.zero_le _, exit hl⟩

/-- No count in the next state, or in a record, is above the count after the byte of the step. -/
theorem step_counter (s t : State) (h : step s = .next t) :
    t.byteCount ≤ s.bytesAfter ∧ ∀ r ∈ t.out, r.payload.counter ≤ s.bytesAfter := by
  have le := s.byteCount_le_bytesAfter
  cases step_outcome s t h with
  | reset => exact ⟨Nat.zero_le _, List.forall_mem_nil _⟩
  | serve f rest u hInput hRun served =>
    by_cases hPhase : s.phase = .informationTransfer
    · cases served with
      | ignored => exact ⟨le, List.forall_mem_nil _⟩
      | busFreeEnd other => exact Phase.noConfusion (hPhase.symm.trans other)
      | arbitrationEnd other => exact Phase.noConfusion (hPhase.symm.trans other)
      | selectionEnd other => exact Phase.noConfusion (hPhase.symm.trans other)
      | @transfer v _ _ hValid sampled filtered =>
        have counted : s.byteCount ≤ v.byteCount ∧ v.byteCount ≤ s.bytesAfter := by
          rcases sampled.bytes with ⟨kept, -⟩ | ⟨⟨latched, high, low⟩, one, -⟩
          · exact ⟨kept.ge, kept.trans_le le⟩
          · have hLatched : s.latchValid = true := latched
            have hLow : s.prev.ack = false := low
            have hValid : s.prevValid = true := hValid
            have finalises : s.finalisesByte = true := by
              simp [State.finalisesByte, hInput, hRun, hPhase, rise, hValid, hLow, high, hLatched]
            rw [State.bytesAfter, if_pos finalises]
            exact ⟨(Nat.le_succ _).trans one.ge, one.le⟩
        obtain ⟨count, records⟩ := filtered.counter fun r hr => (sampled.counter rfl r hr).trans counted.1
        exact ⟨count.trans counted.2, fun r hr => (records r hr).trans counted.2⟩
    · obtain ⟨records, -⟩ := served.bytes_of_not_transfer hPhase rfl
      refine ⟨?_, fun r hr => (counter_of_cat_le_one r (records r hr)).trans_le (Nat.zero_le _)⟩
      cases served with
      | transfer transfer => exact absurd transfer hPhase
      | selectionEnd => exact Nat.zero_le _
      | _ => exact le
  | _ => exact ⟨le, List.forall_mem_nil _⟩

/-- Every start sample is below a bound. -/
structure State.StartsBelow (b : Nat) (s : State) : Prop where
  phaseStart : s.phaseStart < b
  runStart : s.runStart < b
  byteRunStart : s.byteRunStart < b

theorem Sampled.startsBelow {f : Frame} {s t : State} {b : Nat} (h : Sampled f s t) (hs : s.StartsBelow b)
    (now : s.samplenum < b) : t.StartsBelow b := by
  cases h with
  | latch d valid => exact ⟨hs.phaseStart, hs.runStart, hs.byteRunStart⟩
  | byte latched high low =>
    exact ⟨(finaliseByte_keepsPhase s).phaseStart ▸ hs.phaseStart, finaliseByte_runStart s ▸ hs.runStart,
      finaliseByte_byteRunStart s ▸ now⟩

theorem Served.startsBelow {f : Frame} {s t : State} {b : Nat} (h : Served f s t) (hs : s.StartsBelow b)
    (now : s.samplenum < b) : t.StartsBelow b := by
  obtain ⟨phase, run, byte⟩ := hs
  cases h with
  | ignored => exact ⟨phase, run, byte⟩
  | busFreeEnd => exact ⟨now, run, byte⟩
  | arbitrationEnd => exact ⟨now, run, byte⟩
  | selectionEnd => exact ⟨now, now, now⟩
  | transfer _ _ sampled filtered =>
    have now' := sampled.keeps.samplenum.trans_lt now
    obtain ⟨phase, run, byte⟩ := sampled.startsBelow ⟨phase, run, byte⟩ now
    cases filtered with
    | goesOn => exact ⟨phase, run, byte⟩
    | newRun => exact ⟨phase, now', byte⟩
    | exit => exact ⟨now', run, byte⟩
    | newRunExit => exact ⟨now', now', byte⟩

theorem step_startsBelow (s t : State) {b : Nat} (h : step s = .next t) (hs : s.StartsBelow b) (now : s.samplenum < b) :
    t.StartsBelow b := by
  cases step_outcome s t h with
  | reset => exact ⟨Nat.zero_lt_of_lt now, Nat.zero_lt_of_lt now, Nat.zero_lt_of_lt now⟩
  | serve f rest u _ _ served =>
    have begun : (beginRunning s rest).StartsBelow b := ⟨hs.phaseStart, hs.runStart, hs.byteRunStart⟩
    obtain ⟨phase, run, byte⟩ := served.startsBelow begun now
    exact ⟨phase, run, byte⟩
  | _ => exact ⟨hs.phaseStart, hs.runStart, hs.byteRunStart⟩

/-- The sample number grows by one with a frame, and otherwise not at all. -/
theorem step_samplenum_le (s t : State) (h : step s = .next t) :
    t.samplenum ≤ s.samplenum ∨ (s.takesFrame = true ∧ t.samplenum = s.samplenum + 1) := by
  have frame (f : Frame) (rest : List Stimulus) (hInput : s.input = .frame f :: rest) : s.takesFrame = true := by
    rw [State.takesFrame, hInput]
  cases step_outcome s t h with
  | hold => exact .inl le_rfl
  | reset => exact .inl (Nat.zero_le _)
  | writeCfg => exact .inl le_rfl
  | error f rest hInput => exact .inr ⟨frame f rest hInput, rfl⟩
  | skip f rest hInput => exact .inr ⟨frame f rest hInput, rfl⟩
  | serve f rest u hInput _ served => exact .inr ⟨frame f rest hInput, congrArg (· + 1) served.keeps.samplenum⟩

/-- A record of any step begins and ends below a bound of the starts and of the sample number. -/
theorem step_record_below (s t : State) {b : Nat} (h : step s = .next t) (hs : s.StartsBelow b) (now : s.samplenum < b) :
    ∀ r ∈ t.out, r.ss < b ∧ r.es < b := by
  intro r hr
  by_cases reset : ∃ rest, s.input = .rst :: rest
  · obtain ⟨rest, hInput⟩ := reset
    rw [step_of_rst s rest hInput] at h
    obtain rfl := Host.Outcome.next.inj h
    cases hr
  · obtain ⟨hss, hes, -, -⟩ := step_record s t h (not_exists.1 reset) r hr
    rw [hss, hes]
    refine ⟨?_, now⟩
    rcases s.openStart_cases r.cat with start | ⟨-, start | start⟩ <;> rw [start]
    · exact hs.phaseStart
    · exact hs.runStart
    · exact hs.byteRunStart

theorem State.bytesAfter_lt (s : State) (within : s.stepWithinSpec) : s.bytesAfter < 2 ^ Config.idxW := by
  obtain ⟨⟨-, bytes, -⟩, -, byte⟩ := within
  unfold State.bytesAfter
  split
  · exact byte ‹_›
  · exact bytes

/-- The counters after `n` steps from reset. -/
structure State.CountedTo (n : Nat) (s : State) : Prop where
  samplenum : s.samplenum ≤ n
  byteCount : s.byteCount ≤ n
  starts : s.StartsBelow (n + 1)

theorem step_countedTo (s t : State) (n : Nat) (h : step s = .next t) (hs : s.CountedTo n) : t.CountedTo (n + 1) where
  samplenum := by
    have := hs.samplenum
    rcases step_samplenum_le s t h with le | ⟨-, eq⟩ <;> omega
  byteCount := by
    have count := (step_counter s t h).1
    have := hs.byteCount
    have : s.bytesAfter ≤ s.byteCount + 1 := by unfold State.bytesAfter; split <;> omega
    omega
  starts := by
    obtain ⟨phase, run, byte⟩ := hs.starts
    exact step_startsBelow s t h ⟨by omega, by omega, by omega⟩ (by have := hs.samplenum; omega)

theorem State.CountedTo.withinSpec {s : State} {n : Nat} (hs : s.CountedTo n) (small : n < 2 ^ Config.idxW) : s.withinSpec := by
  obtain ⟨sample, bytes, phase, run, byte⟩ := hs
  have : 2 ^ Config.idxW ≤ 2 ^ Config.sampleW := by decide
  exact ⟨by omega, by omega, by omega, by omega, by omega⟩

theorem runWithinSpec_of_countedTo (k n : Nat) (s : State) (hs : s.CountedTo n) (small : n + k < 2 ^ Config.idxW) :
    s.runWithinSpec k = true := by
  have within := hs.withinSpec (by omega)
  induction k generalizing n s with
  | zero => exact s.runWithinSpec_zero.2 within
  | succ k ih =>
    have wide : 2 ^ Config.idxW ≤ 2 ^ Config.sampleW := by decide
    have sample := hs.samplenum
    have bytes := hs.byteCount
    refine (State.runWithinSpec_succ k s).2 ⟨⟨within, fun _ => by omega, fun _ => by omega⟩, fun t hStep => ?_⟩
    have ht := step_countedTo s t n hStep hs
    exact ih (n + 1) t ht (by omega) (ht.withinSpec (by omega))

/-- Settles O55; for a run from reset by counting its steps. -/
theorem countersStayWithinTheirWidths : Obligations.CountersStayWithinTheirWidths := by
  constructor
  · intro s t within h
    have ⟨⟨sample, _, phase, run, byte⟩, frame, _⟩ := within
    have starts : s.StartsBelow (2 ^ Config.sampleW) := ⟨phase, run, byte⟩
    obtain ⟨phase', run', byte'⟩ := step_startsBelow s t h starts sample
    obtain ⟨count, counters⟩ := step_counter s t h
    have sample' : t.samplenum < 2 ^ Config.sampleW := by
      rcases step_samplenum_le s t h with le | ⟨taken, eq⟩
      · exact le.trans_lt sample
      · exact eq.trans_lt (frame taken)
    refine ⟨⟨sample', count.trans_lt (s.bytesAfter_lt within), phase', run', byte'⟩, fun r hr => r.fitsWidths_iff.2 ?_⟩
    obtain ⟨hss, hes⟩ := step_record_below s t h starts sample r hr
    exact ⟨hss, hes, (counters r hr).trans_lt (s.bytesAfter_lt within)⟩
  · intro k p c input small
    have start : State.CountedTo 0 { State.reset with params := p, cfg := c, input := input } :=
      ⟨le_rfl, le_rfl, Nat.one_pos, Nat.one_pos, Nat.one_pos⟩
    exact runWithinSpec_of_countedTo k 0 _ start (by omega)

end Sys2Proof.Machine
end

section
/-! PROOFS. The invariant of the block (10_state.md section 4; 20_memory.md section 1): reset meets it, and every step from a state
that meets it completes and keeps it. -/

namespace Sys2Proof.Machine

/-! ### Reset, and what lies beside the frames -/

theorem resetBlock_inv (s : State) (params : s.params.wf) : (resetBlock s).Inv where
  paramsOk := params
  modeOk := ⟨by simp [State.reset], fun _ => rfl, fun running => RunState.noConfusion running, fun _ => rfl⟩
  storeOk := ⟨reset_cdb_wf, List.forall_mem_nil _⟩
  codeOk := fun transfer => Phase.noConfusion transfer
  windowOk := fun pending => absurd pending Bool.false_ne_true
  bsyOk := .inl rfl
  startsOk := ⟨le_rfl, fun transfer => Phase.noConfusion transfer⟩
  descriptorOk := ⟨Nat.zero_le _, fun transfer => Phase.noConfusion transfer⟩
  latchOk := fun transfer => Phase.noConfusion transfer

/-- Settles O32: the state after reset is what reset makes of itself. -/
theorem resetMeetsInvariant : Obligations.ResetMeetsInvariant :=
  fun p params => resetBlock_inv { State.reset with params := p } params

/-- The stimuli that wait, the ports and CFG are not looked at by the invariant. -/
theorem State.Inv.outside {s : State} (inv : s.Inv) (input : List Stimulus) (out : List Record) (cfgError : Bool) (cfg : Cfg) :
    State.Inv { s with input := input, out := out, cfgError := cfgError, cfg := cfg } := { inv with }

/-- A start sample that is not after a sample is not after a later one. -/
theorem State.startsOk.later {s : State} (h : s.startsOk) (n : Nat) (later : s.samplenum ≤ n) :
    State.startsOk { s with samplenum := n } := by
  obtain ⟨phase, transfer⟩ := h
  refine ⟨phase.trans later, fun hPhase => ?_⟩
  obtain ⟨run, run', byte, byte'⟩ := transfer hPhase
  exact ⟨run, run'.trans later, byte, byte'.trans later⟩

theorem State.Inv.skipFrame {s : State} (inv : s.Inv) : s.skipFrame.Inv :=
  { inv with startsOk := State.startsOk.later inv.startsOk _ (Nat.le_succ _) }

/-- The configuration error sets `err_cfg` with HALTED, while no frame is held (60_exceptions.md R222). -/
theorem State.Inv.raiseConfigurationError {s : State} (inv : s.Inv) (hRun : s.runState = .idle) :
    (raiseConfigurationError s).Inv := by
  obtain ⟨-, notHeld, -, noFrame⟩ := inv.modeOk
  exact { inv with
    modeOk := ⟨iff_of_true rfl rfl, fun _ => notHeld (by simp [hRun]), fun running => RunState.noConfusion running, noFrame⟩ }

/-- The first frame enters RUNNING and becomes the previous one; the phase is BUS_FREE (70_reset_and_hazards.md R243). -/
theorem State.Inv.firstFrame {s : State} (inv : s.Inv) (hRun : s.runState = .idle) (f : Frame) :
    State.Inv ({ s with runState := .running }.endFrame f) := by
  obtain ⟨err, notHeld, -, noFrame⟩ := inv.modeOk
  have noError : s.errCfg ≠ true := fun set => by simp [hRun] at err; simp [err] at set
  have hPhase : s.phase = .busFree := noFrame (notHeld (by simp [hRun]))
  exact { inv with
    modeOk := ⟨iff_of_false noError RunState.noConfusion, fun other => absurd rfl other, fun _ => rfl,
      fun none => Bool.noConfusion none⟩
    codeOk := fun transfer => Phase.noConfusion (hPhase.symm.trans transfer)
    startsOk := State.startsOk.later inv.startsOk _ (Nat.le_succ _)
    latchOk := fun transfer => Phase.noConfusion (hPhase.symm.trans transfer) }

/-! ### Between the sub-steps of a step -/

/-- The invariant with other levels for the previous frame: each sub-step of a step looks at more lines of the frame that it serves,
and (a) and (f) of the invariant speak of the frame as far as it has been looked at. -/
def State.InvSeeing (p : Controls) (s : State) : Prop := State.Inv { s with prev := p }

/-- The bookkeeping makes the frame that was looked at the previous one. -/
theorem State.InvSeeing.endFrame {s : State} {f : Frame} (inv : s.InvSeeing (controlsOf f)) (held : s.prevValid = true) :
    (s.endFrame f).Inv := by
  have inv : State.Inv { s with prev := controlsOf f } := inv
  obtain ⟨err, -, running, noFrame⟩ := inv.modeOk
  have hMode : s.runState = .running := by
    by_contra other
    exact absurd (inv.modeOk.2.1 other) (by simp [held])
  exact { inv with
    modeOk := ⟨err, fun other => absurd hMode other, fun _ => rfl, fun none => Bool.noConfusion none⟩
    startsOk := State.startsOk.later inv.startsOk _ (Nat.le_succ _) }

/-- Outside INFORMATION_TRANSFER no part of the invariant speaks of the previous frame. -/
theorem State.Inv.seeing_of_not_transfer {s : State} (inv : s.Inv) (hPhase : s.phase ≠ .informationTransfer) (p : Controls) :
    s.InvSeeing p :=
  { inv with codeOk := fun transfer => absurd transfer hPhase, latchOk := fun transfer => absurd transfer hPhase }

theorem State.Inv.window_closed {s : State} (inv : s.Inv) (hPhase : s.phase ≠ .informationTransfer) : s.dbPending = false := by
  by_contra pending
  exact hPhase (inv.windowOk (by simpa using pending)).1

/-- From one of the first two phases to the next one: no window is open, and no sub-phase field means anything. -/
theorem State.Inv.nextPhase {s : State} (inv : s.Inv) (hPhase : s.phase ≠ .informationTransfer) (held : s.prevValid = true)
    {q : Phase} (hq : q ≠ .informationTransfer) (out : List Record) (pins : Byte) (p : Controls) :
    State.InvSeeing p { s with out := out, arbPins := pins, phase := q, phaseStart := s.samplenum } := by
  have ⟨err, notHeld, running, _⟩ := inv.modeOk
  exact { inv with
    modeOk := ⟨err, notHeld, running, fun none => absurd (held.symm.trans none) Bool.noConfusion⟩
    codeOk := fun transfer => absurd transfer hq
    windowOk := fun pending => absurd ((inv.window_closed hPhase).symm.trans pending) Bool.noConfusion
    startsOk := ⟨le_rfl, fun transfer => absurd transfer hq⟩
    descriptorOk := ⟨inv.descriptorOk.1, fun transfer => absurd transfer hq⟩
    latchOk := fun transfer => absurd transfer hq }

/-- The entry to INFORMATION_TRANSFER commits the code of the frame, with an empty run and no latch (40_phase_fsm.md R124). -/
theorem State.Inv.enterTransfer {s : State} (inv : s.Inv) (held : s.prevValid = true) (out : List Record) (f : Frame) :
    State.InvSeeing (controlsOf f)
      { s with
        out := out, phase := .informationTransfer, phaseStart := s.samplenum, subphase := f.code, runStart := s.samplenum
        byteCount := 0, byteRunStart := s.samplenum, latchValid := false, dbPending := false, dbCnt := 0, bsyHighCnt := 0 } := by
  have ⟨err, notHeld, running, _⟩ := inv.modeOk
  exact { inv with
    modeOk := ⟨err, notHeld, running, fun none => absurd (held.symm.trans none) Bool.noConfusion⟩
    codeOk := fun _ _ => rfl
    windowOk := fun pending => Bool.noConfusion pending
    bsyOk := .inl rfl
    startsOk := ⟨le_rfl, fun _ => ⟨le_rfl, le_rfl, le_rfl, le_rfl⟩⟩
    descriptorOk := ⟨inv.descriptorOk.1, fun _ _ some => absurd some (by simp)⟩
    latchOk := fun _ latched => Bool.noConfusion latched }

/-! ### The sub-steps of INFORMATION_TRANSFER -/

/-- A COMMAND run with bytes has a descriptor, since the store has room for at least ten bytes (10_state.md R43(e)). -/
theorem State.Inv.one_le_cdbLen {s : State} (inv : s.Inv) (hPhase : s.phase = .informationTransfer)
    (hCode : s.subphase = commandCode) (bytes : 1 ≤ s.byteCount) : 1 ≤ s.cdbLen := by
  obtain ⟨len, -⟩ := inv.descriptorOk.2 hPhase hCode bytes
  have := inv.paramsOk.2
  omega

/-- The accumulator keeps (e): the byte goes to the end of the descriptor, or it is dropped with the flag set. -/
theorem finaliseByte_descriptorOk (s : State) (inv : s.Inv) (hPhase : s.phase = .informationTransfer) :
    (finaliseByte s).descriptorOk := by
  obtain ⟨fits, descriptor⟩ := inv.descriptorOk
  have room := inv.paramsOk.2
  by_cases hCode : s.subphase = commandCode
  · have before : s.storeIndex = min s.byteCount s.params.cdbMax ∧
        ((if s.byteCount = 0 then false else s.cdbOverflow) = true ↔ s.params.cdbMax < s.byteCount) := by
      unfold State.storeIndex
      split
      · simp [*]
      · exact descriptor hPhase hCode (by omega)
    obtain ⟨index, flag⟩ := before
    rw [finaliseByte_of_command s hCode]
    by_cases full : s.storeIndex < s.params.cdbMax
    · simp only [State.descriptorOk, if_pos full, flag]
      omega
    · simp only [State.descriptorOk, if_neg full]
      refine ⟨by omega, fun _ _ _ => ⟨by omega, iff_of_true trivial (by omega)⟩⟩
  · rw [finaliseByte_eq, s.storeByte_of_not_command hCode]
    exact ⟨fits, fun _ command => absurd command hCode⟩

theorem finaliseByte_storeOk (s : State) (inv : s.Inv) : (finaliseByte s).storeOk := by
  rw [finaliseByte_eq]
  by_cases hCode : s.subphase = commandCode
  · rw [s.storeByte_of_command hCode]
    exact cdbAccept_storeOk s _ _ inv.storeOk
  · rw [s.storeByte_of_not_command hCode]
    exact inv.storeOk

/-- The finalisation ends the byte at the current sample and clears the latch, whatever ACK shows. -/
theorem finaliseByte_invSeeing (s : State) (inv : s.Inv) (hPhase : s.phase = .informationTransfer) (ack : Bool) :
    (finaliseByte s).InvSeeing { s.prev with ack := ack } := by
  have store := finaliseByte_storeOk s inv
  have descriptor := finaliseByte_descriptorOk s inv hPhase
  obtain ⟨phase, transfer⟩ := inv.startsOk
  obtain ⟨run, run', -, -⟩ := transfer hPhase
  rw [finaliseByte_eq, s.storeByte_frame] at store descriptor ⊢
  exact { inv with
    storeOk := store
    startsOk := ⟨phase, fun _ => ⟨run, run', phase, le_rfl⟩⟩
    descriptorOk := descriptor
    latchOk := fun _ latched => Bool.noConfusion latched }

/-- The sampler looks at ACK, and keeps (f): a byte stays latched only when ACK is low. -/
theorem handshake_inv (f : Frame) (s : State) (inv : s.Inv) (hPhase : s.phase = .informationTransfer) :
    ∃ t, handshake f s = .next t ∧ t.InvSeeing { s.prev with ack := f.ack } := by
  rw [handshake, decodeAckEvent_eventWord]
  split_ifs with fall rise
  · exact ⟨_, rfl, { inv with latchOk := fun _ _ => fall.2 }⟩
  · exact ⟨_, exec_evAckRise_of_latched s rise.2, finaliseByte_invSeeing s inv hPhase f.ack⟩
  · refine ⟨s, rfl, { inv with latchOk := fun transfer latched => ?_ }⟩
    have low : s.prev.ack = false := inv.latchOk transfer latched
    exact Bool.eq_false_iff.2 fun high => rise ⟨⟨high, low⟩, latched⟩

/-- The debouncer looks at CD, IO and MSG, and keeps (a): outside a window the committed code is that of the frame. -/
theorem debounce_inv (f : Frame) (s : State) (inv : s.InvSeeing { s.prev with ack := f.ack })
    (hPhase : s.phase = .informationTransfer) (held : s.prevValid = true) :
    ∃ t, debounce f s = .next t ∧ t.InvSeeing (controlsOf f) := by
  have inv : State.Inv { s with prev := { s.prev with ack := f.ack } } := inv
  have window := inv.windowOk
  have code : s.dbPending = false → s.subphase = s.prev.code := inv.codeOk hPhase
  cases pending : s.dbPending with
  | true =>
    obtain ⟨-, left, most⟩ := window pending
    by_cases last : s.dbCnt ≤ 1
    · by_cases back : f.code = s.subphase
      · refine ⟨_, debounce_of_glitch f s pending last back, ?_⟩
        exact { inv with codeOk := fun _ _ => back.symm, windowOk := fun open' => Bool.noConfusion open' }
      · rw [debounce_of_boundary f s pending last back]
        obtain ⟨u, flush⟩ := flushRun_completes s.closeWindow inv.descriptorOk.1 (inv.one_le_cdbLen hPhase)
        refine ⟨u.startRun f.code, by rw [boundary, flush, andThen_next], ?_⟩
        rw [flushRun_frame _ u flush]
        obtain ⟨phase, transfer⟩ := inv.startsOk
        obtain ⟨-, -, byte, byte'⟩ := transfer hPhase
        exact { inv with
          codeOk := fun _ _ => rfl
          windowOk := fun open' => Bool.noConfusion open'
          startsOk := ⟨phase, fun _ => ⟨phase, le_rfl, byte, byte'⟩⟩
          descriptorOk := ⟨inv.descriptorOk.1, fun _ _ some => absurd some (by simp)⟩ }
    · refine ⟨_, debounce_of_counting f s pending (by omega), ?_⟩
      have counted : 1 ≤ s.dbCnt - 1 ∧ s.dbCnt - 1 ≤ s.params.debounceWindow := by
        have most : s.dbCnt ≤ s.params.debounceWindow := most
        omega
      exact { inv with
        codeOk := fun _ closed => absurd (pending.symm.trans closed) Bool.noConfusion
        windowOk := fun _ => ⟨hPhase, counted⟩ }
  | false =>
    by_cases edge : f.code = s.prev.code
    · refine ⟨s, debounce_of_no_edge f s pending held edge, ?_⟩
      exact { inv with codeOk := fun _ _ => (code pending).trans edge.symm }
    · refine ⟨_, debounce_of_edge f s pending held edge, ?_⟩
      exact { inv with
        codeOk := fun _ closed => Bool.noConfusion closed
        windowOk := fun _ => ⟨hPhase, inv.paramsOk.1, le_rfl⟩ }

/-- The exit leaves no window and no BSY count, and a latch that means nothing (40_phase_fsm.md R126). -/
theorem State.InvSeeing.exit {s : State} {p : Controls} (inv : s.InvSeeing p) (held : s.prevValid = true) (out : List Record) :
    State.InvSeeing p
      { s with
        out := out, phase := .busFree, phaseStart := s.samplenum, dbPending := false, dbCnt := 0, bsyHighCnt := 0 } := by
  have inv : State.Inv { s with prev := p } := inv
  have ⟨err, notHeld, running, _⟩ := inv.modeOk
  exact { inv with
    modeOk := ⟨err, notHeld, running, fun none => absurd (held.symm.trans none) Bool.noConfusion⟩
    codeOk := fun transfer => Phase.noConfusion transfer
    windowOk := fun open' => Bool.noConfusion open'
    bsyOk := .inl rfl
    startsOk := ⟨le_rfl, fun transfer => Phase.noConfusion transfer⟩
    descriptorOk := ⟨inv.descriptorOk.1, fun transfer => Phase.noConfusion transfer⟩
    latchOk := fun transfer => Phase.noConfusion transfer }

/-- The BSY filter keeps (c): a second high sample ends the phase instead of being counted. -/
theorem bsyFilter_inv (f : Frame) (s : State) (p : Controls) (inv : s.InvSeeing p) (hPhase : s.phase = .informationTransfer)
    (held : s.prevValid = true) : ∃ t, bsyFilter f s = .next t ∧ t.InvSeeing p := by
  have inv' : State.Inv { s with prev := p } := inv
  by_cases second : f.bsy = true ∧ s.bsyHighCnt = 1
  · rw [bsyFilter_of_exit f s second]
    obtain ⟨u, flush⟩ := flushRun_completes s inv'.descriptorOk.1 (inv'.one_le_cdbLen hPhase)
    obtain ⟨l, -, rfl⟩ := flushRun_records s u flush
    exact ⟨_, exec_evInformationTransferEnd_of_flush s l flush, inv.exit held _⟩
  · refine ⟨_, bsyFilter_of_not_exit f s second, { inv' with bsyOk := ?_ }⟩
    have count : s.bsyHighCnt = 0 ∨ s.bsyHighCnt = 1 := inv'.bsyOk
    cases bsy : f.bsy with
    | false => exact .inl rfl
    | true =>
      have first : s.bsyHighCnt = 0 := count.resolve_right fun one => second ⟨bsy, one⟩
      refine .inr ?_
      change (if true = true then s.bsyHighCnt + 1 else 0) = 1
      rw [first]
      rfl

/-- The three sub-steps complete, one after the other. -/
theorem transferStep_inv (f : Frame) (s : State) (inv : s.Inv) (hPhase : s.phase = .informationTransfer)
    (held : s.prevValid = true) :
    ∃ t u v, handshake f s = .next t ∧ debounce f t = .next u ∧ bsyFilter f u = .next v ∧
      transferStep f s = .next v ∧ v.InvSeeing (controlsOf f) := by
  obtain ⟨t, hAck, tInv⟩ := handshake_inv f s inv hPhase
  have tKeeps := (handshake_sampled f s t hAck).keeps
  have tPhase : t.phase = .informationTransfer := (handshake_keepsPhase f s t hAck).phase.trans hPhase
  have tHeld : t.prevValid = true := tKeeps.prevValid.trans held
  rw [← tKeeps.prev] at tInv
  obtain ⟨u, hDebounce, uInv⟩ := debounce_inv f t tInv tPhase tHeld
  have uPhase : u.phase = .informationTransfer := (debounce_keepsPhase f t u hDebounce).phase.trans tPhase
  have uHeld : u.prevValid = true := (congrArg State.prevValid (debounce_frame f t u hDebounce) :).trans tHeld
  obtain ⟨v, hFilter, vInv⟩ := bsyFilter_inv f u _ uInv uPhase uHeld
  exact ⟨t, u, v, hAck, hDebounce, hFilter, by rw [transferStep, hAck, andThen_next, hDebounce, andThen_next, hFilter], vInv⟩

/-! ### A step -/

/-- In each phase the step completes, and the state before the bookkeeping meets the invariant for the frame served. -/
theorem phaseStep_inv (f : Frame) (s : State) (inv : s.Inv) (held : s.prevValid = true) :
    ∃ t, phaseStep f s = .next t ∧ t.InvSeeing (controlsOf f) := by
  by_cases hPhase : s.phase = .informationTransfer
  · obtain ⟨-, -, v, -, -, -, hStep, vInv⟩ := transferStep_inv f s inv hPhase held
    exact ⟨v, (phaseStep_of_transfer f s hPhase).trans hStep, vInv⟩
  · rw [phaseStep_of_not_transfer f s hPhase]
    cases decoded : decodePhaseEvent s.phase (eventWord s.prev f) with
    | none => exact ⟨s, rfl, inv.seeing_of_not_transfer hPhase _⟩
    | some i =>
      rcases decodePhaseEvent_eq_some _ _ _ decoded with ⟨-, rfl⟩ | ⟨-, rfl⟩ | ⟨-, rfl⟩
      · exact ⟨_, exec_evBusFreeEnd s, inv.nextPhase hPhase held Phase.noConfusion _ s.arbPins _⟩
      · exact ⟨_, exec_evArbitrationEnd_eq s _, inv.nextPhase hPhase held Phase.noConfusion _ _ _⟩
      · rw [eventWord_current]
        exact ⟨_, exec_evSelectionEnd_eq s f.code, inv.enterTransfer held _ f⟩

theorem frameStep_inv (f : Frame) (s : State) (inv : s.Inv) : ∃ t, frameStep f s = .next t ∧ t.Inv := by
  obtain ⟨-, notHeld, running, -⟩ := inv.modeOk
  cases hRun : s.runState with
  | idle =>
    cases hCfg : s.cfg.srValid with
    | false => exact ⟨_, frameStep_of_not_configured f s hRun hCfg, (inv.raiseConfigurationError hRun).skipFrame⟩
    | true =>
      rw [frameStep_of_configured f s hRun hCfg]
      exact ⟨_, runningStep_of_not_prevValid f _ (notHeld (by simp [hRun])), inv.firstFrame hRun f⟩
  | running =>
    obtain ⟨u, hPhase, uInv⟩ := phaseStep_inv f s inv (running hRun)
    have uHeld : u.prevValid = true := (phaseStep_served f s u (running hRun) hPhase).keeps.prevValid.trans (running hRun)
    refine ⟨u.endFrame f, ?_, uInv.endFrame uHeld⟩
    simp only [frameStep, hRun]
    rw [runningStep_of_prevValid f s (running hRun), hPhase, andThen_next]
  | halted => exact ⟨_, frameStep_of_halted f s hRun, inv.skipFrame⟩

/-- The step of the invariant, for every stimulus; the bounds on the counters are not needed. -/
theorem step_inv (s : State) (inv : s.Inv) : ∃ t, step s = .next t ∧ t.Inv := by
  cases hInput : s.input with
  | nil => exact ⟨_, step_of_no_input s hInput, inv.outside _ _ _ _⟩
  | cons stimulus rest =>
    cases stimulus with
    | frame f =>
      rw [step_of_frame s f rest hInput]
      exact frameStep_inv f _ (inv.outside rest [] false s.cfg)
    | rst => exact ⟨_, step_of_rst s rest hInput, resetBlock_inv _ inv.paramsOk⟩
    | writeCfg c => exact ⟨_, step_of_writeCfg s c rest hInput, inv.outside _ _ _ _⟩

/-- Settles O31. -/
theorem stepCompletesAndKeepsInvariant : Obligations.StepCompletesAndKeepsInvariant :=
  fun s _ inv => step_inv s inv

/-! ### Runs from reset -/

theorem reset_inv (p : Params) (c : Cfg) (input : List Stimulus) (params : p.wf) :
    State.Inv { State.reset with params := p, cfg := c, input := input } :=
  (resetMeetsInvariant p params).outside input [] false c

theorem safeFor_of_inv (k : Nat) (s : State) (inv : s.Inv) : safeFor k s := by
  induction k generalizing s with
  | zero => exact trivial
  | succ k ih =>
    obtain ⟨t, hStep, tInv⟩ := step_inv s inv
    rw [safeFor, hStep]
    exact ih t tInv

/-- Settles O33, by induction on the number of steps with the one step of O31. -/
theorem runsFromResetNeverStop : Obligations.RunsFromResetNeverStop :=
  fun k p c input params _ => safeFor_of_inv k _ (reset_inv p c input params)

theorem stepTimes_inv (k : Nat) (s t : State) (inv : s.Inv) (h : stepTimes k s = .next t) : t.Inv := by
  induction k generalizing s with
  | zero => exact Host.Outcome.next.inj h ▸ inv
  | succ k ih =>
    obtain ⟨u, hStep, uInv⟩ := step_inv s inv
    rw [stepTimes, hStep, andThen_next] at h
    exact ih u uInv h

/-- Settles O57: the sentences of the spec are the parts of the invariant. -/
theorem reachableStatesMeetTheInvariants : Obligations.ReachableStatesMeetTheInvariants := by
  intro k p c input s params _ h _
  have inv := stepTimes_inv k _ s (reset_inv p c input params) h
  obtain ⟨phase, transfer⟩ := inv.startsOk
  refine ⟨fun hPhase closed => ?code, fun pending => (inv.windowOk pending).2, inv.bsyOk, transfer, phase,
    fun hPhase hCode bytes => ?descriptor, inv.latchOk⟩
  case code => exact (inv.codeOk hPhase closed).trans (codeOf_eq_ofNat _ _ _)
  case descriptor =>
    obtain ⟨len, flag⟩ := inv.descriptorOk.2 hPhase hCode bytes
    exact ⟨len, by rw [Bool.eq_iff_iff, flag, decide_eq_true_iff]⟩

end Sys2Proof.Machine
end

section
/-! PROOFS. INFORMATION_TRANSFER over several frames (41_subphase_tracker.md R141 to R148): the second high sample of BSY, and the
debounce window from the first edge to its expiry. HALTED until reset (60_exceptions.md R222, R223). -/

namespace Sys2Proof.Machine

/-! ### The BSY filter -/

/-- The sub-steps before the BSY filter leave the phase, its start, the sample number and the BSY count. -/
theorem beforeFilter_keeps (f : Frame) (s t u : State) (hAck : handshake f s = .next t) (hDebounce : debounce f t = .next u) :
    u.phase = s.phase ∧ u.phaseStart = s.phaseStart ∧ u.samplenum = s.samplenum ∧ u.bsyHighCnt = s.bsyHighCnt := by
  have tFrame := handshake_frame f s t hAck
  have uFrame := debounce_frame f t u hDebounce
  refine ⟨?_, ?_, ?_, ?_⟩ <;> rw [uFrame, tFrame]

/-- What the exit row emits last is the record of the phase. -/
theorem exec_evInformationTransferEnd_getLast (s t : State) (h : exec .evInformationTransferEnd s = .next t) :
    t.phase = .busFree ∧ t.phaseStart = s.samplenum ∧ t.bsyHighCnt = 0 ∧ t.dbPending = false ∧
      t.out.getLast? = some (recordNow s s.phaseStart (.phase .informationTransfer)) := by
  obtain ⟨u, flush, rfl⟩ := execEvInformationTransferEnd_cases s t h
  obtain ⟨l, -, rfl⟩ := flushRun_records s u flush
  exact ⟨rfl, rfl, rfl, rfl, List.getLast?_concat⟩

/-- Settles O27, by cases on whether the frame is the second high one. -/
theorem secondBsyHighSampleEndsTransfer : Obligations.SecondBsyHighSampleEndsTransfer := by
  intro s f rest _ inv hRun held hPhase hInput
  have begun : (beginStep s rest).Inv := inv.outside rest [] false s.cfg
  obtain ⟨t, u, v, hAck, hDebounce, hFilter, hStep, -⟩ := transferStep_inv f (beginStep s rest) begun hPhase held
  obtain ⟨phase, phaseStart, samplenum, count⟩ := beforeFilter_keeps f _ t u hAck hDebounce
  have hPhase : u.phase = .informationTransfer := phase.trans hPhase
  refine ⟨v.endFrame f, by rw [step_of_transfer s f rest hRun hInput held ‹_›, hStep, andThen_next], ?_⟩
  by_cases second : f.bsy = true ∧ u.bsyHighCnt = 1
  · rw [bsyFilter_of_exit f u second] at hFilter
    obtain ⟨left, start, cleared, closed, last⟩ := exec_evInformationTransferEnd_getLast u v hFilter
    refine ⟨fun low => absurd (low.symm.trans second.1) Bool.noConfusion, fun _ zero => ?_,
      fun _ _ => ⟨left, start.trans samplenum, cleared, closed, ?_⟩⟩
    · exact absurd (zero.symm.trans (count.symm.trans second.2)) (by decide)
    · exact last.trans (by rw [recordNow, recordNow, phaseStart, samplenum]; rfl)
  · rw [bsyFilter_of_not_exit f u second] at hFilter
    obtain rfl := Host.Outcome.next.inj hFilter
    refine ⟨fun low => ⟨hPhase, phaseStart, ?_⟩, fun high zero => ⟨hPhase, phaseStart, ?_⟩,
      fun high one => absurd ⟨high, count.trans one⟩ second⟩
    · simp [low]
    · have zero : u.bsyHighCnt = 0 := count.trans zero
      simp [high, zero]

/-! ### Steps and their records -/

theorem stepTimes_succ_of_next {s t : State} (h : step s = .next t) (k : Nat) : stepTimes (k + 1) s = stepTimes k t := by
  rw [stepTimes, h, andThen_next]

theorem recordsOf_succ_of_next {s t : State} (h : step s = .next t) (k : Nat) :
    recordsOf (k + 1) s = t.out ++ recordsOf k t := by
  rw [recordsOf, h]

theorem stepTimes_one_of_next {s t : State} (h : step s = .next t) : stepTimes 1 s = .next t := stepTimes_succ_of_next h 0

theorem recordsOf_one_of_next {s t : State} (h : step s = .next t) : recordsOf 1 s = t.out := by
  rw [recordsOf_succ_of_next h 0, recordsOf, List.append_nil]

/-! ### The debounce window -/

/-- A frame that holds ACK and keeps BSY low is served by the debouncer alone. -/
theorem step_of_quiet_lines (s : State) (f : Frame) (rest : List Stimulus) (hRun : s.runState = .running)
    (held : s.prevValid = true) (hPhase : s.phase = .informationTransfer) (hInput : s.input = .frame f :: rest)
    (ack : f.ack = s.prev.ack) (bsy : f.bsy = false) :
    step s = andThen (debounce f (beginStep s rest)) fun t => .next ({ t with bsyHighCnt := 0 }.endFrame f) := by
  have ack : (beginStep s rest).prev.ack = f.ack := ack.symm
  rw [step_of_transfer s f rest hRun hInput held hPhase, transferStep, handshake_of_ack_held f _ ack, andThen_next,
    andThen_assoc]
  refine andThen_congr _ _ _ fun t _ => ?_
  rw [bsyFilter_of_not_exit f t (by simp [bsy]), bsy]
  rfl

/-- The state `s` some frames after a first edge: the last of them was `f`, the window is open with some samples left, and these
stimuli wait. -/
def inWindow (s : State) (f : Frame) (now left : Nat) (rest : List Stimulus) : State :=
  { s with
    input := rest, out := [], cfgError := false, prev := controlsOf f, prevValid := true, samplenum := now, bsyHighCnt := 0
    dbPending := true, dbCnt := left }

theorem beginStep_inWindow (s : State) (f : Frame) (now left : Nat) (x : Stimulus) (rest : List Stimulus) :
    beginStep (inWindow s f now left (x :: rest)) rest = inWindow s f now left rest := rfl

/-- The first edge opens the window for W samples (R142). -/
theorem step_firstEdge (s : State) (f : Frame) (rest : List Stimulus) (hRun : s.runState = .running) (held : s.prevValid = true)
    (hPhase : s.phase = .informationTransfer) (hInput : s.input = .frame f :: rest) (ack : f.ack = s.prev.ack)
    (bsy : f.bsy = false) (closed : s.dbPending = false) (edge : f.code ≠ s.prev.code) :
    step s = .next (inWindow s f (s.samplenum + 1) s.params.debounceWindow rest) := by
  rw [step_of_quiet_lines s f rest hRun held hPhase hInput ack bsy,
    debounce_of_edge f (beginStep s rest) closed held edge]
  rfl

/-- A frame before the expiry only counts, whatever its code (R143). -/
theorem step_inWindow_counting (s : State) (before f : Frame) (now left : Nat) (rest : List Stimulus)
    (hRun : s.runState = .running) (hPhase : s.phase = .informationTransfer) (ack : f.ack = before.ack) (bsy : f.bsy = false)
    (more : 1 ≤ left) :
    step (inWindow s before now (left + 1) (.frame f :: rest)) = .next (inWindow s f (now + 1) left rest) := by
  rw [step_of_quiet_lines (inWindow s before now (left + 1) (.frame f :: rest)) f rest hRun rfl hPhase rfl ack bsy,
    beginStep_inWindow, debounce_of_counting f (inWindow s before now (left + 1) rest) rfl (Nat.lt_succ_of_le more)]
  rfl

/-- All the frames before the expiry, by induction on them. -/
theorem steps_inWindow (s : State) (level : Bool) (hRun : s.runState = .running) (hPhase : s.phase = .informationTransfer)
    (middle : List Frame) (before : Frame) (now : Nat) (rest : List Stimulus) (hBefore : before.ack = level)
    (lines : ∀ f ∈ middle, f.ack = level ∧ f.bsy = false) :
    ∃ f : Frame, f.ack = level ∧ ∀ k,
      stepTimes (middle.length + k) (inWindow s before now (middle.length + 1) (middle.map .frame ++ rest)) =
        stepTimes k (inWindow s f (now + middle.length) 1 rest) ∧
      recordsOf (middle.length + k) (inWindow s before now (middle.length + 1) (middle.map .frame ++ rest)) =
        recordsOf k (inWindow s f (now + middle.length) 1 rest) := by
  induction middle generalizing before now with
  | nil => exact ⟨before, hBefore, fun k => by simp⟩
  | cons g middle ih =>
    obtain ⟨⟨ack, bsy⟩, lines⟩ := List.forall_mem_cons.1 lines
    obtain ⟨f, hf, steps⟩ := ih g (now + 1) ack lines
    have counted := step_inWindow_counting s before g now (middle.length + 1) (middle.map .frame ++ rest) hRun hPhase
      (ack.trans hBefore.symm) bsy (Nat.succ_le_succ (Nat.zero_le _))
    refine ⟨f, hf, fun k => ?_⟩
    obtain ⟨state, records⟩ := steps k
    have length : (g :: middle).length + k = (middle.length + k) + 1 := by simp only [List.length_cons]; omega
    have sample : now + (g :: middle).length = now + 1 + middle.length := by simp only [List.length_cons]; omega
    rw [length, sample]
    exact ⟨(stepTimes_succ_of_next counted _).trans state, (recordsOf_succ_of_next counted _).trans records⟩

/-- The window expires on the committed code: a glitch (R144). -/
theorem step_inWindow_glitch (s : State) (before f : Frame) (now : Nat) (rest : List Stimulus)
    (hRun : s.runState = .running) (hPhase : s.phase = .informationTransfer) (ack : f.ack = before.ack) (bsy : f.bsy = false)
    (back : f.code = s.subphase) :
    step (inWindow s before now 1 (.frame f :: rest)) =
      .next { inWindow s f (now + 1) 1 rest with dbPending := false } := by
  rw [step_of_quiet_lines (inWindow s before now 1 (.frame f :: rest)) f rest hRun rfl hPhase rfl ack bsy,
    beginStep_inWindow, debounce_of_glitch f (inWindow s before now 1 rest) rfl le_rfl back]
  rfl

/-- The window expires on another code: the old run is flushed, and one of the new code begins (R145). -/
theorem step_inWindow_boundary (s : State) (before f : Frame) (now : Nat) (rest : List Stimulus) (l : List Record)
    (hRun : s.runState = .running) (hPhase : s.phase = .informationTransfer) (ack : f.ack = before.ack) (bsy : f.bsy = false)
    (other : f.code ≠ s.subphase)
    (flush : flushRun (inWindow s before now 1 rest).closeWindow =
      .next { (inWindow s before now 1 rest).closeWindow with out := l }) :
    step (inWindow s before now 1 (.frame f :: rest)) =
      .next { inWindow s f (now + 1) 1 rest with
        dbPending := false, out := l, subphase := f.code, byteCount := 0, runStart := now } := by
  rw [step_of_quiet_lines (inWindow s before now 1 (.frame f :: rest)) f rest hRun rfl hPhase rfl ack bsy,
    beginStep_inWindow, debounce_of_boundary f (inWindow s before now 1 rest) rfl le_rfl other, boundary, flush]
  rfl

/-- What the flush at a boundary emits at sample `now`: nothing; the record of the run; or also that of its descriptor, which is the
one that its opcode has in every state with the same descriptor. -/
theorem flushRun_at_expiry (s x : State) (inv : s.Inv) (hPhase : s.phase = .informationTransfer) (same : SameDescriptor x s)
    (noRecord : x.out = []) (hCode : x.subphase = s.subphase) (hStart : x.runStart = s.runStart) (hCdb : x.cdb = s.cdb) :
    ∃ l, flushRun x = .next { x with out := l } ∧ (s.byteCount = 0 → l = []) ∧
      (1 ≤ s.byteCount → s.subphase ≠ commandCode → l = [⟨s.runStart, x.samplenum, .subphase s.subphase s.byteCount⟩]) ∧
      (1 ≤ s.byteCount → s.subphase = commandCode → ∃ info, emitsCommand (decodeOpcode (s.cdb.read 0)) s info ∧
        l = [⟨s.runStart, x.samplenum, .subphase commandCode s.byteCount⟩, ⟨s.runStart, x.samplenum, .cmd info⟩]) := by
  have bytes := same.byteCount
  rcases Nat.eq_zero_or_pos s.byteCount with empty | some
  · refine ⟨[], ?_, fun _ => rfl, fun some => absurd empty (by omega), fun some => absurd empty (by omega)⟩
    rw [flushRun_empty x (bytes.symm.trans empty), ← noRecord]
  · have some' : 1 ≤ x.byteCount := bytes ▸ some
    by_cases command : s.subphase = commandCode
    · have fits : x.cdbLen ≤ x.params.cdbMax := same.cdbLen ▸ same.cdbMax ▸ inv.descriptorOk.1
      have stored : 1 ≤ x.cdbLen := same.cdbLen ▸ inv.one_le_cdbLen hPhase command some
      obtain ⟨info, emits, flush⟩ := flushRun_of_stored_command x some' (hCode.trans command) stored fits
      refine ⟨_, flush, fun empty => absurd empty (by omega), fun _ other => absurd command other, fun _ _ => ⟨info, ?_, ?_⟩⟩
      · rw [hCdb] at emits
        exact emitsCommand_of_sameDescriptor (decodeOpcode_wellFormed _).2 same emits
      · rw [noRecord, ← bytes, hStart]
        rfl
    · refine ⟨_, flushRun_of_not_command x some' (hCode ▸ command), fun empty => absurd empty (by omega), fun _ _ => ?_,
        fun _ h => absurd h command⟩
      rw [noRecord, ← bytes, hStart, hCode]
      rfl

/-- Settles O26: the first edge opens the window, the frames between count it down, the last one decides. -/
theorem debounceWindowDecides : Obligations.DebounceWindowDecides := by
  intro s first middle last rest _ _ inv hRun held hPhase closed hInput length edge lines W n
  obtain ⟨⟨firstAck, firstBsy⟩, lines⟩ := List.forall_mem_cons.1 lines
  obtain ⟨middleLines, lastLines⟩ := List.forall_mem_append.1 lines
  obtain ⟨lastAck, lastBsy⟩ := List.forall_mem_singleton.1 lastLines
  have firstEdge : first.code ≠ s.prev.code := inv.codeOk hPhase closed ▸ edge
  have opened := step_firstEdge s first _ hRun held hPhase hInput firstAck firstBsy closed firstEdge
  obtain ⟨before, beforeAck, steps⟩ :=
    steps_inWindow s s.prev.ack hRun hPhase middle first (s.samplenum + 1) (.frame last :: rest) firstAck middleLines
  obtain ⟨state, records⟩ := steps 1
  have sample : s.samplenum + 1 + middle.length = n := by omega
  rw [length, sample] at state records
  have state : stepTimes (W + 1) s = stepTimes 1 (inWindow s before n 1 (.frame last :: rest)) := by
    rw [stepTimes_succ_of_next opened]
    exact state
  have records : recordsOf (W + 1) s = recordsOf 1 (inWindow s before n 1 (.frame last :: rest)) := by
    rw [recordsOf_succ_of_next opened]
    exact records
  have ack : last.ack = before.ack := lastAck.trans beforeAck.symm
  refine ⟨fun back => ?glitch, fun other => ?boundary⟩
  case glitch =>
    have expired := step_inWindow_glitch s before last n rest hRun hPhase ack lastBsy back
    rw [state, records, stepTimes_one_of_next expired, recordsOf_one_of_next expired]
    refine ⟨rfl, 1, ?_⟩
    simp only [inWindow, held, closed]
  case boundary =>
    obtain ⟨l, flush, none, data, command⟩ := flushRun_at_expiry s (inWindow s before n 1 rest).closeWindow inv hPhase
      ⟨rfl, rfl, rfl, rfl, rfl⟩ rfl rfl rfl rfl
    have expired := step_inWindow_boundary s before last n rest l hRun hPhase ack lastBsy other flush
    rw [state, records, stepTimes_one_of_next expired, recordsOf_one_of_next expired]
    refine ⟨l, rfl, none, data, command, 1, ?_⟩
    simp only [inWindow, held, closed]

/-! ### HALTED -/

/-- How many frames a stimulus is. -/
theorem framesAmong_succ (k : Nat) (input : List Stimulus) :
    framesAmong (k + 1) input = framesAmong 1 input + framesAmong k (input.drop 1) := by
  cases input with
  | nil => simp [framesAmong]
  | cons x rest =>
    cases hx : x.isFrame
    · simp [framesAmong, hx]
    · simp [framesAmong, hx, Nat.add_comm]

/-- In HALTED a step other than a reset takes its stimulus, counts a frame, stores a CFG write, and shows nothing. -/
theorem step_of_halted (s : State) (hRun : s.runState = .halted) (noReset : Stimulus.rst ∉ s.input) :
    ∃ t, step s = .next t ∧
      t = { s with input := t.input, cfg := t.cfg, samplenum := t.samplenum, out := t.out, cfgError := t.cfgError } ∧
      t.samplenum = s.samplenum + framesAmong 1 s.input ∧ t.input = s.input.drop 1 ∧ t.out = [] ∧ t.cfgError = false := by
  cases hInput : s.input with
  | nil => exact ⟨_, step_of_no_input s hInput, rfl, rfl, hInput, rfl, rfl⟩
  | cons x rest =>
    cases x with
    | frame f =>
      rw [step_of_frame s f rest hInput]
      exact ⟨_, frameStep_of_halted f (beginStep s rest) hRun, rfl, rfl, rfl, rfl, rfl⟩
    | rst => exact absurd (by simp [hInput]) noReset
    | writeCfg c => exact ⟨_, step_of_writeCfg s c rest hInput, rfl, rfl, rfl, rfl, rfl⟩

theorem steps_of_halted (k : Nat) (s : State) (hRun : s.runState = .halted) (noReset : Stimulus.rst ∉ s.input) :
    ∃ t, stepTimes k s = .next t ∧ recordsOf k s = [] ∧
      t = { s with input := t.input, cfg := t.cfg, samplenum := t.samplenum, out := t.out, cfgError := t.cfgError } ∧
      t.samplenum = s.samplenum + framesAmong k s.input ∧ t.input = s.input.drop k ∧
      (1 ≤ k → t.out = [] ∧ t.cfgError = false) := by
  induction k generalizing s with
  | zero => exact ⟨s, rfl, rfl, rfl, by simp [framesAmong], rfl, fun h => absurd h (by decide)⟩
  | succ k ih =>
    obtain ⟨t, hStep, tFrame, tSample, tInput, tOut, tError⟩ := step_of_halted s hRun noReset
    have tRun : t.runState = .halted := (congrArg State.runState tFrame :).trans hRun
    have tReset : Stimulus.rst ∉ t.input := fun waits => noReset (List.mem_of_mem_drop (tInput ▸ waits))
    obtain ⟨u, hSteps, none, uFrame, uSample, uInput, uClear⟩ := ih t tRun tReset
    refine ⟨u, (stepTimes_succ_of_next hStep k).trans hSteps, ?records, ?frame, ?sample, ?input, fun _ => ?clear⟩
    case records => rw [recordsOf_succ_of_next hStep, tOut, none, List.append_nil]
    case frame => rw [uFrame, tFrame]
    case sample => rw [uSample, tSample, tInput, framesAmong_succ k, Nat.add_assoc]
    case input => rw [uInput, tInput, List.drop_drop, Nat.add_comm]
    case clear =>
      cases k with
      | zero =>
        obtain rfl := Host.Outcome.next.inj hSteps
        exact ⟨tOut, tError⟩
      | succ k => exact uClear (Nat.succ_le_succ (Nat.zero_le k))

/-- Settles O41, by induction on the number of steps. -/
theorem haltedUntilReset : Obligations.HaltedUntilReset :=
  ⟨fun k s _ _ hRun noReset => steps_of_halted k s hRun noReset,
    fun s rest _ hInput => ⟨_, step_of_rst s rest hInput, rfl, rfl⟩⟩

end Sys2Proof.Machine
end

section
/-! PROOFS. What a step does not look at (30_encoding.md section 1; 40_phase_fsm.md section 3; 10_state.md sections 1 and 3): REQ, the
data lines without their edge, and the fields that mean nothing. -/

namespace Sys2Proof.Machine

/-! ### Two frames with the same control levels -/

theorem code_of_sameControls {f g : Frame} (same : controlsOf f = controlsOf g) : f.code = g.code :=
  (congrArg Controls.code same :)

/-- The data levels of a frame are the operand of the row that ends ARBITRATION alone. -/
theorem decodePhaseEvent_congr {f g : Frame} (same : controlsOf f = controlsOf g) (p : Phase) (c : Controls)
    (data : p = .arbitration → c.bsy = true → f.bsy = false → f.d = g.d) :
    decodePhaseEvent p (eventWord c f) = decodePhaseEvent p (eventWord c g) := by
  have sel : f.sel = g.sel := (congrArg Controls.sel same :)
  have bsy : f.bsy = g.bsy := (congrArg Controls.bsy same :)
  cases p with
  | busFree => rw [decodePhaseEvent_busFree, decodePhaseEvent_busFree, sel]
  | arbitration =>
    rw [decodePhaseEvent_arbitration, decodePhaseEvent_arbitration, ← bsy]
    split_ifs with edge
    · rw [data rfl edge.1 edge.2]
    · rfl
  | selection => rw [decodePhaseEvent_selection, decodePhaseEvent_selection, sel, code_of_sameControls same]
  | informationTransfer => rfl

/-- In INFORMATION_TRANSFER they are that of the row of a falling ACK edge alone. -/
theorem decodeAckEvent_congr {f g : Frame} (same : controlsOf f = controlsOf g) (latchValid : Bool) (c : Controls)
    (data : c.ack = true → f.ack = false → f.d = g.d) :
    decodeAckEvent latchValid (eventWord c f) = decodeAckEvent latchValid (eventWord c g) := by
  have ack : f.ack = g.ack := (congrArg Controls.ack same :)
  rw [decodeAckEvent_eventWord, decodeAckEvent_eventWord, ← ack]
  by_cases fall : c.ack = true ∧ f.ack = false
  · rw [if_pos fall, if_pos fall, data fall.1 fall.2]
  · rw [if_neg fall, if_neg fall]

theorem debounce_congr {f g : Frame} (same : controlsOf f = controlsOf g) (s : State) : debounce f s = debounce g s := by
  have cd : f.cd = g.cd := (congrArg Controls.cd same :)
  have io : f.io = g.io := (congrArg Controls.io same :)
  have msg : f.msg = g.msg := (congrArg Controls.msg same :)
  have edge : candidate s f = candidate s g := by rw [candidate, candidate, cd, io, msg]
  rw [debounce, debounce, edge, code_of_sameControls same]

theorem bsyFilter_congr {f g : Frame} (same : controlsOf f = controlsOf g) (s : State) : bsyFilter f s = bsyFilter g s := by
  have bsy : f.bsy = g.bsy := (congrArg Controls.bsy same :)
  rw [bsyFilter_eq_elim, bsyFilter_eq_elim, decodeExitEvent_eventWord, decodeExitEvent_eventWord, bsy]

/-- Two frames with the same control levels are served alike, if their data levels are the same or not looked at. -/
theorem phaseStep_congr {f g : Frame} (same : controlsOf f = controlsOf g) (s : State)
    (arbitration : s.phase = .arbitration → s.prev.bsy = true → f.bsy = false → f.d = g.d)
    (transfer : s.phase = .informationTransfer → s.prev.ack = true → f.ack = false → f.d = g.d) :
    phaseStep f s = phaseStep g s := by
  by_cases hPhase : s.phase = .informationTransfer
  · rw [phaseStep_of_transfer f s hPhase, phaseStep_of_transfer g s hPhase, transferStep, transferStep, handshake, handshake,
      decodeAckEvent_congr same _ _ (transfer hPhase)]
    simp only [debounce_congr same, bsyFilter_congr same]
  · rw [phaseStep_of_not_transfer f s hPhase, phaseStep_of_not_transfer g s hPhase,
      decodePhaseEvent_congr same _ _ arbitration]

theorem endFrame_congr {f g : Frame} (same : controlsOf f = controlsOf g) (s : State) : s.endFrame f = s.endFrame g := by
  rw [State.endFrame, State.endFrame, same]

theorem frameStep_congr {f g : Frame} (same : controlsOf f = controlsOf g) (s : State)
    (arbitration : s.phase = .arbitration → s.prev.bsy = true → f.bsy = false → f.d = g.d)
    (transfer : s.phase = .informationTransfer → s.prev.ack = true → f.ack = false → f.d = g.d) :
    frameStep f s = frameStep g s := by
  have running (t : State) (hPhase : t.phase = s.phase) (hPrev : t.prev = s.prev) : runningStep f t = runningStep g t := by
    rw [← hPhase, ← hPrev] at arbitration transfer
    simp only [runningStep, phaseStep_congr same t arbitration transfer, endFrame_congr same]
  simp only [frameStep, running s rfl rfl, running { s with runState := .running } rfl rfl]

theorem step_congr {f g : Frame} (same : controlsOf f = controlsOf g) (s : State) (rest : List Stimulus)
    (arbitration : s.phase = .arbitration → s.prev.bsy = true → f.bsy = false → f.d = g.d)
    (transfer : s.phase = .informationTransfer → s.prev.ack = true → f.ack = false → f.d = g.d) :
    step { s with input := .frame f :: rest } = step { s with input := .frame g :: rest } := by
  rw [step_of_frame { s with input := .frame f :: rest } f rest rfl,
    step_of_frame { s with input := .frame g :: rest } g rest rfl]
  exact frameStep_congr same (beginStep s rest) arbitration transfer

/-- Settles O47: the six kept levels and the data levels stand in bits 13:0. -/
theorem reqIsNeverRead : Obligations.ReqIsNeverRead := by
  intro s f g rest low _
  have bit (i : Nat) (hi : i < 14) : f.getLsbD i = g.getLsbD i := by
    simpa [hi] using congrArg (BitVec.getLsbD · i) low
  have same : controlsOf f = controlsOf g := by
    simp only [controlsOf, Frame.sel, Frame.bsy, Frame.cd, Frame.io, Frame.msg, Frame.ack, bit, Nat.reduceLT]
  have data : f.d = g.d := by
    have d (h : Frame) : h.d = (h.setWidth 14).setWidth 8 := (BitVec.setWidth_setWidth_of_le h (by decide)).symm
    rw [d f, d g, low]
  exact step_congr same s rest (fun _ _ _ => data) fun _ _ _ => data

/-- Settles O48: the six kept levels stand in bits 14:8. -/
theorem dataLinesIgnoredWithoutTheirEdge : Obligations.DataLinesIgnoredWithoutTheirEdge := by
  intro s f g rest high _ noArbitration noTransfer
  have bit (i : Nat) (hi : i < 7) : f.getLsbD (8 + i) = g.getLsbD (8 + i) := by
    simpa [hi] using congrArg (BitVec.getLsbD · i) high
  have same : controlsOf f = controlsOf g := by
    have sel : f.sel = g.sel := bit 0 (by decide)
    have bsy : f.bsy = g.bsy := bit 1 (by decide)
    have cd : f.cd = g.cd := bit 2 (by decide)
    have io : f.io = g.io := bit 3 (by decide)
    have msg : f.msg = g.msg := bit 4 (by decide)
    have ack : f.ack = g.ack := bit 5 (by decide)
    rw [controlsOf, controlsOf, sel, bsy, cd, io, msg, ack]
  exact step_congr same s rest (fun hPhase before now => absurd ⟨hPhase, before, now⟩ noArbitration)
    fun hPhase before now => absurd ⟨hPhase, before, now⟩ noTransfer

/-! ### Outside INFORMATION_TRANSFER no sub-phase field is written -/

theorem subphaseFields_kept (s t : State) (h : step s = .next t) (before : s.phase ≠ .informationTransfer)
    (after : t.phase ≠ .informationTransfer) (noReset : ∀ rest, s.input ≠ .rst :: rest) :
    t.subphase = s.subphase ∧ t.runStart = s.runStart ∧ t.byteCount = s.byteCount ∧ t.byteRunStart = s.byteRunStart ∧
    t.dataLatch = s.dataLatch ∧ t.latchValid = s.latchValid ∧ t.dbPending = s.dbPending ∧ t.dbCnt = s.dbCnt ∧
    t.bsyHighCnt = s.bsyHighCnt := by
  cases step_outcome s t h with
  | reset rest hInput => exact absurd hInput (noReset rest)
  | serve f rest u _ _ served =>
    cases served with
    | selectionEnd => exact absurd rfl after
    | transfer transfer => exact absurd transfer before
    | _ => exact ⟨rfl, rfl, rfl, rfl, rfl, rfl, rfl, rfl, rfl⟩
  | _ => exact ⟨rfl, rfl, rfl, rfl, rfl, rfl, rfl, rfl, rfl⟩

/-! ### A state without what means nothing in it -/

/-- The state with other values for the latched byte and the window's count. -/
def State.mask (s : State) (d : Byte) (c : Nat) : State := { s with dataLatch := d, dbCnt := c }

/-- The values differ from those of the state only where these mean nothing (R31, R32). -/
def State.Hides (s : State) (d : Byte) (c : Nat) : Prop :=
  (s.latchValid = true → d = s.dataLatch) ∧ (s.dbPending = true → c = s.dbCnt)

/-- The state without its nine sub-phase fields. -/
def State.forget (s : State) : State :=
  { s with
    subphase := 0, runStart := 0, byteCount := 0, byteRunStart := 0, dataLatch := 0, latchValid := false
    dbPending := false, dbCnt := 0, bsyHighCnt := 0 }

/-- The state with what means nothing in INFORMATION_TRANSFER cleared. -/
def State.hidden (s : State) : State :=
  s.mask (if s.latchValid then s.dataLatch else 0) (if s.dbPending then s.dbCnt else 0)

theorem meaning_of_not_transfer (s : State) (hPhase : s.phase ≠ .informationTransfer) : s.meaning = s.forget := if_neg hPhase

theorem meaning_of_transfer (s : State) (hPhase : s.phase = .informationTransfer) :
    s.meaning = s.hidden := if_pos hPhase

/-- Everything beside the nine sub-phase fields means something. -/
theorem meaning_frame (s : State) :
    s.meaning =
      { s with
        subphase := s.meaning.subphase, runStart := s.meaning.runStart, byteCount := s.meaning.byteCount
        byteRunStart := s.meaning.byteRunStart, dataLatch := s.meaning.dataLatch, latchValid := s.meaning.latchValid
        dbPending := s.meaning.dbPending, dbCnt := s.meaning.dbCnt, bsyHighCnt := s.meaning.bsyHighCnt } := by
  by_cases hPhase : s.phase = .informationTransfer
  · rw [meaning_of_transfer s hPhase]; rfl
  · rw [meaning_of_not_transfer s hPhase]; rfl

@[simp] theorem meaning_phase (s : State) : s.meaning.phase = s.phase := (congrArg State.phase (meaning_frame s) :)
@[simp] theorem meaning_prev (s : State) : s.meaning.prev = s.prev := (congrArg State.prev (meaning_frame s) :)
@[simp] theorem meaning_prevValid (s : State) : s.meaning.prevValid = s.prevValid :=
  (congrArg State.prevValid (meaning_frame s) :)
@[simp] theorem meaning_runState (s : State) : s.meaning.runState = s.runState :=
  (congrArg State.runState (meaning_frame s) :)
@[simp] theorem meaning_cfg (s : State) : s.meaning.cfg = s.cfg := (congrArg State.cfg (meaning_frame s) :)
@[simp] theorem meaning_params (s : State) : s.meaning.params = s.params := (congrArg State.params (meaning_frame s) :)
@[simp] theorem meaning_input (s : State) : s.meaning.input = s.input := (congrArg State.input (meaning_frame s) :)
@[simp] theorem meaning_out (s : State) : s.meaning.out = s.out := (congrArg State.out (meaning_frame s) :)

theorem meaning_mask (s : State) (d : Byte) (c : Nat) (hPhase : s.phase = .informationTransfer) (hides : s.Hides d c) :
    (s.mask d c).meaning = s.meaning := by
  obtain ⟨latch, window⟩ := hides
  have hLatch : (if s.latchValid then d else 0) = if s.latchValid then s.dataLatch else 0 := by
    split
    · exact latch ‹_›
    · rfl
  have hWindow : (if s.dbPending then c else 0) = if s.dbPending then s.dbCnt else 0 := by
    split
    · exact window ‹_›
    · rfl
  rw [meaning_of_transfer s hPhase, meaning_of_transfer (s.mask d c) hPhase, State.hidden, State.hidden, ← hLatch, ← hWindow]
  rfl

/-- In INFORMATION_TRANSFER the meaning is one of the masks that hide nothing that means something. -/
theorem meaning_eq_mask (s : State) (hPhase : s.phase = .informationTransfer) : ∃ d c, s.Hides d c ∧ s.meaning = s.mask d c :=
  ⟨_, _, ⟨fun latched => if_pos latched, fun pending => if_pos pending⟩, meaning_of_transfer s hPhase⟩

theorem meaning_meaning (s : State) : s.meaning.meaning = s.meaning := by
  by_cases hPhase : s.phase = .informationTransfer
  · obtain ⟨d, c, hides, same⟩ := meaning_eq_mask s hPhase
    rw [same, meaning_mask s d c hPhase hides, same]
  · rw [meaning_of_not_transfer s.meaning (by simpa using hPhase), meaning_of_not_transfer s hPhase]
    rfl

/-! ### Operations that do not look at it -/

/-- What the operation answers, as far as it means something, is a function of what means something in the state. -/
def Respects (P : State → Prop) (k : State → Result) : Prop := ∀ s, P s → meaningOf (k s.meaning) = meaningOf (k s)

theorem meaningOf_eq_next_iff (r : Result) (u : State) : meaningOf r = .next u ↔ ∃ t, r = .next t ∧ t.meaning = u := by
  cases r <;> simp [meaningOf]

/-- Two answers that mean the same are both next states, or the same stop. -/
theorem meaningOf_eq_cases {r q : Result} (h : meaningOf r = meaningOf q) :
    (∃ t u, r = .next t ∧ q = .next u ∧ t.meaning = u.meaning) ∨ (r = q ∧ ∀ t, r ≠ .next t) := by
  cases q with
  | next u =>
    obtain ⟨t, ht, same⟩ := (meaningOf_eq_next_iff r _).1 h
    exact .inl ⟨t, u, ht, rfl, same⟩
  | fault e => cases r <;> simp_all [meaningOf]
  | refused e => cases r <;> simp_all [meaningOf]

/-- A sequence respects the meaning when both of its parts do. -/
theorem Respects.andThen {P Q : State → Prop} {k l : State → Result} (hk : Respects P k) (hl : Respects Q l)
    (kept : ∀ s t, P s → k s = .next t → Q t) (phase : ∀ s t : State, s.phase = t.phase → Q s → Q t) :
    Respects P fun s => andThen (k s) l := by
  intro s hs
  rcases meaningOf_eq_cases (hk s hs) with ⟨t, u, ht, hu, same⟩ | ⟨same, -⟩
  · show meaningOf (Machine.andThen (k s.meaning) l) = meaningOf (Machine.andThen (k s) l)
    have hQ : Q u := kept s u hs hu
    have hQ' : Q t := phase u t (by rw [← meaning_phase u, ← same, meaning_phase]) hQ
    rw [ht, hu, andThen_next, andThen_next, ← hl t hQ', same, hl u hQ]
  · simp only [same]

/-! ### The sub-steps of INFORMATION_TRANSFER -/

theorem finaliseByte_mask (s : State) (c : Nat) :
    finaliseByte (s.mask s.dataLatch c) = (finaliseByte s).mask s.dataLatch c := by
  by_cases hCode : s.subphase = commandCode
  · rw [finaliseByte_of_command s hCode, finaliseByte_of_command (s.mask s.dataLatch c) hCode]
    rfl
  · rw [finaliseByte_eq, finaliseByte_eq, byteRecords, byteRecords, s.storeByte_of_not_command hCode,
      (s.mask s.dataLatch c).storeByte_of_not_command hCode]
    rfl

theorem handshake_mask (f : Frame) (s : State) (d : Byte) (c : Nat) (hPhase : s.phase = .informationTransfer)
    (hides : s.Hides d c) : meaningOf (handshake f (s.mask d c)) = meaningOf (handshake f s) := by
  obtain ⟨latch, window⟩ := hides
  have decoded : handshake f (s.mask d c) = runEvent (decodeAckEvent s.latchValid (eventWord s.prev f)) (s.mask d c) := rfl
  rw [decoded, handshake, decodeAckEvent_eventWord]
  split_ifs with fall rise
  · exact congrArg Host.Outcome.next (meaning_mask (s.latch f.d) (captureByte f.d) c hPhase ⟨fun _ => rfl, window⟩)
  · obtain rfl : d = s.dataLatch := latch rise.2
    have hPhase' : (finaliseByte s).phase = .informationTransfer := (finaliseByte_keepsPhase s).phase.trans hPhase
    have frame := (Sampled.byte (f := f) rise.2 rise.1.1 rise.1.2).frame
    have hPending : (finaliseByte s).dbPending = s.dbPending := (congrArg State.dbPending frame :)
    have hLeft : (finaliseByte s).dbCnt = s.dbCnt := (congrArg State.dbCnt frame :)
    rw [runEvent, runEvent, exec_evAckRise_of_latched s rise.2, exec_evAckRise_of_latched _ (by exact rise.2),
      finaliseByte_mask]
    exact congrArg Host.Outcome.next (meaning_mask _ _ c hPhase'
      ⟨fun latched => by simp at latched, fun pending => (window (hPending ▸ pending)).trans hLeft.symm⟩)
  · exact congrArg Host.Outcome.next (meaning_mask s d c hPhase ⟨latch, window⟩)

/-- The flush looks at neither the latch nor the window. -/
theorem flushRun_mask (s : State) (d : Byte) (c : Nat) :
    flushRun (s.mask d c) = andThen (flushRun s) fun t => .next (t.mask d c) := by
  rcases Nat.eq_zero_or_pos s.byteCount with empty | bytes
  · rw [flushRun_empty s empty, flushRun_empty (s.mask d c) empty, andThen_next]
  · by_cases hCode : s.subphase = commandCode
    · have read : cdbRead (s.mask d c) 0 = cdbRead s 0 := rfl
      cases hOp : cdbRead s 0 with
      | error e =>
        have stops (t : State) (hCount : t.byteCount = s.byteCount) (hSub : t.subphase = s.subphase)
            (hRead : ∀ l, cdbRead { t with out := l } 0 = .error e) : flushRun t = .fault e := by
          rw [flushRun, if_pos (hCount ▸ bytes), execSubphaseRow_next, andThen_next, if_pos (hSub.trans hCode),
            decodeDescriptor, State.emitRun, State.emit, hRead]
        rw [stops s rfl rfl fun _ => hOp, stops (s.mask d c) rfl rfl fun _ => hOp, andThen_fault]
      | ok op =>
        rw [flushRun_of_command s op bytes hCode hOp, flushRun_of_command (s.mask d c) op bytes hCode (read.trans hOp)]
        have same : SameDescriptor (s.emitRun commandCode) ((s.mask d c).emitRun commandCode) := ⟨rfl, rfl, rfl, rfl, rfl⟩
        obtain ⟨r, hs, ht⟩ := exec_cdb_of_sameDescriptor (decodeOpcode_wellFormed op).2 same
        rw [hs, ht]
        cases r <;> rfl
    · rw [flushRun_of_not_command s bytes hCode, flushRun_of_not_command (s.mask d c) bytes hCode]
      rfl

theorem debounce_mask (f : Frame) (s : State) (d : Byte) (c : Nat) (hPhase : s.phase = .informationTransfer)
    (hides : s.Hides d c) : meaningOf (debounce f (s.mask d c)) = meaningOf (debounce f s) := by
  obtain ⟨latch, window⟩ := hides
  cases pending : s.dbPending with
  | true =>
    obtain rfl : c = s.dbCnt := window pending
    by_cases last : s.dbCnt ≤ 1
    · by_cases back : f.code = s.subphase
      · rw [debounce_of_glitch f s pending last back, debounce_of_glitch f (s.mask d s.dbCnt) pending last back]
        exact congrArg Host.Outcome.next (meaning_mask s.closeWindow d s.dbCnt hPhase ⟨latch, fun open' => Bool.noConfusion open'⟩)
      · rw [debounce_of_boundary f s pending last back, debounce_of_boundary f (s.mask d s.dbCnt) pending last back,
          boundary, boundary]
        have masked : flushRun (s.mask d s.dbCnt).closeWindow = _ := flushRun_mask s.closeWindow d s.dbCnt
        rw [masked, andThen_assoc]
        cases flush : flushRun s.closeWindow with
        | next t =>
          have frame := flushRun_frame _ t flush
          refine congrArg Host.Outcome.next (meaning_mask (t.startRun f.code) d s.dbCnt ?_ ⟨?_, ?_⟩)
          · exact (congrArg State.phase frame :).trans hPhase
          · rw [frame]; exact latch
          · rw [frame]; exact fun _ => rfl
        | fault e => rfl
        | refused e => rfl
    · rw [debounce_of_counting f s pending (by omega), debounce_of_counting f (s.mask d s.dbCnt) pending (Nat.not_le.1 last)]
      exact congrArg Host.Outcome.next (meaning_mask s.countWindow d (s.dbCnt - 1) hPhase ⟨latch, fun _ => rfl⟩)
  | false =>
    have closed : (s.mask d c).dbPending = false := pending
    have hEdge : candidate (s.mask d c) f = candidate s f := rfl
    simp only [debounce, pending, closed, Bool.false_eq_true, if_false, hEdge]
    split
    · exact congrArg Host.Outcome.next
        (meaning_mask s.openWindow d s.params.debounceWindow hPhase ⟨latch, fun _ => rfl⟩)
    · exact congrArg Host.Outcome.next (meaning_mask s d c hPhase ⟨latch, window⟩)

theorem bsyFilter_mask (f : Frame) (s : State) (d : Byte) (c : Nat) (hPhase : s.phase = .informationTransfer)
    (hides : s.Hides d c) : meaningOf (bsyFilter f (s.mask d c)) = meaningOf (bsyFilter f s) := by
  by_cases second : f.bsy = true ∧ s.bsyHighCnt = 1
  · rw [bsyFilter_of_exit f s second, bsyFilter_of_exit f (s.mask d c) second]
    have exit (t : State) : exec .evInformationTransferEnd t = andThen (flushRun t) fun u =>
      .next ((u.emitPhase .informationTransfer).enterPhase .busFree).clearFilters := rfl
    rw [exit, exit, flushRun_mask]
    cases flushRun s <;> rfl
  · rw [bsyFilter_of_not_exit f s second, bsyFilter_of_not_exit f (s.mask d c) second]
    exact congrArg Host.Outcome.next (meaning_mask (s.countBsy f.bsy) d c hPhase hides)

/-- In INFORMATION_TRANSFER an operation that does not look behind a mask respects the meaning. -/
theorem respects_of_mask {k : State → Result}
    (h : ∀ (s : State) (d : Byte) (c : Nat), s.phase = .informationTransfer → s.Hides d c →
      meaningOf (k (s.mask d c)) = meaningOf (k s)) : Respects (fun s => s.phase = .informationTransfer) k := by
  intro s hPhase
  obtain ⟨d, c, hides, same⟩ := meaning_eq_mask s hPhase
  rw [same, h s d c hPhase hides]

theorem transferStep_respects (f : Frame) : Respects (fun s => s.phase = .informationTransfer) (transferStep f) := by
  have phase : ∀ s t : State, s.phase = t.phase → s.phase = .informationTransfer → t.phase = .informationTransfer :=
    fun s t same transfer => same ▸ transfer
  have filters := (respects_of_mask (debounce_mask f)).andThen (respects_of_mask (bsyFilter_mask f))
    (fun s t transfer h => (debounce_keepsPhase f s t h).phase.trans transfer) phase
  exact (respects_of_mask (handshake_mask f)).andThen filters
    (fun s t transfer h => (handshake_keepsPhase f s t h).phase.trans transfer) phase

/-! ### The other phases, and the step -/

theorem runEvent_respects (p : Phase) (w : EventWord) :
    Respects (fun s => s.phase ≠ .informationTransfer) (runEvent (decodePhaseEvent p w)) := by
  intro s hPhase
  cases decoded : decodePhaseEvent p w with
  | none => exact congrArg Host.Outcome.next (meaning_meaning s)
  | some i =>
    rw [meaning_of_not_transfer s hPhase, runEvent, runEvent]
    rcases decodePhaseEvent_eq_some _ _ _ decoded with ⟨-, rfl⟩ | ⟨-, rfl⟩ | ⟨-, rfl⟩
    · rfl
    · rw [exec_evArbitrationEnd_eq, exec_evArbitrationEnd_eq]; rfl
    · rw [exec_evSelectionEnd_eq, exec_evSelectionEnd_eq]; rfl

theorem phaseStep_respects (f : Frame) : Respects (fun _ => True) (phaseStep f) := by
  intro s _
  by_cases hPhase : s.phase = .informationTransfer
  · rw [phaseStep_of_transfer f s hPhase, phaseStep_of_transfer f s.meaning (by simpa using hPhase)]
    exact transferStep_respects f s hPhase
  · rw [phaseStep_of_not_transfer f s hPhase, phaseStep_of_not_transfer f s.meaning (by simpa using hPhase), meaning_phase,
      meaning_prev]
    exact runEvent_respects _ _ s hPhase

/-- An update of fields beside the phase and the sub-phase fields. -/
theorem respects_of_commutes {g : State → State} (h : ∀ s, (g s.meaning) = (g s).meaning) :
    Respects (fun _ => True) fun s => .next (g s) :=
  fun s _ => congrArg Host.Outcome.next ((congrArg State.meaning (h s)).trans (meaning_meaning _))

theorem meaning_update (g : State → State) (s : State) (phase : (g s).phase = s.phase)
    (hidden : g s.hidden = (g s).hidden) (forget : g s.forget = (g s).forget) : g s.meaning = (g s).meaning := by
  by_cases hPhase : s.phase = .informationTransfer
  · rw [meaning_of_transfer s hPhase, meaning_of_transfer (g s) (phase.trans hPhase), hidden]
  · rw [meaning_of_not_transfer s hPhase, meaning_of_not_transfer (g s) (phase ▸ hPhase), forget]

theorem endFrame_meaning (f : Frame) (s : State) : s.meaning.endFrame f = (s.endFrame f).meaning :=
  meaning_update (·.endFrame f) s rfl rfl rfl

theorem skipFrame_meaning (s : State) : s.meaning.skipFrame = s.skipFrame.meaning :=
  meaning_update State.skipFrame s rfl rfl rfl

theorem raiseConfigurationError_meaning (s : State) : raiseConfigurationError s.meaning = (raiseConfigurationError s).meaning :=
  meaning_update raiseConfigurationError s rfl rfl rfl

theorem clearPorts_meaning (s : State) : s.meaning.clearPorts = s.clearPorts.meaning :=
  meaning_update State.clearPorts s rfl rfl rfl

theorem writeCfg_meaning (c : Cfg) (s : State) : s.meaning.writeCfg c = (s.writeCfg c).meaning :=
  meaning_update (·.writeCfg c) s rfl rfl rfl

theorem beginStep_meaning (rest : List Stimulus) (s : State) : beginStep s.meaning rest = (beginStep s rest).meaning :=
  meaning_update (beginStep · rest) s rfl rfl rfl

theorem enterRunning_meaning (s : State) :
    { s.meaning with runState := .running } = State.meaning { s with runState := .running } :=
  meaning_update ({ · with runState := .running }) s rfl rfl rfl

theorem runningStep_respects (f : Frame) : Respects (fun _ => True) (runningStep f) := by
  have served : Respects (fun _ => True) fun s => if s.prevValid then phaseStep f s else .next s := by
    intro s _
    show meaningOf (if s.meaning.prevValid then phaseStep f s.meaning else .next s.meaning) =
      meaningOf (if s.prevValid then phaseStep f s else .next s)
    rw [meaning_prevValid]
    split
    · exact phaseStep_respects f s trivial
    · exact congrArg Host.Outcome.next (meaning_meaning s)
  exact served.andThen (respects_of_commutes (endFrame_meaning f)) (fun _ _ _ _ => trivial) fun _ _ _ _ => trivial

theorem frameStep_respects (f : Frame) : Respects (fun _ => True) (frameStep f) := by
  intro s _
  cases hRun : s.runState with
  | idle =>
    have hRun' : s.meaning.runState = .idle := by simpa using hRun
    cases hCfg : s.cfg.srValid with
    | false =>
      rw [frameStep_of_not_configured f s hRun hCfg, frameStep_of_not_configured f s.meaning hRun' (by simpa using hCfg),
        raiseConfigurationError_meaning, skipFrame_meaning]
      exact congrArg Host.Outcome.next (meaning_meaning _)
    | true =>
      rw [frameStep_of_configured f s hRun hCfg, frameStep_of_configured f s.meaning hRun' (by simpa using hCfg),
        enterRunning_meaning]
      exact runningStep_respects f _ trivial
  | running =>
    simp only [frameStep, meaning_runState, hRun]
    exact runningStep_respects f s trivial
  | halted =>
    rw [frameStep_of_halted f s hRun, frameStep_of_halted f s.meaning (by simpa using hRun), skipFrame_meaning]
    exact congrArg Host.Outcome.next (meaning_meaning _)

/-- A step respects the meaning, whatever stimulus it takes. -/
theorem step_respects : Respects (fun _ => True) step := by
  intro s _
  have hInput := meaning_input s
  cases h : s.input with
  | nil =>
    rw [step_of_no_input s h, step_of_no_input s.meaning (hInput.trans h), clearPorts_meaning]
    exact congrArg Host.Outcome.next (meaning_meaning _)
  | cons x rest =>
    cases x with
    | frame f =>
      rw [step_of_frame s f rest h, step_of_frame s.meaning f rest (hInput.trans h), beginStep_meaning]
      exact frameStep_respects f _ trivial
    | rst =>
      rw [step_of_rst s rest h, step_of_rst s.meaning rest (hInput.trans h), resetBlock, resetBlock, meaning_cfg, meaning_params]
    | writeCfg c =>
      rw [step_of_writeCfg s c rest h, step_of_writeCfg s.meaning c rest (hInput.trans h), beginStep_meaning, writeCfg_meaning]
      exact congrArg Host.Outcome.next (meaning_meaning _)

theorem meaningOf_step_congr {s t : State} (same : s.meaning = t.meaning) : meaningOf (step s) = meaningOf (step t) := by
  rw [← step_respects s trivial, same, step_respects t trivial]

/-- The records of a run are those of the meaning, by induction on the number of steps. -/
theorem recordsOf_congr (k : Nat) {s t : State} (same : s.meaning = t.meaning) : recordsOf k s = recordsOf k t := by
  induction k generalizing s t with
  | zero => rfl
  | succ k ih =>
    rcases meaningOf_eq_cases (meaningOf_step_congr same) with ⟨s', t', hs, ht, next⟩ | ⟨stops, -⟩
    · have out : s'.out = t'.out := by rw [← meaning_out s', next, meaning_out]
      rw [recordsOf_succ_of_next hs, recordsOf_succ_of_next ht, out, ih next]
    · rw [recordsOf, recordsOf, stops]

/-- Settles O58. -/
theorem subphaseFieldsMeanNothingOutsideTransfer : Obligations.SubphaseFieldsMeanNothingOutsideTransfer :=
  ⟨fun s t _ h before after noReset => subphaseFields_kept s t h before after noReset,
    fun _ _ _ _ same => meaningOf_step_congr same, fun k _ _ _ _ same => recordsOf_congr k same⟩

end Sys2Proof.Machine
end

section
/-! PROOFS. A byte latched and never finalised stays valid over the exit, and ACK may then rise in BUS_FREE (vector H2, log 12). -/

namespace Sys2Proof.Machine

/-- INFORMATION_TRANSFER is entered, a falling ACK edge latches a byte, two samples with BSY high end the phase, and only
then ACK rises. -/
def staleLatchStimuli : List Stimulus :=
  [.frame 0x7FFF, .frame 0x7EFF, .frame 0x7CFB, .frame 0x79FF, .frame 0x5928, .frame 0x5B28, .frame 0x5B28, .frame 0x7B28]

/-- The state after reset, configured, with those frames waiting. -/
def staleLatchStart : State := { State.reset with cfg := ⟨true, 0⟩, input := staleLatchStimuli }

theorem staleLatch_runWithinSpec : State.runWithinSpec 8 staleLatchStart = true := by decide

theorem staleLatch_after_ackRise :
    ∃ t, stepTimes 8 staleLatchStart = .next t ∧ t.runState = .running ∧ t.latchValid = true ∧ t.prev.ack = true :=
  ⟨_, rfl, rfl, rfl, rfl⟩

/-- Refutes O54: the run leaves a valid latch in BUS_FREE with ACK high. -/
theorem not_latchedByteMeansAckLowInEveryPhase : ¬ Obligations.LatchedByteMeansAckLowInEveryPhase := by
  intro claim
  obtain ⟨t, run, running, latched, ackHigh⟩ := staleLatch_after_ackRise
  have ackLow : t.prev.ack = false := claim 8 ⟨true, 0⟩ staleLatchStimuli t staleLatch_runWithinSpec run running latched
  exact Bool.noConfusion (ackHigh.symm.trans ackLow)

end Sys2Proof.Machine
end
